-- ==== Sys2Proof/Word.lean ====
section
/-! DEFINITION. The widths every other file uses: a byte of a store or an operand, a 32-bit register or
command word, a 16-bit count operand, and a bit sequence written first bit first (R10, R90). -/

namespace Sys2Proof

/-- One byte: a stored byte, a symbol, a table index, an `a` operand (R7, R90). -/
abbrev Byte := BitVec 8

/-- A host-visible register or a command word (R8: `REG_W` = `CMD_W` = 32). -/
abbrev Word := BitVec 32

/-- The count operand `n` of a command word (R90). -/
abbrev Half := BitVec 16

/-- A bit sequence, in the order the bits are produced (R10): a codeword, a path, the payload. -/
abbrev Bits := List Bool

end Sys2Proof
end

