-- ==== Sys2Proof/Syntax.lean ====
section
/-! DEFINITION. The 31 commands of R93, one constructor per row of spec/opcode_table.json. -/

namespace Sys2Proof

/-- A command (R93). Operands are the immediates of R92: `a` a byte, `n` a count. In format B the operand is
the bit `a[0]`, and the constructor keeps the whole byte `a`, so that WellFormed can say that `a[7:1]` is 0. -/
inductive Instr where
  -- control (R120, R121)
  | nop | init
  -- bit writer (R133 to R139)
  | openw | wrbit (a : Byte) | wrbyte (a : Byte) | pending | closew
  -- bit reader (R140 to R145)
  | openr | rdbit | rdbyte | iseof | closer | rewind
  -- trie builder (R151 to R160)
  | fclr | fadd (a : Byte) (n : Half) | fread (a : Byte) | tally | build
  -- encoding table and pass 2 (R172 to R178)
  | mktab | lookup (a : Byte) | encsym (a : Byte) | encode
  -- serializer (R192, R194)
  | sertree | destree
  -- compressor (R212 to R215)
  | wrpad | wrenc | compress
  -- decompressor (R232 to R237)
  | rdpad | decbit (a : Byte) | decode | decompress
  deriving DecidableEq, Repr

end Sys2Proof
end

