-- ==== Sys2Proof/WellFormed.lean ====
section
/-! DEFINITION. Which commands the encoding admits (R91): every operand has the width of its field by its
type, and the operand byte of a format B command has `a[7:1]` = 0. -/

namespace Sys2Proof

/-- `a[7:1]` = 0, as format B asks (R91). -/
def bitOperandOk (a : Byte) : Bool := a.extractLsb' 1 7 == 0#7

/-- The command has an encoding that decodes to it. The only field check the types leave is format B's. -/
def Instr.wellFormed : Instr → Bool
  | .wrbit a => bitOperandOk a
  | .decbit a => bitOperandOk a
  | .nop | .init | .openw | .wrbyte _ | .pending | .closew => true
  | .openr | .rdbit | .rdbyte | .iseof | .closer | .rewind => true
  | .fclr | .fadd _ _ | .fread _ | .tally | .build => true
  | .mktab | .lookup _ | .encsym _ | .encode => true
  | .sertree | .destree => true
  | .wrpad | .wrenc | .compress => true
  | .rdpad | .decode | .decompress => true

end Sys2Proof
end

