-- ==== Sys2Proof/Decode.lean ====
section
/-! DEFINITION. The command word (R90 to R96): the opcode table, the decoder, total on 32-bit words and
rejecting by name, and the encoder. -/

namespace Sys2Proof

/-! ## Fields (R90) -/

/-- `op = W[31:24]`. -/
def opField (w : Word) : Byte := w.extractLsb' 24 8

/-- `a = W[23:16]`. -/
def aField (w : Word) : Byte := w.extractLsb' 16 8

/-- `n = W[15:0]`. -/
def nField (w : Word) : Half := w.extractLsb' 0 16

/-- `{op, a, n}` put together again. -/
def packWord (op a : Byte) (n : Half) : Word := op ++ a ++ n

/-! ## Formats (R91) -/

/-- The four formats of R91. -/
inductive Format where
  | z | a | b | an
  deriving DecidableEq, Repr

/-- A row of R93: opcode, format, and the command its operand fields name. -/
structure OpcodeRow where
  op : Byte
  fmt : Format
  build : Byte → Half → Instr

/-- Why a word is no command (R94). -/
inductive IllegalWord where
  /-- `op` is none of the 31 listed values. -/
  | unlistedOp
  /-- `op` is listed, and a field its format does not use is not zero. -/
  | nonZeroField
  deriving DecidableEq, Repr

/-- What a word decodes to (R96): a command, or `ILLEGAL` with its reason. -/
inductive Decoded where
  | instr (i : Instr)
  | illegal (why : IllegalWord)
  deriving DecidableEq, Repr

/-- The mask column of R91. -/
def formatMask : Format → Word
  | .z => 0xFFFFFFFF#32
  | .a => 0xFF00FFFF#32
  | .b => 0xFFFEFFFF#32
  | .an => 0xFF000000#32

/-- The fields a format does not use are zero (R91). -/
def formatFits (f : Format) (a : Byte) (n : Half) : Bool :=
  match f with
  | .z => a == 0#8 && n == 0#16
  | .a => n == 0#16
  | .b => bitOperandOk a && n == 0#16
  | .an => true

/-- The opcode map of R93, control and bit I/O rows. -/
def opcodeRowsControlBitIO : List OpcodeRow :=
  [ { op := 0x00#8, fmt := .z, build := fun _ _ => .nop },
    { op := 0x01#8, fmt := .z, build := fun _ _ => .init },
    { op := 0x10#8, fmt := .z, build := fun _ _ => .openw },
    { op := 0x11#8, fmt := .b, build := fun a _ => .wrbit a },
    { op := 0x12#8, fmt := .a, build := fun a _ => .wrbyte a },
    { op := 0x13#8, fmt := .z, build := fun _ _ => .pending },
    { op := 0x14#8, fmt := .z, build := fun _ _ => .closew },
    { op := 0x18#8, fmt := .z, build := fun _ _ => .openr },
    { op := 0x19#8, fmt := .z, build := fun _ _ => .rdbit },
    { op := 0x1A#8, fmt := .z, build := fun _ _ => .rdbyte },
    { op := 0x1B#8, fmt := .z, build := fun _ _ => .iseof },
    { op := 0x1C#8, fmt := .z, build := fun _ _ => .closer },
    { op := 0x1D#8, fmt := .z, build := fun _ _ => .rewind } ]

/-- The opcode map of R93, trie builder and encoding table rows. -/
def opcodeRowsBuilderTable : List OpcodeRow :=
  [ { op := 0x20#8, fmt := .z, build := fun _ _ => .fclr },
    { op := 0x21#8, fmt := .an, build := fun a n => .fadd a n },
    { op := 0x22#8, fmt := .a, build := fun a _ => .fread a },
    { op := 0x23#8, fmt := .z, build := fun _ _ => .tally },
    { op := 0x24#8, fmt := .z, build := fun _ _ => .build },
    { op := 0x30#8, fmt := .z, build := fun _ _ => .mktab },
    { op := 0x31#8, fmt := .a, build := fun a _ => .lookup a },
    { op := 0x32#8, fmt := .a, build := fun a _ => .encsym a },
    { op := 0x33#8, fmt := .z, build := fun _ _ => .encode } ]

/-- The opcode map of R93, serializer, compressor and decompressor rows. -/
def opcodeRowsOrchestration : List OpcodeRow :=
  [ { op := 0x40#8, fmt := .z, build := fun _ _ => .sertree },
    { op := 0x41#8, fmt := .z, build := fun _ _ => .destree },
    { op := 0x50#8, fmt := .z, build := fun _ _ => .wrpad },
    { op := 0x51#8, fmt := .z, build := fun _ _ => .wrenc },
    { op := 0x52#8, fmt := .z, build := fun _ _ => .compress },
    { op := 0x58#8, fmt := .z, build := fun _ _ => .rdpad },
    { op := 0x59#8, fmt := .b, build := fun a _ => .decbit a },
    { op := 0x5A#8, fmt := .z, build := fun _ _ => .decode },
    { op := 0x5B#8, fmt := .z, build := fun _ _ => .decompress } ]

/-- The opcode map of R93, one row per command. -/
def opcodeTable : List OpcodeRow :=
  opcodeRowsControlBitIO ++ opcodeRowsBuilderTable ++ opcodeRowsOrchestration

/-! ## Decoder (R96) -/

/-- `Decode(W)` over the fields: the row whose `op` it is, if its unused fields are zero. By R91 that is the
row with `W & mask = match`. -/
def decodeFields (op a : Byte) (n : Half) : Decoded :=
  match opcodeTable.find? (fun r => r.op == op) with
  | none => .illegal .unlistedOp
  | some r => if formatFits r.fmt a n then .instr (r.build a n) else .illegal .nonZeroField

/-- `Decode(W)` (R96), total on 32-bit words. -/
def decode (w : Word) : Decoded := decodeFields (opField w) (aField w) (nField w)

/-- The instruction a word decodes to, none for an illegal word. -/
def decodedInstr : Decoded → Option Instr
  | .instr i => some i
  | .illegal _ => none

/-- The decoder on a row of spec/opcode_table.json: a command is one 32-bit word (R90), so bits above `nbits`
are 0 and a row longer than 32 bits is no command. -/
def decodeTableWord (nbits w : Nat) : Option Instr :=
  if nbits ≤ 32 then decodedInstr (decode (BitVec.ofNat 32 (w % 2 ^ nbits))) else none

/-! ## Encoder -/

/-- The `op` column of R93. -/
def opcode : Instr → Byte
  | .nop => 0x00#8
  | .init => 0x01#8
  | .openw => 0x10#8
  | .wrbit _ => 0x11#8
  | .wrbyte _ => 0x12#8
  | .pending => 0x13#8
  | .closew => 0x14#8
  | .openr => 0x18#8
  | .rdbit => 0x19#8
  | .rdbyte => 0x1A#8
  | .iseof => 0x1B#8
  | .closer => 0x1C#8
  | .rewind => 0x1D#8
  | .fclr => 0x20#8
  | .fadd _ _ => 0x21#8
  | .fread _ => 0x22#8
  | .tally => 0x23#8
  | .build => 0x24#8
  | .mktab => 0x30#8
  | .lookup _ => 0x31#8
  | .encsym _ => 0x32#8
  | .encode => 0x33#8
  | .sertree => 0x40#8
  | .destree => 0x41#8
  | .wrpad => 0x50#8
  | .wrenc => 0x51#8
  | .compress => 0x52#8
  | .rdpad => 0x58#8
  | .decbit _ => 0x59#8
  | .decode => 0x5A#8
  | .decompress => 0x5B#8

/-- The format column of R93. -/
def formatOf : Instr → Format
  | .wrbit _ | .decbit _ => .b
  | .wrbyte _ | .fread _ | .lookup _ | .encsym _ => .a
  | .fadd _ _ => .an
  | .nop | .init | .openw | .pending | .closew => .z
  | .openr | .rdbit | .rdbyte | .iseof | .closer | .rewind => .z
  | .fclr | .tally | .build | .mktab | .encode => .z
  | .sertree | .destree | .wrpad | .wrenc | .compress => .z
  | .rdpad | .decode | .decompress => .z

/-- The `a` operand field of a command (R92); 0 where the format does not use it. -/
def operandA : Instr → Byte
  | .wrbit a | .decbit a | .wrbyte a | .fread a | .lookup a | .encsym a | .fadd a _ => a
  | .nop | .init | .openw | .pending | .closew => 0#8
  | .openr | .rdbit | .rdbyte | .iseof | .closer | .rewind => 0#8
  | .fclr | .tally | .build | .mktab | .encode => 0#8
  | .sertree | .destree | .wrpad | .wrenc | .compress => 0#8
  | .rdpad | .decode | .decompress => 0#8

/-- The `n` operand field of a command (R92); 0 where the format does not use it. -/
def operandN : Instr → Half
  | .fadd _ n => n
  | .wrbit _ | .decbit _ | .wrbyte _ | .fread _ | .lookup _ | .encsym _ => 0#16
  | .nop | .init | .openw | .pending | .closew => 0#16
  | .openr | .rdbit | .rdbyte | .iseof | .closer | .rewind => 0#16
  | .fclr | .tally | .build | .mktab | .encode => 0#16
  | .sertree | .destree | .wrpad | .wrenc | .compress => 0#16
  | .rdpad | .decode | .decompress => 0#16

/-- The word of a command (R90 to R93). -/
def encode (i : Instr) : Word := packWord (opcode i) (operandA i) (operandN i)

/-! ## Pseudo-commands (R98) -/

/-- `FINC a` is `FADD a, 1`. -/
def pseudoFinc (a : Byte) : Instr := .fadd a 1#16

/-- `WR0` is `WRBIT 0`. -/
def pseudoWr0 : Instr := .wrbit 0#8

/-- `WR1` is `WRBIT 1`. -/
def pseudoWr1 : Instr := .wrbit 1#8

end Sys2Proof
end

