-- ==== Sys2Proof/Config.lean ====
section
/-! DEFINITION. What an implementation fixes (R8) and the values the spec leaves free (R157, R266). -/

namespace Sys2Proof.Config

/-- `LEN_MAX`: the largest input length in bytes that `OPENR` accepts (R8, D6). -/
def lenMax : Nat := 2 ^ 32 - 1

/-- The largest value of one `FW` = 32 bit frequency counter (R8, R29, D6). -/
def freqMax : Nat := 2 ^ 32 - 1

/-- `NODE_CAP`: the largest number of tree nodes the block holds (R8, D7). -/
def nodeCap : Nat := 511

/-- `CODE_MAXLEN`: the largest codeword length in bits (R9). -/
def codeMaxLen : Nat := 255

/-- `TIE_POLICY` (R8, R157). -/
inductive TiePolicy where
  /-- The normative rule: any entry of minimal frequency (log entry 4). -/
  | any
  /-- The named default: among entries of minimal frequency, the one inserted first. -/
  | fifo
  deriving DecidableEq, Repr

/-- The two parameters R8 leaves OPEN. They are an argument of the machine (92_eei_decisions.md): State holds
them and no step changes them, so a statement over every state holds for every choice. -/
structure Params where
  /-- `ENC_CAP`, the capacity of `ENC` in bits; 32 bits wide because `ENC_CAP` ≤ 2^32 - 1 (D8). -/
  encCap : Word
  /-- `TIE_POLICY` (D9). -/
  tiePolicy : TiePolicy
  deriving DecidableEq, Repr

/-- `ENC_CAP` at its stated default; the tie order left open as R157's normative rule has it (log entries 4, 5). -/
def defaultParams : Params := { encCap := BitVec.ofNat 32 (2 ^ 32 - 1), tiePolicy := .any }

/-- FREE VALUE `draw(1)` (R137, R266): the bit `ReadBit` returns at end of input, one for each draw
counted by `State.draws`. It has no body, so nothing can be proved of its value (log entry 3). -/
opaque drawBit : Nat → Bool

/-- FREE VALUE (R157): which of several entries of equal minimal frequency `RemoveMin` returns when
`TIE_POLICY` is `any`, one for each draw counted by `State.draws` (log entry 4). -/
opaque tieChoice : Nat → Nat

end Sys2Proof.Config
end

