-- ==== Sys2Proof/Machine/State.lean ====
section
/-! DEFINITION. Every piece of state the spec gives the block (R20), the two stores outside it with what the
environment will supply (R61, R75), the host's pending moves (R76), the reset values (R42), and the reasons a
step can stop. Plain data throughout. -/

namespace Sys2Proof.Machine

/-! ## Names -/

/-- `PHASE` (R22). Code 15 is never taken, so it has no constructor. -/
inductive Phase where
  | idle | opening | pass1 | build | table | pass2 | serialize | padding | payload | close
  | deserialize | rdpad | decode | bitio | misc
  deriving DecidableEq, Repr

/-- The errors of R250, codes 1 to 6. -/
inductive Err where
  | ioError | corruptFormat | unknownSymbol | emptyInput | capacity | illegalCommand
  deriving DecidableEq, Repr

/-- The sub-causes of R258, in the table's order. -/
inductive Sub where
  | inOpenFail | outOpenFail | inClosed | outClosed | inBroken | outBroken
  | eofTag | eofByte | rootLeaf | eofPad | padRange | noChild
  | noEntry
  | noSymbol
  | freqOverflow | inTooLong | treeTooBig | encFull
  | badWord | alreadyOpen | noTree | dupLeaf
  deriving DecidableEq, Repr

/-- What a `raise` carries (R256): the sub-cause, which fixes the error (R258), and the recorded byte. -/
structure Cause where
  sub : Sub
  datum : Byte
  deriving DecidableEq, Repr

/-! ## Tree, queue -/

/-- `Tree ::= Leaf(byte) | Internal(left, right)` (R12). -/
inductive HuffTree where
  | leaf (b : Byte)
  | internal (l r : HuffTree)
  deriving DecidableEq, Repr

/-- An entry of `PQ` (R37). -/
structure PQEntry where
  freq : BitVec 40
  seq : BitVec 9
  node : HuffTree
  deriving DecidableEq, Repr

/-! ## Stores and environment -/

/-- What the environment does to `IN` right before one `InFetch` (R75, R76): the answer for `IN.ok`, and a new
value of the byte about to be read where the host changes it (log entry 6). -/
structure InEvent where
  ok : Bool
  byte : Option Byte
  deriving DecidableEq, Repr

/-- The input store (R61); `IN.len` is the length of `data`. `plan` is what the environment supplies at the
coming accesses; when it is empty nothing changes any more. -/
structure InStore where
  present : Bool
  ok : Bool
  data : List Byte
  plan : List InEvent
  deriving DecidableEq, Repr

/-- The output store (R61); `OUT.len` is the length of `data`. `plan` holds the answers for `OUT.ok` at the
coming accesses (R75); when it is empty `ok` stands. -/
structure OutStore where
  creatable : Bool
  ok : Bool
  data : List Byte
  plan : List Bool
  deriving DecidableEq, Repr

/-- One move of the host (R76). -/
inductive HostOp where
  /-- Write a word to the register at a byte offset; a write to `CMD` issues a command (R39, R122). -/
  | write (offset : Nat) (w : Word)
  /-- Read the register at a byte offset (R40, R41). -/
  | read (offset : Nat)
  /-- Attach an input store, or change or break the attached one. -/
  | attachIn (st : InStore)
  /-- Attach an output store, or change or break the attached one. -/
  | attachOut (st : OutStore)
  /-- Hardware reset (R290). -/
  | reset
  deriving DecidableEq, Repr

/-! ## The machine -/

/-- `FREQ[0..255]` (R29). -/
abbrev FreqTable := Vector Word 256

/-- `CODE[0..255]` (R31): `none` is `valid = 0`, `some c` is `valid = 1` with `bits = c`, `len = len(c)`. -/
abbrev CodeTable := Vector (Option Bits) 256

/-- The block (R20), then what stands outside it. -/
structure State where
  /-- `ERR[3:0]`; bits 31:4 read 0 (R26). -/
  err : BitVec 4
  /-- `ERRINFO` = `{DATUM, OP, PHASE, SUB}` (R27). -/
  errinfo : Word
  /-- `RESULT` (R23). -/
  result : Word
  /-- `CLEN[7:0]`; bits 31:8 read 0 (R23). -/
  clen : BitVec 8
  /-- The 256-bit value `V` that `CBITS0` to `CBITS7` show, `CBITS0` its top word (R23). -/
  cbits : BitVec 256
  /-- `PAD[2:0]` (R28). -/
  pad : BitVec 3
  /-- `TREEBITS[11:0]` (R28). -/
  treebits : BitVec 12
  /-- `NNODES[8:0]` (R28). -/
  nnodes : BitVec 9
  /-- `PHASE` (R22). -/
  phase : Phase
  /-- `BW.buf` (R33). -/
  bwBuf : BitVec 8
  /-- `BW.cnt` (R33). -/
  bwCnt : BitVec 3
  /-- `BR.buf` (R34). -/
  brBuf : BitVec 8
  /-- `BR.avail`, 0 to 8 (R34). -/
  brAvail : Fin 9
  /-- `BR.eof` (R24, R34). -/
  brEof : Bool
  /-- `IN.open` (R35). -/
  inOpen : Bool
  /-- `IN.pos` (R35). -/
  inPos : Word
  /-- `OUT.open` (R36). -/
  outOpen : Bool
  /-- `FREQ` (R29). -/
  freq : FreqTable
  /-- `TREE` (R30). -/
  tree : Option HuffTree
  /-- `CODE` (R31). -/
  code : CodeTable
  /-- `TAB.valid` (R24). -/
  tabValid : Bool
  /-- `ENC` (R32). -/
  enc : Bits
  /-- `PTR` (R38): the bits taken from the root, `some []` the root itself. -/
  ptr : Option Bits
  /-- `PQ` (R37). -/
  pq : List PQEntry
  /-- The store bound as `IN` (R61): outside the block. -/
  inStore : InStore
  /-- The store bound as `OUT` (R61): outside the block. -/
  outStore : OutStore
  /-- The OPEN parameters (R8): no step changes them. -/
  cfg : Config.Params
  /-- MODEL'S OWN: how many free values have been drawn (R266, log entry 3). -/
  draws : Nat
  /-- MODEL'S OWN, the host's side: the moves the host will make, first one first (log entry 1). -/
  host : List HostOp
  /-- MODEL'S OWN, the host's side: the value its last register read returned (log entry 12). -/
  rdata : Word
  deriving DecidableEq, Repr

/-- Nothing stops this block with a fault: every error of the spec is taken by fault entry, which is a next
state (R256), and no command hangs (R269). The type has no constructor. -/
inductive Fault where
  deriving DecidableEq, Repr

/-- Why a step has no meaning. -/
inductive Refusal where
  /-- Raised by an arm of `exec` that has no meaning yet; safe. No arm is left. -/
  | notModelled (mnemonic : String)
  /-- Raised by `hostStep` when the host breaks its duty of R76 and R301 in a way no rule gives a meaning to: it
  binds another input store under an open reader whose cursor lies beyond the new store's end, or changes
  the bytes of the output store under an open writer; safe (log entry 7). -/
  | hostDuty
  deriving DecidableEq, Repr

/-- The block after hardware reset (R42), beside the stores and the host's moves as nothing has set them yet:
an empty, present, healthy input; an empty, creatable, healthy output; no move pending (log entries 1, 2). -/
def State.reset : State :=
  { err := 0#4, errinfo := 0#32, result := 0#32, clen := 0#8, cbits := 0#256, pad := 0#3, treebits := 0#12
    nnodes := 0#9
    phase := .idle
    bwBuf := 0#8, bwCnt := 0#3
    brBuf := 0#8, brAvail := 0, brEof := false
    inOpen := false, inPos := 0#32, outOpen := false
    freq := Vector.replicate 256 0#32
    tree := none
    code := Vector.replicate 256 none
    tabValid := false
    enc := []
    ptr := none
    pq := []
    inStore := { present := true, ok := true, data := [], plan := [] }
    outStore := { creatable := true, ok := true, data := [], plan := [] }
    cfg := Config.defaultParams
    draws := 0
    host := []
    rdata := 0#32 }

end Sys2Proof.Machine
end

