-- ==== Sys2Proof/Machine/Operands.lean ====
section
/-! DEFINITION. Operand assembly (R92), bit fields, bit order (R10, R66), and access to the two tables by a byte
index (R29, R31). -/

namespace Sys2Proof.Machine

/-! ## Operands (R92) -/

/-- Format B: the operand is the bit `a[0]`. -/
def bitOperand (a : Byte) : Bool := a.getLsbD 0

/-- Format AN: `zext_32(n)`. -/
def countOperand (n : Half) : Word := n.setWidth 32

/-- `zext_32` of one bit. -/
def zextBit (b : Bool) : Word := (BitVec.ofBool b).setWidth 32

/-! ## Bits and bytes (R66) -/

/-- `v[k] <- b`. -/
def setBit (v : BitVec 8) (k : Nat) (b : Bool) : BitVec 8 :=
  (v &&& ~~~((1#8) <<< k)) ||| (((BitVec.ofBool b).setWidth 8) <<< k)

/-- `bits8(v)` (R101): `v[7]` first, `v[0]` last. -/
def byteBits (v : Byte) : Bits :=
  [v.getLsbD 7, v.getLsbD 6, v.getLsbD 5, v.getLsbD 4, v.getLsbD 3, v.getLsbD 2, v.getLsbD 1, v.getLsbD 0]

/-- The number a bit sequence writes, first bit most significant. -/
def bitsNat (bs : Bits) : Nat := bs.foldl (fun acc b => 2 * acc + b.toNat) 0

/-- The byte whose bits, `v[7]` first, are the given eight (R138). -/
def byteOfBits (bs : Bits) : Byte := BitVec.ofNat 8 (bitsNat bs)

/-- The 256-bit `V` of R23: the codeword left-aligned, every other bit 0. -/
def codewordValue (c : Bits) : BitVec 256 := BitVec.ofNat 256 (bitsNat c * 2 ^ (256 - c.length))

/-- `CBITSk = V[255 - 32k : 224 - 32k]` (R23). -/
def cbitsWord (v : BitVec 256) (k : Nat) : Word := v.extractLsb' (224 - 32 * k) 32

/-! ## Tables indexed by a byte (R60) -/

/-- Slot `b` of a 256-slot table. -/
def slotGet {α : Type} (t : Vector α 256) (b : Byte) : α := t[b.toNat]'(b.isLt)

/-- The table with slot `b` written. -/
def slotSet {α : Type} (t : Vector α 256) (b : Byte) (x : α) : Vector α 256 := t.set b.toNat x b.isLt

/-- Every counter 0. -/
def emptyFreq : FreqTable := Vector.replicate 256 0#32

/-- Every entry invalid. -/
def emptyCode : CodeTable := Vector.replicate 256 none

end Sys2Proof.Machine
end

