-- ==== Sys2Proof/Machine/Flags.lean ====
section
/-! DEFINITION. The status flags (R24), `STATUS` (R25), the counters that are views (R28, R32), and the register map
the host reads (R40, R41). -/

namespace Sys2Proof.Machine

/-- The flag `ERR ≠ 0`: a fault is pending (R24). -/
def faultPending (s : State) : Bool := s.err != 0#4

/-- The flag `TREE.valid` (R24). -/
def treeValid (s : State) : Bool := s.tree.isSome

/-- `STATUS` (R25). Bit 0, `BUSY`, reads 0 because a command is atomic for the host (log entry 11). -/
def statusWord (s : State) : Word :=
  (BitVec.ofBool s.brEof ++ BitVec.ofBool s.tabValid ++ BitVec.ofBool (treeValid s) ++ BitVec.ofBool s.outOpen ++
    BitVec.ofBool s.inOpen ++ BitVec.ofBool (faultPending s) ++ 0#1).setWidth 32

/-- `ENCLEN` = `len(ENC)` (R28, R32). -/
def encLen (s : State) : Word := BitVec.ofNat 32 s.enc.length

/-- The register map of R40: the value a host read of the register at a byte offset returns. `CMD` and every
offset not listed read 0. -/
def regRead (offset : Nat) (s : State) : Word :=
  match offset with
  | 0x04 => statusWord s
  | 0x08 => s.err.setWidth 32
  | 0x0C => s.errinfo
  | 0x10 => s.result
  | 0x14 => s.clen.setWidth 32
  | 0x20 => cbitsWord s.cbits 0
  | 0x24 => cbitsWord s.cbits 1
  | 0x28 => cbitsWord s.cbits 2
  | 0x2C => cbitsWord s.cbits 3
  | 0x30 => cbitsWord s.cbits 4
  | 0x34 => cbitsWord s.cbits 5
  | 0x38 => cbitsWord s.cbits 6
  | 0x3C => cbitsWord s.cbits 7
  | 0x40 => s.pad.setWidth 32
  | 0x44 => s.treebits.setWidth 32
  | 0x48 => encLen s
  | 0x4C => s.nnodes.setWidth 32
  | _ => 0#32

end Sys2Proof.Machine
end

