-- ==== Sys2Proof/Machine/Ops.lean ====
section
/-! DEFINITION. The shared operations: codes (R22, R250, R258), trees (R12), the environment's answers (R75), the two
store accesses (R64, R65), reset of the block (R42), and fault entry (R256) with the frame every command
runs in (R122). -/

namespace Sys2Proof.Machine

/-- A micro-operation: it ends with a value, or raises a cause; either way with the state it reached (R11, R256:
effects written before a `raise` stand). -/
abbrev Micro := EStateM Cause State

/-! ## Codes -/

/-- The codes of R22. -/
def phaseCode : Phase → BitVec 4
  | .idle => 0#4
  | .opening => 1#4
  | .pass1 => 2#4
  | .build => 3#4
  | .table => 4#4
  | .pass2 => 5#4
  | .serialize => 6#4
  | .padding => 7#4
  | .payload => 8#4
  | .close => 9#4
  | .deserialize => 10#4
  | .rdpad => 11#4
  | .decode => 12#4
  | .bitio => 13#4
  | .misc => 14#4

/-- The phase a command starts in (the last column of R22's table). -/
def phaseOf : Instr → Phase
  | .nop | .init | .compress | .decompress => .idle
  | .openw | .openr => .opening
  | .tally => .pass1
  | .build => .build
  | .mktab | .lookup _ => .table
  | .encsym _ | .encode => .pass2
  | .sertree => .serialize
  | .wrpad => .padding
  | .wrenc => .payload
  | .closew | .closer => .close
  | .destree => .deserialize
  | .rdpad => .rdpad
  | .decbit _ | .decode => .decode
  | .wrbit _ | .wrbyte _ | .pending | .rdbit | .rdbyte | .iseof | .rewind => .bitio
  | .fclr | .fadd _ _ | .fread _ => .misc

/-- The codes of R250. -/
def errCode : Err → BitVec 4
  | .ioError => 1#4
  | .corruptFormat => 2#4
  | .unknownSymbol => 3#4
  | .emptyInput => 4#4
  | .capacity => 5#4
  | .illegalCommand => 6#4

/-- The `SUB` column of R258. -/
def subCode : Sub → Byte
  | .inOpenFail => 0x01#8
  | .outOpenFail => 0x02#8
  | .inClosed => 0x03#8
  | .outClosed => 0x04#8
  | .inBroken => 0x05#8
  | .outBroken => 0x06#8
  | .eofTag => 0x10#8
  | .eofByte => 0x11#8
  | .rootLeaf => 0x12#8
  | .eofPad => 0x13#8
  | .padRange => 0x14#8
  | .noChild => 0x15#8
  | .noEntry => 0x20#8
  | .noSymbol => 0x30#8
  | .freqOverflow => 0x40#8
  | .inTooLong => 0x41#8
  | .treeTooBig => 0x42#8
  | .encFull => 0x43#8
  | .badWord => 0x50#8
  | .alreadyOpen => 0x51#8
  | .noTree => 0x52#8
  | .dupLeaf => 0x53#8

/-- The `error` column of R258. -/
def subErr : Sub → Err
  | .inOpenFail | .outOpenFail | .inClosed | .outClosed | .inBroken | .outBroken => .ioError
  | .eofTag | .eofByte | .rootLeaf | .eofPad | .padRange | .noChild => .corruptFormat
  | .noEntry => .unknownSymbol
  | .noSymbol => .emptyInput
  | .freqOverflow | .inTooLong | .treeTooBig | .encFull => .capacity
  | .badWord | .alreadyOpen | .noTree | .dupLeaf => .illegalCommand

/-- `raise E(sub, datum)` inside a micro-operation (R11): nothing after it happens. -/
def raiseErr {α : Type} (sub : Sub) (datum : Byte := 0#8) : Micro α := fun s => .error ⟨sub, datum⟩ s

/-! ## Trees (R12) -/

/-- `nodes(T)`. -/
def treeNodes : HuffTree → Nat
  | .leaf _ => 1
  | .internal l r => treeNodes l + treeNodes r + 1

/-- `leaves(T)`. -/
def treeLeaves : HuffTree → Nat
  | .leaf _ => 1
  | .internal l r => treeLeaves l + treeLeaves r

/-- `depth(T)`. -/
def treeDepth : HuffTree → Nat
  | .leaf _ => 0
  | .internal l r => 1 + max (treeDepth l) (treeDepth r)

/-- The leaf values in pre-order. -/
def leafBytes : HuffTree → List Byte
  | .leaf b => [b]
  | .internal l r => leafBytes l ++ leafBytes r

/-- `T` is an `Internal` node. -/
def isInternal : HuffTree → Bool
  | .leaf _ => false
  | .internal _ _ => true

/-- The node a path from the root designates, left on 0 and right on 1 (R38, R104). -/
def nodeAt : HuffTree → Bits → Option HuffTree
  | t, [] => some t
  | .leaf _, _ :: _ => none
  | .internal l r, b :: bs => if b then nodeAt r bs else nodeAt l bs

/-! ## The environment's answers (R75, R76) -/

/-- `IN` as it stands when the access at index `i` looks at it: the environment first supplies `IN.ok` and may
change the byte there. -/
def inAsk (st : InStore) (i : Nat) : InStore :=
  match st.plan with
  | [] => st
  | e :: rest =>
    { st with
      ok := e.ok
      data := match e.byte with
        | none => st.data
        | some v => st.data.set i v
      plan := rest }

/-- `OUT` as it stands when an access looks at it: the environment first supplies `OUT.ok`. -/
def outAsk (st : OutStore) : OutStore :=
  match st.plan with
  | [] => st
  | ok :: rest => { st with ok := ok, plan := rest }

/-- `IN.len` (R61). -/
def inLen (s : State) : Nat := s.inStore.data.length

/-- `MemRead(IN, i, 1)` (R62). Every caller has `i < IN.len`. -/
def memRead (st : InStore) (i : Nat) : Byte := st.data.getD i 0#8

/-- `MemWrite(OUT, OUT.len, 1, v)` (R63). -/
def memAppend (st : OutStore) (v : Byte) : OutStore := { st with data := st.data ++ [v] }

/-! ## Store accesses -/

/-- `InFetch()` (R64). -/
def inFetch : Micro Byte := fun s =>
  let st := inAsk s.inStore s.inPos.toNat
  if st.ok then .ok (memRead st s.inPos.toNat) { s with inStore := st, inPos := s.inPos + 1#32 }
  else .error ⟨.inBroken, 0#8⟩ { s with inStore := st }

/-- `OutAppend(v)` (R65). -/
def outAppend (v : Byte) : Micro Unit := fun s =>
  let st := outAsk s.outStore
  if st.ok then .ok () { s with outStore := memAppend st v }
  else .error ⟨.outBroken, 0#8⟩ { s with outStore := st }

/-! ## Reset of the block (R42) -/

/-- Every element of R42 at its reset value. The stores, the parameters, the host's moves and the count of draws
are no state of the block and stay (R121, R290). -/
def resetBlock (s : State) : State :=
  { State.reset with
    inStore := s.inStore, outStore := s.outStore, cfg := s.cfg, draws := s.draws, host := s.host, rdata := s.rdata }

/-! ## Shared updates -/

/-- `PHASE <- p`. -/
def setPhase (p : Phase) (s : State) : State := { s with phase := p }

/-- `RESULT <- v`. -/
def setResult (v : Word) (s : State) : State := { s with result := v }

/-- `BW.buf <- 0 ; BW.cnt <- 0`. -/
def clearWriter (s : State) : State := { s with bwBuf := 0#8, bwCnt := 0#3 }

/-- `IN.pos <- 0 ; BR.buf <- 0 ; BR.avail <- 0 ; BR.eof <- 0` (R140, R145). -/
def restartReader (s : State) : State := { s with inPos := 0#32, brBuf := 0#8, brAvail := 0, brEof := false }

/-- Every `CODE[b].valid <- 0 ; TAB.valid <- 0`. -/
def clearTable (s : State) : State := { s with code := emptyCode, tabValid := false }

/-- `TREE <- none ; PTR <- none ; NNODES <- 0` and the table cleared (the start of R156 and R193). -/
def dropTree (s : State) : State := clearTable { s with tree := none, ptr := none, nnodes := 0#9 }

/-- `PQ <- q`. -/
def setQueue (q : List PQEntry) (s : State) : State := { s with pq := q }

/-! ## Fault entry (R256) -/

/-- The writer's scoped release inside fault entry: a pending partial byte is written zero-filled unless the
fault is `OUT_BROKEN` itself or the store is not healthy, which is swallowed (R261). -/
def releaseFlush (sub : Sub) (s : State) : State :=
  if s.bwCnt ≠ 0#3 ∧ sub ≠ .outBroken then
    let st := outAsk s.outStore
    { s with outStore := if st.ok then memAppend st s.bwBuf else st }
  else s

/-- `BW.buf <- 0 ; BW.cnt <- 0 ; OUT.open <- 0`. -/
def closeWriter (s : State) : State := { s with bwBuf := 0#8, bwCnt := 0#3, outOpen := false }

/-- `IN.open <- 0 ; PQ <- empty ; PHASE <- IDLE`, the last lines of R256. -/
def endFault (s : State) : State := { s with inOpen := false, pq := [], phase := .idle }

/-- `raise E(sub, datum)` (R256): `ERR` and `ERRINFO` record the fault, `OP` being the opcode of the host's command;
both handles are released; nothing else changes. -/
def faultEntry (op : Byte) (c : Cause) (s : State) : State :=
  let s1 := { s with
    err := errCode (subErr c.sub)
    errinfo := c.datum ++ op ++ (phaseCode s.phase).setWidth 8 ++ subCode c.sub }
  endFault (if s1.outOpen then closeWriter (releaseFlush c.sub s1) else s1)

/-- Return from a fault is `INIT` or hardware reset and restores nothing: it clears `ERR`, `ERRINFO` and all other
state of the block (R260). -/
def faultReturn (s : State) : State := resetBlock s

/-! ## The frame of a command (R122) -/

/-- `PHASE <- the phase of the command; run its rule; PHASE <- IDLE`, with fault entry when the rule raises. -/
def runCommand (i : Instr) (body : Micro Unit) (s : State) : Host.Outcome State Fault Refusal :=
  match body (setPhase (phaseOf i) s) with
  | .ok _ s' => .next (setPhase .idle s')
  | .error c s' => .next (faultEntry (opcode i) c s')

/-- A micro-operation that changes the state and cannot raise. -/
def change (f : State → State) : Micro Unit := fun s => .ok () (f s)

/-- A micro-operation that reads the state. -/
def look {α : Type} (f : State → α) : Micro α := fun s => .ok (f s) s

end Sys2Proof.Machine
end

