-- ==== Sys2Proof/Machine/Control.lean ====
section
/-! DEFINITION. The control commands (40_control.md). The issue rule R122 stands in Machine/Issue.lean. -/

namespace Sys2Proof.Machine

/-- `NOP` (R120): nothing. -/
def execNop (s : State) : Host.Outcome State Fault Refusal := runCommand .nop (pure ()) s

/-- `INIT` (R121): every element of R42 at its reset value; pending bits are dropped, the stores are untouched. -/
def execInit (s : State) : Host.Outcome State Fault Refusal := runCommand .init (change faultReturn) s

end Sys2Proof.Machine
end

