-- ==== Sys2Proof/Machine/BitIO.lean ====
section
/-! DEFINITION. Bit I/O (41_bit_io.md): the bit writer and the bit reader, and their eleven commands. -/

namespace Sys2Proof.Machine

/-! ## Writer micro-operations -/

/-- `WriteBit(b)` (R131). -/
def writeBit (b : Bool) : Micro Unit := fun s =>
  if s.outOpen = false then .error ⟨.outClosed, 0#8⟩ s
  else
    let s1 := { s with bwBuf := setBit s.bwBuf (7 - s.bwCnt.toNat) b }
    if s.bwCnt.toNat < 7 then .ok () { s1 with bwCnt := s.bwCnt + 1#3 }
    else
      match outAppend s1.bwBuf s1 with
      | .ok _ s2 => .ok () (clearWriter s2)
      | .error c s2 => .error c s2

/-- A `WriteBit` for each bit of a sequence, in order. -/
def writeBits : Bits → Micro Unit
  | [] => pure ()
  | b :: bs => do
    writeBit b
    writeBits bs

/-- `WriteByte(v)` (R132). -/
def writeByte (v : Byte) : Micro Unit := writeBits (byteBits v)

/-- `FlushW()` (R146). -/
def flushW : Micro Unit := fun s =>
  if s.bwCnt ≠ 0#3 then
    match outAppend s.bwBuf s with
    | .ok _ s1 => .ok () (clearWriter s1)
    | .error c s1 => .error c s1
  else .ok () s

/-! ## Reader micro-operations -/

/-- The bit `BR.buf[BR.avail - 1]`, taken (the last three lines of R137). -/
def takeBit : Micro Bool := fun s =>
  .ok (s.brBuf.getLsbD (s.brAvail.val - 1)) { s with brAvail := ⟨s.brAvail.val - 1, by omega⟩ }

/-- `ReadBit()` (R137). At end of input the bit is a draw. -/
def readBit : Micro Bool := fun s =>
  if s.inOpen = false then .error ⟨.inClosed, 0#8⟩ s
  else if s.brAvail.val = 0 then
    if s.inPos.toNat < inLen s then
      match inFetch s with
      | .ok v s1 => takeBit { s1 with brBuf := v, brAvail := 8 }
      | .error c s1 => .error c s1
    else .ok (Config.drawBit s.draws) { s with brEof := true, draws := s.draws + 1 }
  else takeBit s

/-- So many `ReadBit`s, the bits in order. -/
def readBits : Nat → Micro Bits
  | 0 => pure []
  | n + 1 => do
    let b ← readBit
    let bs ← readBits n
    pure (b :: bs)

/-- `ReadByte()` (R138). -/
def readByte : Micro Byte := do
  let bs ← readBits 8
  pure (byteOfBits bs)

/-! ## Bodies shared with the macro commands -/

/-- The body of `OPENW` (R133). -/
def openW : Micro Unit := fun s =>
  if s.outOpen then .error ⟨.alreadyOpen, 0#8⟩ s
  else if s.outStore.creatable = false then .error ⟨.outOpenFail, 0#8⟩ s
  else .ok () (clearWriter { s with outStore := { s.outStore with data := [] }, outOpen := true })

/-- The body of `OPENR` (R140). -/
def openR : Micro Unit := fun s =>
  if s.inOpen then .error ⟨.alreadyOpen, 0#8⟩ s
  else if s.inStore.present = false then .error ⟨.inOpenFail, 0#8⟩ s
  else if Config.lenMax < inLen s then .error ⟨.inTooLong, 0#8⟩ s
  else .ok () (restartReader { s with inOpen := true })

/-- The body of `CLOSEW` (R139). -/
def closeW : Micro Unit := fun s =>
  if s.outOpen = false then .error ⟨.outClosed, 0#8⟩ s
  else
    match flushW s with
    | .ok _ s1 => .ok () { s1 with outOpen := false }
    | .error c s1 => .error c s1

/-- The body of `CLOSER` (R144). -/
def closeR : Micro Unit := fun s =>
  if s.inOpen = false then .error ⟨.inClosed, 0#8⟩ s else .ok () { s with inOpen := false }

/-- The body of `REWIND` (R145). -/
def rewindR : Micro Unit := fun s =>
  if s.inOpen = false then .error ⟨.inClosed, 0#8⟩ s else .ok () (restartReader s)

/-! ## Commands -/

/-- `OPENW` (R133). -/
def execOpenw (s : State) : Host.Outcome State Fault Refusal := runCommand .openw openW s

/-- `WRBIT b` (R134). -/
def execWrbit (a : Byte) (s : State) : Host.Outcome State Fault Refusal :=
  runCommand (.wrbit a) (writeBit (bitOperand a)) s

/-- `WRBYTE v` (R135). -/
def execWrbyte (a : Byte) (s : State) : Host.Outcome State Fault Refusal :=
  runCommand (.wrbyte a) (writeByte a) s

/-- `PENDING` (R136). -/
def execPending (s : State) : Host.Outcome State Fault Refusal :=
  runCommand .pending (change fun s => setResult (s.bwCnt.setWidth 32) s) s

/-- `CLOSEW` (R139). -/
def execClosew (s : State) : Host.Outcome State Fault Refusal := runCommand .closew closeW s

/-- `OPENR` (R140). -/
def execOpenr (s : State) : Host.Outcome State Fault Refusal := runCommand .openr openR s

/-- `RDBIT` (R141). -/
def execRdbit (s : State) : Host.Outcome State Fault Refusal :=
  runCommand .rdbit (do
    let b ← readBit
    change (setResult (zextBit b))) s

/-- `RDBYTE` (R142). -/
def execRdbyte (s : State) : Host.Outcome State Fault Refusal :=
  runCommand .rdbyte (do
    let v ← readByte
    change (setResult (v.setWidth 32))) s

/-- `ISEOF` (R143). -/
def execIseof (s : State) : Host.Outcome State Fault Refusal :=
  runCommand .iseof (change fun s => setResult (zextBit s.brEof) s) s

/-- `CLOSER` (R144). -/
def execCloser (s : State) : Host.Outcome State Fault Refusal := runCommand .closer closeR s

/-- `REWIND` (R145). -/
def execRewind (s : State) : Host.Outcome State Fault Refusal := runCommand .rewind rewindR s

end Sys2Proof.Machine
end

