-- ==== Sys2Proof/Machine/TrieBuilder.lean ====
section
/-! DEFINITION. Trie builder (42_trie_builder.md): the frequency table and the greedy node merger. -/

namespace Sys2Proof.Machine

/-! ## Frequency table -/

/-- `FREQ[s] <- FREQ[s] + n`, refused when the sum does not fit 32 bits (R152). -/
def freqAdd (b : Byte) (n : Word) : Micro Unit := fun s =>
  if Config.freqMax < (slotGet s.freq b).toNat + n.toNat then .error ⟨.freqOverflow, b⟩ s
  else .ok () { s with freq := slotSet s.freq b (slotGet s.freq b + n) }

/-- The loop of `Tally()` (R154), with a bound on its turns. -/
def tallyLoop : Nat → Micro Unit
  | 0 => pure ()
  | n + 1 => do
    let v ← readByte
    let eof ← look State.brEof
    if eof then pure ()
    else do
      freqAdd v 1#32
      tallyLoop n

/-- More turns than a loop of `ReadByte`s to the end of the store can take: the bytes not yet fetched, the byte in
`BR.buf`, and the turn that meets the end (R154, R269, log entry 14). -/
def readTurns (s : State) : Nat := inLen s - s.inPos.toNat + 2

/-- `Tally()` (R154). -/
def tally : Micro Unit := fun s => tallyLoop (readTurns s) s

/-! ## Priority queue (R37, R157) -/

/-- One leaf entry for each non-zero slot, in ascending byte value: `b` is the slot at the head of the list, `q` the
next insertion number (R156). -/
def leafEntries : List Word → Nat → Nat → List PQEntry
  | [], _, _ => []
  | f :: fs, b, q =>
    if f = 0#32 then leafEntries fs (b + 1) q
    else
      { freq := f.setWidth 40, seq := BitVec.ofNat 9 q, node := .leaf (BitVec.ofNat 8 b) } ::
        leafEntries fs (b + 1) (q + 1)

/-- The smallest frequency of a queue that begins with `e`. -/
def leastFreq (e : PQEntry) (es : List PQEntry) : BitVec 40 :=
  es.foldl (fun m x => if x.freq < m then x.freq else m) e.freq

/-- The entries of minimal frequency. -/
def leastEntries : List PQEntry → List PQEntry
  | [] => []
  | e :: es => (e :: es).filter (fun x => x.freq == leastFreq e es)

/-- The entry inserted first (the default of R157). -/
def oldestEntry (e : PQEntry) (es : List PQEntry) : PQEntry :=
  es.foldl (fun m x => if x.seq < m.seq then x else m) e

/-- The entry `RemoveMin` takes, and whether a free value was drawn to take it (R157): with one entry of minimal
frequency that one; with several, by `TIE_POLICY`. -/
def pickMin (policy : Config.TiePolicy) (draws : Nat) (q : List PQEntry) : Option (PQEntry × Nat) :=
  match leastEntries q with
  | [] => none
  | [e] => some (e, draws)
  | e :: e' :: es =>
    match policy with
    | .fifo => some (oldestEntry e (e' :: es), draws)
    | .any =>
      some ((e :: e' :: es).getD (Config.tieChoice draws % (es.length + 2)) e, draws + 1)

/-- `RemoveMin(PQ)` (R157); `none` on an empty queue. -/
def removeMin (s : State) : Option (PQEntry × State) :=
  match pickMin s.cfg.tiePolicy s.draws s.pq with
  | none => none
  | some (e, d) => some (e, { s with pq := s.pq.erase e, draws := d })

/-- One turn of the merge loop of R156: the first removed becomes `left`, the second `right`, the frequency the
sum, the insertion number `q`. `none` when fewer than two entries are left. -/
def mergeOnce (q : Nat) (s : State) : Option State :=
  if 1 < s.pq.length then
    match removeMin s with
    | none => none
    | some (x, s1) =>
      match removeMin s1 with
      | none => none
      | some (y, s2) =>
        some { s2 with
          pq := s2.pq ++
            [{ freq := x.freq + y.freq, seq := BitVec.ofNat 9 q, node := .internal x.node y.node }] }
  else none

/-- The loop `while PQ has more than one entry` (R156), with a bound on its turns: each turn leaves one entry
fewer. -/
def mergeLoop : Nat → Nat → State → State
  | 0, _, s => s
  | n + 1, q, s =>
    match mergeOnce q s with
    | none => s
    | some s' => mergeLoop n (q + 1) s'

/-- R158: a bare leaf gets a root with `left = Leaf(b)`, `right = Leaf((b + 1) mod 256)`. -/
def rootOf : HuffTree → HuffTree
  | .leaf b => .internal (.leaf b) (.leaf (b + 1#8))
  | .internal l r => .internal l r

/-- The queue before the first merge (R156). -/
def startQueue (s : State) : List PQEntry := leafEntries s.freq.toList 0 0

/-- `Build()` (R156). An empty queue stays empty in the loop, so the one test for it stands after the loop. -/
def buildTree : Micro Unit := fun s =>
  let q := startQueue s
  let s1 := mergeLoop q.length q.length (setQueue q (dropTree s))
  match s1.pq with
  | [] => .error ⟨.noSymbol, 0#8⟩ s1
  | e :: _ =>
    let r := rootOf e.node
    .ok () { s1 with pq := [], tree := some r, ptr := some [], nnodes := BitVec.ofNat 9 (treeNodes r) }

/-! ## Commands -/

/-- `FCLR` (R151). -/
def execFclr (s : State) : Host.Outcome State Fault Refusal :=
  runCommand .fclr (change fun s => { s with freq := emptyFreq }) s

/-- `FADD s, n` (R152). -/
def execFadd (a : Byte) (n : Half) (s : State) : Host.Outcome State Fault Refusal :=
  runCommand (.fadd a n) (freqAdd a (countOperand n)) s

/-- `FREAD s` (R153). -/
def execFread (a : Byte) (s : State) : Host.Outcome State Fault Refusal :=
  runCommand (.fread a) (change fun s => setResult (slotGet s.freq a) s) s

/-- `TALLY` (R155). -/
def execTally (s : State) : Host.Outcome State Fault Refusal := runCommand .tally tally s

/-- `BUILD` (R160). -/
def execBuild (s : State) : Host.Outcome State Fault Refusal := runCommand .build buildTree s

end Sys2Proof.Machine
end

