-- ==== Sys2Proof/Machine/EncodingTable.lean ====
section
/-! DEFINITION. Encoding table and pass 2 (43_encoding_table.md). -/

namespace Sys2Proof.Machine

/-- `Walk` (R171): depth first, left before right, each leaf's path recorded. -/
def walk : HuffTree → Bits → CodeTable → CodeTable
  | .leaf v, path, c => slotSet c v (some path)
  | .internal l r, path, c => walk r (path ++ [true]) (walk l (path ++ [false]) c)

/-- The byte of the first leaf, in pre-order, that repeats an earlier one (R171). -/
def firstRepeat (seen : List Byte) : List Byte → Option Byte
  | [] => none
  | v :: vs => if v ∈ seen then some v else firstRepeat (v :: seen) vs

/-- `MkTab()` (R171). -/
def mkTab : Micro Unit := fun s =>
  match s.tree with
  | none => .error ⟨.noTree, 0#8⟩ s
  | some t =>
    let s1 := clearTable s
    match firstRepeat [] (leafBytes t) with
    | some v => .error ⟨.dupLeaf, v⟩ s1
    | none => .ok () { s1 with code := walk t [] s1.code, tabValid := true }

/-- `Lookup(v)` (R173). -/
def lookupCode (v : Byte) : Micro Bits := fun s =>
  match slotGet s.code v with
  | none => .error ⟨.noEntry, v⟩ s
  | some c => .ok c s

/-- `EncSym(v)` (R175). -/
def encSym (v : Byte) : Micro Unit := do
  let c ← lookupCode v
  let room ← look (fun s => decide (s.enc.length + c.length ≤ s.cfg.encCap.toNat))
  if room then change (fun s => { s with enc := s.enc ++ c }) else raiseErr .encFull

/-- The loop of `Encode()` (R177), with a bound on its turns. -/
def encodeLoop : Nat → Micro Unit
  | 0 => pure ()
  | n + 1 => do
    let v ← readByte
    let eof ← look State.brEof
    if eof then pure ()
    else do
      encSym v
      encodeLoop n

/-- `Encode()` (R177). -/
def encodeInput : Micro Unit := fun s => encodeLoop (readTurns s) s

/-! ## Commands -/

/-- `MKTAB` (R172). -/
def execMktab (s : State) : Host.Outcome State Fault Refusal := runCommand .mktab mkTab s

/-- `LOOKUP v` (R174). -/
def execLookup (a : Byte) (s : State) : Host.Outcome State Fault Refusal :=
  runCommand (.lookup a) (do
    let c ← lookupCode a
    change fun s =>
      { s with clen := BitVec.ofNat 8 c.length, cbits := codewordValue c, result := BitVec.ofNat 32 c.length }) s

/-- `ENCSYM v` (R176). -/
def execEncsym (a : Byte) (s : State) : Host.Outcome State Fault Refusal := runCommand (.encsym a) (encSym a) s

/-- `ENCODE` (R178). -/
def execEncode (s : State) : Host.Outcome State Fault Refusal := runCommand .encode encodeInput s

end Sys2Proof.Machine
end

