-- ==== Sys2Proof/Machine/Serializer.lean ====
section
/-! DEFINITION. Serializer (44_serializer.md): the pre-order tree writer and reader. -/

namespace Sys2Proof.Machine

/-- `Put` (R191). -/
def putTree : HuffTree → Micro Unit
  | .leaf v => do
    writeBit true
    writeByte v
  | .internal l r => do
    writeBit false
    putTree l
    putTree r

/-- `SerTree()` (R191). -/
def serTree : Micro Unit := fun s =>
  match s.tree with
  | none => .error ⟨.noTree, 0#8⟩ s
  | some t =>
    (do
      putTree t
      change fun s => { s with treebits := BitVec.ofNat 12 (10 * treeLeaves t - 1) }) s

/-- `if NNODES = 511: raise CapacityError(TREE_TOO_BIG)`, else `NNODES <- NNODES + 1` (R193). -/
def countNode : Micro Unit := fun s =>
  if s.nnodes.toNat = Config.nodeCap then .error ⟨.treeTooBig, 0#8⟩ s else .ok () { s with nnodes := s.nnodes + 1#9 }

/-- `Get()` (R193), with a bound on its depth. Each level below the first has counted a node, so the test on
`NNODES` raises before a bound of 512 is used up (log entry 14). -/
def getTree : Nat → Micro HuffTree
  | 0 => raiseErr .treeTooBig
  | n + 1 => do
    let t ← readBit
    let eof ← look State.brEof
    if eof then raiseErr .eofTag
    else do
      countNode
      if t then do
        let v ← readByte
        let eof' ← look State.brEof
        if eof' then raiseErr .eofByte else pure (.leaf v)
      else do
        let l ← getTree n
        let r ← getTree n
        pure (.internal l r)

/-- `DesTree()` (R193). -/
def desTree : Micro Unit := do
  change dropTree
  let r ← getTree (Config.nodeCap + 1)
  if isInternal r then change (fun s => { s with tree := some r, ptr := some [] }) else raiseErr .rootLeaf

/-! ## Commands -/

/-- `SERTREE` (R192). -/
def execSertree (s : State) : Host.Outcome State Fault Refusal := runCommand .sertree serTree s

/-- `DESTREE` (R194). -/
def execDestree (s : State) : Host.Outcome State Fault Refusal := runCommand .destree desTree s

end Sys2Proof.Machine
end

