-- ==== Sys2Proof/Machine/Compressor.lean ====
section
/-! DEFINITION. Compressor (45_compressor.md): padding, payload, and the whole call. -/

namespace Sys2Proof.Machine

/-- The padding count for a number of bits already counted (R211). -/
def padCount (total : Nat) : Nat := if total % 8 = 0 then 0 else 8 - total % 8

/-- `WrPad()` (R211): `PAD` is written before the byte. -/
def wrPad : Micro Unit := do
  let p ← look (fun s => padCount (s.treebits.toNat + s.enc.length))
  change fun s => { s with pad := BitVec.ofNat 3 p }
  writeByte (BitVec.ofNat 8 p)

/-- `WrEnc()` (R213). -/
def wrEnc : Micro Unit := fun s => writeBits s.enc s

/-- The first line of a macro command (R215, R237). -/
def requireClosed : Micro Unit := fun s =>
  if s.inOpen || s.outOpen then .error ⟨.alreadyOpen, 0#8⟩ s else .ok () s

/-- `OUT.open <- 0 ; IN.open <- 0` at the end of a macro command. -/
def closeBoth (s : State) : State := { s with outOpen := false, inOpen := false }

/-- What a finished `COMPRESS` discards (R215). -/
def discardCall (s : State) : State :=
  clearTable { s with tree := none, ptr := none, enc := [], freq := emptyFreq }

/-- The body of `COMPRESS` (R215). -/
def compressCall : Micro Unit := do
  requireClosed
  change resetBlock
  change (setPhase .opening)
  openR
  openW
  change (setPhase .pass1)
  tally
  change (setPhase .build)
  buildTree
  change (setPhase .table)
  mkTab
  change (setPhase .pass2)
  rewindR
  encodeInput
  change (setPhase .serialize)
  serTree
  change (setPhase .padding)
  wrPad
  change (setPhase .payload)
  wrEnc
  change (setPhase .close)
  flushW
  change closeBoth
  change discardCall

/-! ## Commands -/

/-- `WRPAD` (R212). -/
def execWrpad (s : State) : Host.Outcome State Fault Refusal := runCommand .wrpad wrPad s

/-- `WRENC` (R214). -/
def execWrenc (s : State) : Host.Outcome State Fault Refusal := runCommand .wrenc wrEnc s

/-- `COMPRESS` (R215). -/
def execCompress (s : State) : Host.Outcome State Fault Refusal := runCommand .compress compressCall s

end Sys2Proof.Machine
end

