-- ==== Sys2Proof/Machine/Decompressor.lean ====
section
/-! DEFINITION. Decompressor (46_decompressor.md): padding count, tree replay, and the whole call. -/

namespace Sys2Proof.Machine

/-- `RdPad()` (R231). -/
def rdPad : Micro Unit := do
  let v ← readByte
  let eof ← look State.brEof
  if eof then raiseErr .eofPad
  else if 7 < v.toNat then raiseErr .padRange v
  else change fun s => { s with pad := v.extractLsb' 0 3 }

/-- The child of the node `PTR` designates, left on 0 and right on 1; none where there is no such node (R233). -/
def childAt (t : HuffTree) (p : Option Bits) (b : Bool) : Option HuffTree :=
  match p with
  | none => none
  | some path => nodeAt t (path ++ [b])

/-- `DecBit(b)` (R233): whether a byte was emitted, and which. -/
def decBit (b : Bool) : Micro (Bool × Byte) := fun s =>
  match s.tree with
  | none => .error ⟨.noTree, 0#8⟩ s
  | some t =>
    match childAt t s.ptr b with
    | none => .error ⟨.noChild, 0#8⟩ s
    | some (.leaf v) =>
      match writeByte v s with
      | .ok _ s1 => .ok (true, v) { s1 with ptr := some [] }
      | .error c s1 => .error c s1
    | some (.internal _ _) => .ok (false, 0#8) { s with ptr := s.ptr.map (fun path => path ++ [b]) }

/-- The loop of `Decode()` (R235). -/
def decodeLoop : Nat → Micro Unit
  | 0 => pure ()
  | n + 1 => do
    let b ← readBit
    let _ ← decBit b
    decodeLoop n

/-- `R`, the bits not yet consumed (R35, R235). -/
def bitsLeft (s : State) : Nat := 8 * inLen s + s.brAvail.val - 8 * s.inPos.toNat

/-- `Decode()` (R235). `N` is `R - PAD`, 0 when fewer than `PAD` bits remain. -/
def decodePayload : Micro Unit := fun s =>
  if s.tree = none then .error ⟨.noTree, 0#8⟩ s
  else if s.inOpen = false then .error ⟨.inClosed, 0#8⟩ s
  else decodeLoop (bitsLeft s - s.pad.toNat) { s with ptr := some [] }

/-- What a finished `DECOMPRESS` discards (R237). -/
def discardTree (s : State) : State := clearTable { s with tree := none, ptr := none }

/-- The body of `DECOMPRESS` (R237). -/
def decompressCall : Micro Unit := do
  requireClosed
  change resetBlock
  change (setPhase .opening)
  openR
  openW
  change (setPhase .deserialize)
  desTree
  change (setPhase .rdpad)
  rdPad
  change (setPhase .decode)
  decodePayload
  change (setPhase .close)
  flushW
  change closeBoth
  change discardTree

/-! ## Commands -/

/-- `RDPAD` (R232). -/
def execRdpad (s : State) : Host.Outcome State Fault Refusal := runCommand .rdpad rdPad s

/-- `DECBIT b` (R234): `RESULT[8]` says that a byte was emitted, `RESULT[7:0]` which. -/
def execDecbit (a : Byte) (s : State) : Host.Outcome State Fault Refusal :=
  runCommand (.decbit a) (do
    let (e, v) ← decBit (bitOperand a)
    change (setResult ((BitVec.ofBool e ++ v).setWidth 32))) s

/-- `DECODE` (R236). -/
def execDecode (s : State) : Host.Outcome State Fault Refusal := runCommand .decode decodePayload s

/-- `DECOMPRESS` (R237). -/
def execDecompress (s : State) : Host.Outcome State Fault Refusal := runCommand .decompress decompressCall s

end Sys2Proof.Machine
end

