-- ==== Sys2Proof/Machine/Dispatch.lean ====
section
/-! DEFINITION. One arm per command of R93: each one direct call of its meaning. -/

namespace Sys2Proof.Machine

def exec (i : Instr) (s : State) : Host.Outcome State Fault Refusal :=
  match i with
  | .nop => Sys2Proof.Machine.execNop s
  | .init => Sys2Proof.Machine.execInit s
  | .openw => Sys2Proof.Machine.execOpenw s
  | .wrbit a => Sys2Proof.Machine.execWrbit a s
  | .wrbyte a => Sys2Proof.Machine.execWrbyte a s
  | .pending => Sys2Proof.Machine.execPending s
  | .closew => Sys2Proof.Machine.execClosew s
  | .openr => Sys2Proof.Machine.execOpenr s
  | .rdbit => Sys2Proof.Machine.execRdbit s
  | .rdbyte => Sys2Proof.Machine.execRdbyte s
  | .iseof => Sys2Proof.Machine.execIseof s
  | .closer => Sys2Proof.Machine.execCloser s
  | .rewind => Sys2Proof.Machine.execRewind s
  | .fclr => Sys2Proof.Machine.execFclr s
  | .fadd a n => Sys2Proof.Machine.execFadd a n s
  | .fread a => Sys2Proof.Machine.execFread a s
  | .tally => Sys2Proof.Machine.execTally s
  | .build => Sys2Proof.Machine.execBuild s
  | .mktab => Sys2Proof.Machine.execMktab s
  | .lookup a => Sys2Proof.Machine.execLookup a s
  | .encsym a => Sys2Proof.Machine.execEncsym a s
  | .encode => Sys2Proof.Machine.execEncode s
  | .sertree => Sys2Proof.Machine.execSertree s
  | .destree => Sys2Proof.Machine.execDestree s
  | .wrpad => Sys2Proof.Machine.execWrpad s
  | .wrenc => Sys2Proof.Machine.execWrenc s
  | .compress => Sys2Proof.Machine.execCompress s
  | .rdpad => Sys2Proof.Machine.execRdpad s
  | .decbit a => Sys2Proof.Machine.execDecbit a s
  | .decode => Sys2Proof.Machine.execDecode s
  | .decompress => Sys2Proof.Machine.execDecompress s

end Sys2Proof.Machine
end

