-- ==== Sys2Proof/Machine/Issue.lean ====
section
/-! DEFINITION. The issue rule every command shares (R122), and what one move of the host does (R76). -/

namespace Sys2Proof.Machine

/-- The word of `INIT`, honoured in every state (R122). -/
def initWord : Word := 0x01000000#32

/-- `Issue(W)` (R122). -/
def issue (w : Word) (s : State) : Host.Outcome State Fault Refusal :=
  if w = initWord then exec .init s
  else if faultPending s then .next s
  else
    match decode w with
    | .illegal _ => .next (faultEntry (opField w) ⟨.badWord, 0#8⟩ (setPhase .misc s))
    | .instr i => exec i s

/-- The host may bind this input store now: no reader is open, or the open reader's cursor still lies inside the
store and the store is no longer than `OPENR` admits (R76, R301, log entry 7). -/
def mayAttachIn (st : InStore) (s : State) : Bool :=
  !s.inOpen || (decide (s.inPos.toNat ≤ st.data.length) && decide (st.data.length ≤ Config.lenMax))

/-- The host may bind this output store now: no writer is open, or it holds the very bytes of the store it replaces, so
that only its health changes (R76, log entry 7). -/
def mayAttachOut (st : OutStore) (s : State) : Bool := !s.outOpen || st.data == s.outStore.data

/-- The byte offset of `CMD` (R40). -/
def cmdOffset : Nat := 0x00

/-- One move of the host (R76). A write to `CMD` issues a command (R39); a write to any other offset is ignored and a
read changes nothing in the block (R40, R41); hardware reset is R290. -/
def hostStep (op : HostOp) (s : State) : Host.Outcome State Fault Refusal :=
  match op with
  | .write offset w => if offset = cmdOffset then issue w s else .next s
  | .read offset => .next { s with rdata := regRead offset s }
  | .attachIn st => if mayAttachIn st s then .next { s with inStore := st } else .refused .hostDuty
  | .attachOut st => if mayAttachOut st s then .next { s with outStore := st } else .refused .hostDuty
  | .reset => .next (faultReturn s)

/-- The host makes its next move; with none pending the block stays idle (R269, R290, log entry 1). -/
def nextMove (s : State) : Host.Outcome State Fault Refusal :=
  match s.host with
  | [] => .next s
  | op :: rest => hostStep op { s with host := rest }

/-- The host's next move is to write this word to `CMD`. -/
def pushCommand (w : Word) (s : State) : State := { s with host := .write cmdOffset w :: s.host }

end Sys2Proof.Machine
end

