-- ==== Sys2Proof/Safety.lean ====
section
/-! DEFINITION. What a good run is (R269), the invariants of R44, the data formats and bit streams the spec's laws speak
of (R101 to R106, R147), and the spec's tables of who writes what and who raises what (R20 to R38, R258). Nothing here
is used by the machine. -/

namespace Sys2Proof.Machine

/-! ## Outcome of a run (R269) -/

/-- A run that ends here is a success: no fault is pending. -/
def succeeded (s : State) : Bool := !faultPending s

/-- A script (R15, R269): its words issued one by one, each a step. -/
def runWords : List Word → State → Host.Outcome State Fault Refusal
  | [], s => .next s
  | w :: ws, s =>
    match step (pushCommand w s) with
    | .next t => runWords ws t
    | .fault f => .fault f
    | .refused r => .refused r

/-! ## Rows of the opcode map (R91) -/

/-- `W & mask = match` (R91). -/
def rowMatches (r : OpcodeRow) (w : Word) : Bool := w &&& formatMask r.fmt == r.op ++ 0#24

/-! ## Data formats -/

/-- `Ser(T)` (R101). -/
def ser : HuffTree → Bits
  | .leaf v => true :: byteBits v
  | .internal l r => false :: (ser l ++ ser r)

/-- The codeword of a byte: the path to its leaf, left 0 and right 1 (R104). -/
def codewordOf : HuffTree → Byte → Option Bits
  | .leaf v, b => if v = b then some [] else none
  | .internal l r, b =>
    match codewordOf l b with
    | some p => some (false :: p)
    | none => (codewordOf r b).map (fun p => true :: p)

/-- The payload of a byte sequence (R104): its codewords in order. A byte without a codeword adds nothing. -/
def payloadOf (t : HuffTree) (bytes : List Byte) : Bits := bytes.flatMap (fun b => (codewordOf t b).getD [])

/-- The padding count of R105. -/
def paddingOf (t : HuffTree) (payload : Bits) : Nat := padCount ((ser t).length + payload.length)

/-- `File(T, payload)` as a bit sequence (R103). -/
def fileBits (t : HuffTree) (payload : Bits) : Bits :=
  ser t ++ byteBits (BitVec.ofNat 8 (paddingOf t payload)) ++ payload ++ List.replicate (paddingOf t payload) false

/-- The bits of a byte sequence, each byte most significant bit first (R66). -/
def bitsOf (bytes : List Byte) : Bits := bytes.flatMap byteBits

/-- The whole bytes of a bit sequence; an incomplete last group is left out (R155 corner case (b)). -/
def wholeBytes : Bits → List Byte
  | b7 :: b6 :: b5 :: b4 :: b3 :: b2 :: b1 :: b0 :: rest =>
    byteOfBits [b7, b6, b5, b4, b3, b2, b1, b0] :: wholeBytes rest
  | _ => []

/-- The traversal of R233 and R238 over a bit sequence: from node `cur` of tree `root`, the bytes emitted. -/
def replay (root : HuffTree) : HuffTree → Bits → List Byte
  | _, [] => []
  | .leaf _, _ :: _ => []
  | .internal l r, b :: bs =>
    match (if b then r else l) with
    | .leaf v => v :: replay root root bs
    | .internal l' r' => replay root (.internal l' r') bs

/-- The slots that are not zero, ascending (R156). -/
def nonZeroSlots (f : FreqTable) : List Byte :=
  ((List.range 256).map (BitVec.ofNat 8)).filter (fun b => slotGet f b != 0#32)

/-- The codewords of a byte sequence in a table; a byte without an entry adds nothing. -/
def codesOf (code : CodeTable) (bytes : List Byte) : Bits := bytes.flatMap (fun b => (slotGet code b).getD [])

/-! ## Greedy merging (R156, R157)

Frequencies are plain numbers here, so nothing can overflow, and a queue has no order. -/

/-- `GreedyMerge q t`: `t` is a tree that the loop of R156 can leave. It stops at one entry; else it removes an entry
`x` of least frequency, then an entry `y` of least frequency among the others, and puts back the node with `left` the
first, `right` the second, and the sum of their frequencies. Every tie choice of R157 is admitted. -/
inductive GreedyMerge : List (Nat × HuffTree) → HuffTree → Prop
  | done (n : Nat) (t : HuffTree) : GreedyMerge [(n, t)] t
  | merge {q rest : List (Nat × HuffTree)} {x y : Nat × HuffTree} {t : HuffTree} (removed : q.Perm (x :: y :: rest))
      (first : ∀ z ∈ q, x.1 ≤ z.1) (second : ∀ z ∈ rest, y.1 ≤ z.1)
      (next : GreedyMerge ((x.1 + y.1, .internal x.2 y.2) :: rest) t) : GreedyMerge q t

/-- One `Leaf` with its count for each non-zero slot (R156). -/
def leafQueue (f : FreqTable) : List (Nat × HuffTree) :=
  (nonZeroSlots f).map (fun b => ((slotGet f b).toNat, .leaf b))

/-- `T` is a tree that `Build` can make of the byte counts of `bytes`, under some choice among ties (R154, R156, R157,
R158). -/
def BuildsFrom (bytes : List Byte) (T : HuffTree) : Prop :=
  ∃ (f : FreqTable) (t : HuffTree), (∀ b, (slotGet f b).toNat = bytes.count b) ∧ GreedyMerge (leafQueue f) t ∧ T = rootOf t

/-! ## Bit streams of the two handles (R147) -/

/-- Everything written since the output store was emptied: the bytes appended, then the bits pending in `BW.buf`. -/
def bitsWritten (s : State) : Bits := bitsOf s.outStore.data ++ (byteBits s.bwBuf).take s.bwCnt.toNat

/-- Everything the reader has not returned yet: the bits left in `BR.buf`, then the bytes not fetched. -/
def bitsAhead (s : State) : Bits :=
  (byteBits s.brBuf).drop (8 - s.brAvail.val) ++ bitsOf (s.inStore.data.drop s.inPos.toNat)

/-- The input store is healthy and the environment changes nothing at the coming accesses (R75, R76). -/
def inSteady (s : State) : Prop := s.inStore.ok = true ∧ s.inStore.plan = []

/-- The output store is healthy and stays so (R75). -/
def outSteady (s : State) : Prop := s.outStore.ok = true ∧ s.outStore.plan = []

/-- The reader may be read from: open, on a healthy store that stays as it is, its cursor inside it. -/
structure Readable (s : State) : Prop where
  isOpen : s.inOpen = true
  steady : inSteady s
  inside : s.inPos.toNat ≤ inLen s
  short : inLen s ≤ Config.lenMax

/-- The bytes a pass to the end of the input takes: every whole byte ahead, and none once `BR.eof` is set, since the
flag is tested after the first read (R154, R177, R296). -/
def passBytes (s : State) : List Byte := if s.brEof then [] else wholeBytes (bitsAhead s)

/-! ## Who writes what

Each list holds the opcodes of the commands that the spec lets write the element; every other command leaves it. -/

/-- Every element is reset by `INIT` and by the first step of a macro command (R42, R215, R237). -/
def resetters : List Byte := [opcode .init, opcode .compress, opcode .decompress]

/-- `RESULT` (R23, R303). -/
def writersOfResult : List Byte :=
  [opcode .pending, opcode .rdbit, opcode .rdbyte, opcode .iseof, opcode (.fread 0#8), opcode (.lookup 0#8),
    opcode (.decbit 0#8)] ++ resetters

/-- `CLEN`, `CBITS` (R23). -/
def writersOfCodeword : List Byte := [opcode (.lookup 0#8)] ++ resetters

/-- `PAD` (R28). -/
def writersOfPad : List Byte := [opcode .wrpad, opcode .rdpad] ++ resetters

/-- `TREEBITS` (R28). -/
def writersOfTreebits : List Byte := [opcode .sertree] ++ resetters

/-- `TREE`, `NNODES` (R24, R28). -/
def writersOfTree : List Byte := [opcode .build, opcode .destree] ++ resetters

/-- `PTR` (R38). -/
def writersOfPtr : List Byte := [opcode .build, opcode .destree, opcode (.decbit 0#8), opcode .decode] ++ resetters

/-- `FREQ` (R29). -/
def writersOfFreq : List Byte := [opcode .fclr, opcode (.fadd 0#8 0#16), opcode .tally] ++ resetters

/-- `CODE`, `TAB.valid` (R31, R170). -/
def writersOfTable : List Byte := [opcode .mktab, opcode .build, opcode .destree] ++ resetters

/-- `ENC` (R32). -/
def writersOfEnc : List Byte := [opcode (.encsym 0#8), opcode .encode] ++ resetters

/-- `BW`, `OUT.open`, the store `OUT` (R33, R36). -/
def usersOfWriter : List Byte :=
  [opcode .openw, opcode (.wrbit 0#8), opcode (.wrbyte 0#8), opcode .closew, opcode .sertree, opcode .wrpad,
    opcode .wrenc, opcode (.decbit 0#8), opcode .decode] ++ resetters

/-- `BR`, `IN.open`, `IN.pos`, the environment's part of `IN` (R34, R35). -/
def usersOfReader : List Byte :=
  [opcode .openr, opcode .rdbit, opcode .rdbyte, opcode .closer, opcode .rewind, opcode .tally, opcode .encode,
    opcode .destree, opcode .rdpad, opcode .decode] ++ resetters

/-! ## Who raises what -/

/-- What a read of the input can raise (R137). -/
def readCauses : List Sub := [.inClosed, .inBroken]

/-- What a write to the output can raise (R131). -/
def writeCauses : List Sub := [.outClosed, .outBroken]

/-- The sub-causes a command can raise: the "Exceptions" line of its rule (R120 to R237). -/
def causesOf : Instr → List Sub
  | .nop | .init | .pending | .iseof | .fclr | .fread _ => []
  | .openw => [.alreadyOpen, .outOpenFail]
  | .openr => [.alreadyOpen, .inOpenFail, .inTooLong]
  | .wrbit _ | .wrbyte _ | .closew | .wrpad | .wrenc => writeCauses
  | .rdbit | .rdbyte => readCauses
  | .closer | .rewind => [.inClosed]
  | .fadd _ _ => [.freqOverflow]
  | .tally => readCauses ++ [.freqOverflow]
  | .build => [.noSymbol]
  | .mktab => [.noTree, .dupLeaf]
  | .lookup _ => [.noEntry]
  | .encsym _ => [.noEntry, .encFull]
  | .encode => readCauses ++ [.noEntry, .encFull]
  | .sertree => .noTree :: writeCauses
  | .destree => readCauses ++ [.eofTag, .treeTooBig, .eofByte, .rootLeaf]
  | .rdpad => readCauses ++ [.eofPad, .padRange]
  | .decbit _ => [.noTree, .noChild] ++ writeCauses
  | .decode => [.noTree, .noChild] ++ readCauses ++ writeCauses
  | .compress =>
    [.alreadyOpen, .inOpenFail, .inTooLong, .outOpenFail, .freqOverflow, .noSymbol, .noTree, .dupLeaf, .noEntry,
      .encFull] ++ readCauses ++ writeCauses
  | .decompress =>
    [.alreadyOpen, .inOpenFail, .inTooLong, .outOpenFail, .eofTag, .treeTooBig, .eofByte, .rootLeaf, .eofPad,
      .padRange, .noTree, .noChild] ++ readCauses ++ writeCauses

/-- The sub-causes whose `DATUM` is a byte of the error; every other records 0 (R27, R258). -/
def datumCauses : List Sub := [.padRange, .noEntry, .freqOverflow, .dupLeaf]

/-! ## The spec's codes as numbers -/

/-- R258 and R250, row by row: sub-cause, `SUB`, the error's code. -/
def faultNumbers : List (Sub × Byte × BitVec 4) :=
  [(.inOpenFail, 0x01#8, 1#4), (.outOpenFail, 0x02#8, 1#4), (.inClosed, 0x03#8, 1#4), (.outClosed, 0x04#8, 1#4),
    (.inBroken, 0x05#8, 1#4), (.outBroken, 0x06#8, 1#4),
    (.eofTag, 0x10#8, 2#4), (.eofByte, 0x11#8, 2#4), (.rootLeaf, 0x12#8, 2#4), (.eofPad, 0x13#8, 2#4),
    (.padRange, 0x14#8, 2#4), (.noChild, 0x15#8, 2#4),
    (.noEntry, 0x20#8, 3#4), (.noSymbol, 0x30#8, 4#4),
    (.freqOverflow, 0x40#8, 5#4), (.inTooLong, 0x41#8, 5#4), (.treeTooBig, 0x42#8, 5#4), (.encFull, 0x43#8, 5#4),
    (.badWord, 0x50#8, 6#4), (.alreadyOpen, 0x51#8, 6#4), (.noTree, 0x52#8, 6#4), (.dupLeaf, 0x53#8, 6#4)]

/-- R22, the codes. -/
def phaseNumbers : List (Phase × BitVec 4) :=
  [(.idle, 0#4), (.opening, 1#4), (.pass1, 2#4), (.build, 3#4), (.table, 4#4), (.pass2, 5#4), (.serialize, 6#4),
    (.padding, 7#4), (.payload, 8#4), (.close, 9#4), (.deserialize, 10#4), (.rdpad, 11#4), (.decode, 12#4),
    (.bitio, 13#4), (.misc, 14#4)]

/-- R22, the last column: the `op` of each command (R93) and the code of the phase it starts in. -/
def commandPhases : List (Byte × BitVec 4) :=
  [(0x00#8, 0#4), (0x01#8, 0#4),
    (0x10#8, 1#4), (0x11#8, 13#4), (0x12#8, 13#4), (0x13#8, 13#4), (0x14#8, 9#4),
    (0x18#8, 1#4), (0x19#8, 13#4), (0x1A#8, 13#4), (0x1B#8, 13#4), (0x1C#8, 9#4), (0x1D#8, 13#4),
    (0x20#8, 14#4), (0x21#8, 14#4), (0x22#8, 14#4), (0x23#8, 2#4), (0x24#8, 3#4),
    (0x30#8, 4#4), (0x31#8, 4#4), (0x32#8, 5#4), (0x33#8, 5#4),
    (0x40#8, 6#4), (0x41#8, 10#4),
    (0x50#8, 7#4), (0x51#8, 8#4), (0x52#8, 0#4),
    (0x58#8, 11#4), (0x59#8, 12#4), (0x5A#8, 12#4), (0x5B#8, 0#4)]

/-! ## The invariants of R44 -/

/-- R44, between commands, clause by clause; the last three clauses are inferences (R26, R27, R136). -/
structure Inv (s : State) : Prop where
  /-- (a) The root is `Internal`. -/
  rootInternal : ∀ t, s.tree = some t → isInternal t = true
  /-- (b) At most 511 nodes, an odd number, and `NNODES` counts them. -/
  nodesCounted : ∀ t, s.tree = some t → treeNodes t ≤ 511 ∧ treeNodes t % 2 = 1 ∧ s.nnodes.toNat = treeNodes t
  /-- (c) The bits of `BW.buf` not yet written are 0. -/
  pendingLowZero : ∀ k, k < 8 - s.bwCnt.toNat → s.bwBuf.getLsbD k = false
  /-- (d) While the reader is open its cursor is inside the store. -/
  cursorInside : s.inOpen = true → s.inPos.toNat ≤ inLen s ∧ inLen s ≤ Config.lenMax
  /-- (e) `ENC` fits. -/
  encFits : s.enc.length ≤ s.cfg.encCap.toNat
  /-- (f) A valid table holds exactly the tree's codewords. -/
  tableOfTree : s.tabValid = true → ∃ t, s.tree = some t ∧ ∀ b, slotGet s.code b = codewordOf t b
  /-- (f) An invalid table holds nothing. -/
  tableEmpty : s.tabValid = false → ∀ b, slotGet s.code b = none
  /-- (g) `PTR` is `none` exactly when `TREE` is. -/
  ptrNone : s.ptr = none ↔ s.tree = none
  /-- (g) Otherwise `PTR` designates an `Internal` node. -/
  ptrInternal : ∀ t p, s.tree = some t → s.ptr = some p → ∃ l r, nodeAt t p = some (.internal l r)
  /-- (h) Between commands. -/
  idle : s.phase = .idle ∧ s.pq = []
  /-- (i) A pending fault has released both handles. -/
  faultReleased : s.err ≠ 0#4 → s.inOpen = false ∧ s.outOpen = false
  /-- A closed writer holds no bit (R136: `PENDING` reads 0 when none is open). -/
  closedWriterEmpty : s.outOpen = false → s.bwCnt = 0#3 ∧ s.bwBuf = 0#8
  /-- `ERR` holds a legal code (R26). -/
  errLegal : s.err.toNat ≤ 6
  /-- Without a fault `ERRINFO` is clear (R27). -/
  infoClear : s.err = 0#4 → s.errinfo = 0#32

end Sys2Proof.Machine
end

