-- ==== Sys2Proof/Certificates/Slice0/Obligations.lean ====
section
/-! DEFINITION. The statements for the provers. Each follows the rules its docstring names; `{ s with … }` says the whole
frame of a command, since every element not named keeps its value. -/

open Sys2Proof Sys2Proof.Machine

/-! ## Encoding -/

/-- Every well-formed command is read back from its word, with every operand (R90 to R93). -/
def Obligations.DecodeOfEncode : Prop := ∀ i : Instr, i.wellFormed = true → decode (encode i) = .instr i

/-- A word has one reading: what decodes to a command is that command's word (R91, R96). -/
def Obligations.EncodeOfDecode : Prop :=
  ∀ (w : Word) (i : Instr), decode w = .instr i → i.wellFormed = true ∧ encode i = w

/-- R96: `Decode` answers the command of the row with `W & mask = match`, and `ILLEGAL` when no row matches; at most one
row matches any word. -/
def Obligations.DecodeIsTheMatchingRow : Prop :=
  ∀ w : Word,
    (∀ r ∈ opcodeTable, rowMatches r w = true → decode w = .instr (r.build (aField w) (nField w))) ∧
    ((∀ r ∈ opcodeTable, rowMatches r w = false) → ∃ why, decode w = .illegal why) ∧
    opcodeTable.Pairwise (fun r r' => ¬ (rowMatches r w = true ∧ rowMatches r' w = true))

/-- R94: a word that is an instance of no row raises `IllegalCommandError(BAD_WORD)` in phase `MISC` and does nothing
else; 225 of the 256 `op` values are in no row. -/
def Obligations.IllegalWordFaults : Prop :=
  (∀ (w : Word) (s : State), s.err = 0#4 → (∀ r ∈ opcodeTable, rowMatches r w = false) →
    issue w s = .next (faultEntry (opField w) ⟨.badWord, 0#8⟩ { s with phase := .misc })) ∧
  ((List.range 256).filter (fun op => opcodeTable.all (fun r => r.op != BitVec.ofNat 8 op))).length = 225

/-- Words written out from R93, R97 and the command rules, at least one of every family. -/
def Obligations.SpecWordsDecode : Prop :=
  decode 0x00000000#32 = .instr .nop ∧ decode 0x01000000#32 = .instr .init ∧
  decode 0x11010000#32 = .instr (.wrbit 1#8) ∧ decode 0x12FF0000#32 = .instr (.wrbyte 0xFF#8) ∧
  decode 0x1A000000#32 = .instr .rdbyte ∧ decode 0x21610064#32 = .instr (.fadd 0x61#8 100#16) ∧
  decode 0x22610000#32 = .instr (.fread 0x61#8) ∧ decode 0x31620000#32 = .instr (.lookup 0x62#8) ∧
  decode 0x40000000#32 = .instr .sertree ∧ decode 0x52000000#32 = .instr .compress ∧
  decode 0x59010000#32 = .instr (.decbit 1#8) ∧ decode 0x10000001#32 = .illegal .nonZeroField ∧
  decode 0x11020000#32 = .illegal .nonZeroField ∧ decode 0xFF000000#32 = .illegal .unlistedOp

/-! ## Issue, host, reset, faults -/

/-- The issue rule (R122) through a step: the host's next word, written to `CMD`, is `INIT` in every state, nothing
while a fault is pending, a fault if illegal, and else the decoded command, run at that state. Beside `exec` a step only
takes the word off the host's queue. `withFetchWord` puts a word there. (That words wait in a queue is the model's choice,
log entry 1.) -/
def Obligations.StepRunsDecodedCommand : Prop :=
  (∀ (w : Word) (s : State), s.err = 0#4 → w ≠ 0x01000000#32 →
    step (pushCommand w s) =
      match decode w with
      | .illegal _ => .next (faultEntry (opField w) ⟨.badWord, 0#8⟩ { s with phase := .misc })
      | .instr i => exec i s) ∧
  (∀ (w : Word) (s : State), s.err ≠ 0#4 → w ≠ 0x01000000#32 → step (pushCommand w s) = .next s) ∧
  (∀ (w : Word) (i : Instr) (s : State), s.err = 0#4 → decode w = .instr i →
    step (pushCommand w s) = exec i s ∧ step (s.withFetchWord 32 w.toNat) = exec i s) ∧
  (∀ s : State, step (pushCommand 0x01000000#32 s) = exec .init s)

/-- The host's other moves: a read returns the register and changes nothing of the block, a write to any offset but
`CMD`'s is ignored, hardware reset is R290, a store may be bound while its handle is closed, and with no move the block
stays (R41, R76, R290, R291; log entries 1, 7, 12). -/
def Obligations.HostMoves : Prop :=
  ∀ s : State,
    (s.host = [] → step s = .next s) ∧
    (∀ offset rest, s.host = .read offset :: rest →
      step s = .next { s with host := rest, rdata := regRead offset s }) ∧
    (∀ offset w rest, offset ≠ 0x00 → s.host = .write offset w :: rest → step s = .next { s with host := rest }) ∧
    (∀ rest, s.host = .reset :: rest → step s = exec .init { s with host := rest }) ∧
    (∀ st rest, s.inOpen = false → s.host = .attachIn st :: rest →
      step s = .next { s with host := rest, inStore := st }) ∧
    (∀ st rest, s.outOpen = false → s.host = .attachOut st :: rest →
      step s = .next { s with host := rest, outStore := st })

/-- R40: what a host read returns at each offset, its high bits 0 (R23, R26, R28), and 0 at every offset not listed and
at `CMD`. -/
def Obligations.RegisterMap : Prop :=
  ∀ s : State,
    regRead 0x00 s = 0#32 ∧ regRead 0x04 s = statusWord s ∧ regRead 0x08 s = 0#28 ++ s.err ∧
    regRead 0x0C s = s.errinfo ∧ regRead 0x10 s = s.result ∧ regRead 0x14 s = 0#24 ++ s.clen ∧
    (∀ k, k < 8 → regRead (0x20 + 4 * k) s = s.cbits.extractLsb' (224 - 32 * k) 32) ∧
    regRead 0x40 s = 0#29 ++ s.pad ∧ regRead 0x44 s = 0#20 ++ s.treebits ∧
    regRead 0x48 s = BitVec.ofNat 32 s.enc.length ∧ regRead 0x4C s = 0#23 ++ s.nnodes ∧
    (∀ offset, offset ∉ [0x04, 0x08, 0x0C, 0x10, 0x14, 0x20, 0x24, 0x28, 0x2C, 0x30, 0x34, 0x38, 0x3C, 0x40, 0x44, 0x48,
      0x4C] → regRead offset s = 0#32)

/-- R25: every bit of `STATUS` is a view of another element, and the host cannot write it. -/
def Obligations.StatusBits : Prop :=
  ∀ s : State,
    regRead 0x04 s = statusWord s ∧ (∀ w : Word, hostStep (.write 0x04 w) s = .next s) ∧
    (statusWord s).getLsbD 0 = false ∧
    ((statusWord s).getLsbD 1 = true ↔ s.err ≠ 0#4) ∧
    (statusWord s).getLsbD 2 = s.inOpen ∧ (statusWord s).getLsbD 3 = s.outOpen ∧
    ((statusWord s).getLsbD 4 = true ↔ s.tree ≠ none) ∧
    (statusWord s).getLsbD 5 = s.tabValid ∧ (statusWord s).getLsbD 6 = s.brEof ∧
    (∀ k, 7 ≤ k → (statusWord s).getLsbD k = false)

/-- R42: the reset values the spec gives, and every register reads 0. -/
def Obligations.ResetValues : Prop :=
  (∀ offset, regRead offset State.reset = 0#32) ∧
  State.reset.err = 0#4 ∧ State.reset.errinfo = 0#32 ∧ State.reset.phase = .idle ∧
  State.reset.bwBuf = 0#8 ∧ State.reset.bwCnt = 0#3 ∧
  State.reset.brBuf = 0#8 ∧ State.reset.brAvail = 0 ∧ State.reset.brEof = false ∧
  State.reset.inOpen = false ∧ State.reset.inPos = 0#32 ∧ State.reset.outOpen = false ∧
  (∀ b, slotGet State.reset.freq b = 0#32) ∧ State.reset.tree = none ∧ State.reset.ptr = none ∧
  (∀ b, slotGet State.reset.code b = none) ∧ State.reset.tabValid = false ∧
  State.reset.enc = [] ∧ State.reset.pq = []

/-- R121, R291: `INIT` puts every element of the block at its reset value, in every state, drops the writer's pending
bits, leaves both stores and what is not the block's, and does what hardware reset does; from the reset state it changes
nothing; no other word is honoured while a fault is pending. (The model's choices in it: the count of draws, the host's
moves and its last read value are outside the block and kept, log entries 1, 3, 12; what stores stand bound in
`State.reset`, log entry 2; the parameters in it, log entries 4, 5.) -/
def Obligations.InitResetsTheBlock : Prop :=
  encode .init = 0x01000000#32 ∧ exec .init State.reset = .next State.reset ∧
  (∀ (w : Word) (s : State), s.err ≠ 0#4 → w ≠ 0x01000000#32 → issue w s = .next s) ∧
  ∀ s : State,
    exec .init s = .next { State.reset with
      inStore := s.inStore, outStore := s.outStore, cfg := s.cfg, draws := s.draws, host := s.host, rdata := s.rdata } ∧
    issue 0x01000000#32 s = exec .init s ∧ hostStep .reset s = exec .init s

/-- R259, R299: while a fault is pending a whole script without `INIT` changes nothing, so `ERR` and `ERRINFO` keep the
first fault. -/
def Obligations.StickyFault : Prop :=
  ∀ (ws : List Word) (s : State), s.err ≠ 0#4 → (∀ w ∈ ws, w ≠ 0x01000000#32) → runWords ws s = .next s

/-- R256, R261: a command whose rule raises ends in fault entry, taken from the state the rule had reached; what fault
entry writes, when it flushes the partial byte, and that nothing else changes; and, as numbers, the codes of R250, R258 and
R22 and the phase each command starts in. (That the flush asks the environment afresh for `OUT.ok` is the model's reading,
log entry 13.) -/
def Obligations.FaultEntry : Prop :=
  (∀ (i : Instr) (body : Micro Unit) (c : Cause) (s reached : State),
    body (setPhase (phaseOf i) s) = .error c reached → runCommand i body s = .next (faultEntry (opcode i) c reached)) ∧
  (∀ sub : Sub, (sub, subCode sub, errCode (subErr sub)) ∈ faultNumbers) ∧
  (∀ p : Phase, (p, phaseCode p) ∈ phaseNumbers) ∧
  (∀ i : Instr, (opcode i, phaseCode (phaseOf i)) ∈ commandPhases) ∧
  ∀ (op : Byte) (c : Cause) (s : State),
    (faultEntry op c s).err = errCode (subErr c.sub) ∧
    (faultEntry op c s).errinfo = c.datum ++ op ++ (0#4 ++ phaseCode s.phase) ++ subCode c.sub ∧
    (faultEntry op c s).inOpen = false ∧ (faultEntry op c s).outOpen = false ∧
    (faultEntry op c s).pq = [] ∧ (faultEntry op c s).phase = .idle ∧
    (s.outOpen = true → (faultEntry op c s).bwBuf = 0#8 ∧ (faultEntry op c s).bwCnt = 0#3) ∧
    (s.outOpen = false → (faultEntry op c s).bwBuf = s.bwBuf ∧ (faultEntry op c s).bwCnt = s.bwCnt) ∧
    (s.outOpen = true → s.bwCnt ≠ 0#3 → c.sub ≠ .outBroken → (outAsk s.outStore).ok = true →
      (faultEntry op c s).outStore.data = s.outStore.data ++ [s.bwBuf]) ∧
    (s.outOpen = false ∨ s.bwCnt = 0#3 ∨ c.sub = .outBroken ∨ (outAsk s.outStore).ok = false →
      (faultEntry op c s).outStore.data = s.outStore.data) ∧
    (s.outStore.plan = [] → (faultEntry op c s).outStore = { s.outStore with data := (faultEntry op c s).outStore.data }) ∧
    faultEntry op c s = { s with
      err := (faultEntry op c s).err, errinfo := (faultEntry op c s).errinfo, inOpen := false, outOpen := false
      pq := [], phase := .idle, bwBuf := (faultEntry op c s).bwBuf, bwCnt := (faultEntry op c s).bwCnt
      outStore := (faultEntry op c s).outStore }

/-- Only fault entry writes `ERR` and `ERRINFO`, and only a reset clears them (R26, R27): after any command they are as
before, or clear because the command starts by resetting the block, or they record a fault of this command with its
opcode and phase, and then both handles are released, the queue is empty and the block idle. -/
def Obligations.FaultsAreRecorded : Prop :=
  ∀ (i : Instr) (s t : State), exec i s = .next t →
    (t.err = s.err ∧ t.errinfo = s.errinfo) ∨
    (opcode i ∈ resetters ∧ t.err = 0#4 ∧ t.errinfo = 0#32) ∨
    ∃ (sub : Sub) (datum : Byte) (p : Phase),
      t.err = errCode (subErr sub) ∧ t.errinfo = datum ++ opcode i ++ (0#4 ++ phaseCode p) ++ subCode sub ∧
      (opcode i ∉ resetters → p = phaseOf i) ∧
      t.inOpen = false ∧ t.outOpen = false ∧ t.pq = [] ∧ t.phase = .idle

/-- R258 with the "Exceptions" line of every command rule: from a state without a fault, a command either ends without
one or records a sub-cause its rule lists, under that sub-cause's error; `DATUM` is 0 unless the sub-cause has one. -/
def Obligations.CommandsRaiseWhatTheyList : Prop :=
  ∀ (i : Instr) (s t : State), s.err = 0#4 → exec i s = .next t → t.err ≠ 0#4 →
    ∃ sub ∈ causesOf i, t.err = errCode (subErr sub) ∧ t.errinfo.extractLsb' 0 8 = subCode sub ∧
      (sub ∉ datumCauses → t.errinfo.extractLsb' 24 8 = 0#8)

/-- Every command ends, in every state: with a next state, `PHASE` idle and no queue left (R22, R37, R269). -/
def Obligations.EveryCommandEnds : Prop :=
  ∀ (i : Instr) (s : State), ∃ t, exec i s = .next t ∧ t.phase = .idle ∧ (s.pq = [] → t.pq = [])

/-! ## Invariants and whole-machine rules -/

/-- The reset state meets the invariants of R44. -/
def Obligations.ResetMeetsInv : Prop := Inv State.reset

/-- R44: every step keeps the invariants, from every state that meets them, whatever the host does and whatever
the environment answers. -/
def Obligations.StepKeepsInv : Prop := ∀ s t : State, Inv s → step s = .next t → Inv t

/-- R63: `OUT` grows only at its end; only the body of `OPENW` empties it, and nothing makes it creatable or not. -/
def Obligations.OutOnlyAppended : Prop :=
  ∀ (i : Instr) (s t : State), exec i s = .next t →
    t.outStore.creatable = s.outStore.creatable ∧
    ∃ base ext, t.outStore.data = base ++ ext ∧
      (base = s.outStore.data ∨ (base = [] ∧ (i = .openw ∨ i = .compress ∨ i = .decompress)))

/-- R62: no command writes `IN`: with nothing planned by the environment the store is untouched, and its length and
presence never change. -/
def Obligations.InputNeverWritten : Prop :=
  ∀ (i : Instr) (s t : State), exec i s = .next t →
    t.inStore.present = s.inStore.present ∧ t.inStore.data.length = s.inStore.data.length ∧
    (s.inStore.plan = [] → t.inStore = s.inStore)

/-- R23, R28, R303: the commands that may change each result register and counter, fault or not; no other does. -/
def Obligations.RegisterWriters : Prop :=
  ∀ (i : Instr) (s t : State), exec i s = .next t →
    (opcode i ∉ writersOfResult → t.result = s.result) ∧
    (opcode i ∉ writersOfCodeword → t.clen = s.clen ∧ t.cbits = s.cbits) ∧
    (opcode i ∉ writersOfPad → t.pad = s.pad) ∧
    (opcode i ∉ writersOfTreebits → t.treebits = s.treebits) ∧
    (opcode i ∉ writersOfTree → t.nnodes = s.nnodes) ∧
    t.cfg = s.cfg ∧ t.host = s.host ∧ t.rdata = s.rdata

/-- R24, R29 to R32, R38: the commands that may change each table, the tree, the traversal pointer and the bit sequence,
fault or not; no other does. -/
def Obligations.TableWriters : Prop :=
  ∀ (i : Instr) (s t : State), exec i s = .next t →
    (opcode i ∉ writersOfFreq → t.freq = s.freq) ∧
    (opcode i ∉ writersOfTree → t.tree = s.tree) ∧
    (opcode i ∉ writersOfPtr → t.ptr = s.ptr) ∧
    (opcode i ∉ writersOfTable → t.code = s.code ∧ t.tabValid = s.tabValid) ∧
    (opcode i ∉ writersOfEnc → t.enc = s.enc)

/-- R33 to R36: a command that is no user of the writer, or of the reader, leaves all of it and its store alone, unless
it faults (fault entry releases both handles). -/
def Obligations.HandleUsers : Prop :=
  ∀ (i : Instr) (s t : State), s.err = 0#4 → exec i s = .next t → t.err = 0#4 →
    (opcode i ∉ usersOfWriter →
      t.outOpen = s.outOpen ∧ t.bwBuf = s.bwBuf ∧ t.bwCnt = s.bwCnt ∧ t.outStore = s.outStore) ∧
    (opcode i ∉ usersOfReader →
      t.inOpen = s.inOpen ∧ t.inPos = s.inPos ∧ t.brBuf = s.brBuf ∧ t.brAvail = s.brAvail ∧ t.brEof = s.brEof ∧
      t.inStore = s.inStore)

/-- R75: with both stores healthy and staying so, no command takes `IN_BROKEN` or `OUT_BROKEN`, and the stores stay
healthy. -/
def Obligations.HealthyStoresNeverBreak : Prop :=
  ∀ (i : Instr) (s t : State), s.err = 0#4 → inSteady s → outSteady s → exec i s = .next t →
    inSteady t ∧ outSteady t ∧
    (t.err ≠ 0#4 → t.errinfo.extractLsb' 0 8 ≠ subCode .inBroken ∧ t.errinfo.extractLsb' 0 8 ≠ subCode .outBroken)

/-- R266: no draw reaches a store, a table, the tree or a decision. Two states that differ only in the draws to come end
every command in states that differ only in the draws, and, for `RDBIT` and `RDBYTE`, in `RESULT`. (For `BUILD` and
`COMPRESS` the policy is `fifo`: under `any` their choice among equal entries is itself a free value, and it does shape the
tree, R157. The counter of draws is the model's own field, log entries 3, 4.) -/
def Obligations.DrawsReachNothing : Prop :=
  ∀ (i : Instr) (s t : State) (d : Nat), s.cfg.tiePolicy = .fifo ∨ (i ≠ .build ∧ i ≠ .compress) → exec i s = .next t →
    ∃ d' r, exec i { s with draws := d } = .next { t with draws := d', result := r } ∧
      (i ≠ .rdbit → i ≠ .rdbyte → r = t.result)

/-! ## Control -/

/-- R120: `NOP` does nothing, also when it is ignored because a fault is pending. -/
def Obligations.NopDoesNothing : Prop :=
  encode .nop = 0x00000000#32 ∧
  ∀ s : State, s.phase = .idle → exec .nop s = .next s ∧ issue 0x00000000#32 s = .next s

/-! ## Bit I/O -/

/-- R133 and R140: what `OPENW` and `OPENR` do, and what they refuse, in the order their rules test. -/
def Obligations.OpenCommands : Prop :=
  encode .openw = 0x10000000#32 ∧ encode .openr = 0x18000000#32 ∧
  (∀ s : State,
    (s.outOpen = true →
      exec .openw s = .next (faultEntry 0x10#8 ⟨.alreadyOpen, 0#8⟩ { s with phase := .opening })) ∧
    (s.outOpen = false → s.outStore.creatable = false →
      exec .openw s = .next (faultEntry 0x10#8 ⟨.outOpenFail, 0#8⟩ { s with phase := .opening })) ∧
    (s.outOpen = false → s.outStore.creatable = true →
      exec .openw s = .next { s with
        outStore := { s.outStore with data := [] }, outOpen := true, bwBuf := 0#8, bwCnt := 0#3, phase := .idle })) ∧
  (∀ s : State,
    (s.inOpen = true →
      exec .openr s = .next (faultEntry 0x18#8 ⟨.alreadyOpen, 0#8⟩ { s with phase := .opening })) ∧
    (s.inOpen = false → s.inStore.present = false →
      exec .openr s = .next (faultEntry 0x18#8 ⟨.inOpenFail, 0#8⟩ { s with phase := .opening })) ∧
    (s.inOpen = false → s.inStore.present = true → 2 ^ 32 - 1 < s.inStore.data.length →
      exec .openr s = .next (faultEntry 0x18#8 ⟨.inTooLong, 0#8⟩ { s with phase := .opening })) ∧
    (s.inOpen = false → s.inStore.present = true → s.inStore.data.length ≤ 2 ^ 32 - 1 →
      exec .openr s = .next { s with
        inOpen := true, inPos := 0#32, brBuf := 0#8, brAvail := 0, brEof := false, phase := .idle }))

/-- R131, R134: `WRBIT b` puts `b` at bit `7 - BW.cnt` of the buffer; the eighth bit appends the byte and empties the
buffer, or faults where the store is broken. -/
def Obligations.WrbitWritesOneBit : Prop :=
  ∀ (a : Byte) (s : State), s.outOpen = true →
    (∀ k, k < 8 → (setBit s.bwBuf (7 - s.bwCnt.toNat) (a.getLsbD 0)).getLsbD k =
      if k = 7 - s.bwCnt.toNat then a.getLsbD 0 else s.bwBuf.getLsbD k) ∧
    (s.bwCnt.toNat < 7 →
      exec (.wrbit a) s = .next { s with
        bwBuf := setBit s.bwBuf (7 - s.bwCnt.toNat) (a.getLsbD 0), bwCnt := s.bwCnt + 1#3, phase := .idle }) ∧
    (s.bwCnt.toNat = 7 → (outAsk s.outStore).ok = true →
      exec (.wrbit a) s = .next { s with
        outStore := { outAsk s.outStore with data := s.outStore.data ++ [setBit s.bwBuf 0 (a.getLsbD 0)] }
        bwBuf := 0#8, bwCnt := 0#3, phase := .idle }) ∧
    (s.bwCnt.toNat = 7 → (outAsk s.outStore).ok = false →
      exec (.wrbit a) s = .next (faultEntry 0x11#8 ⟨.outBroken, 0#8⟩
        { s with bwBuf := setBit s.bwBuf 0 (a.getLsbD 0), outStore := outAsk s.outStore, phase := .bitio }))

/-- R132, R135: `WRBYTE v` with `c` bits pending appends the byte of the pending bits and the first `8 - c` of `v`, and
leaves the last `c` of `v` pending; the pending bits of the buffer are assumed to stand over zeros (R44(c)). On a broken
store it faults, nothing appended. -/
def Obligations.WrbyteWritesOneByte : Prop :=
  ∀ (v : Byte) (s : State), s.outOpen = true →
    (∀ k, k < 8 - s.bwCnt.toNat → s.bwBuf.getLsbD k = false) →
    ((outAsk s.outStore).ok = true →
      exec (.wrbyte v) s = .next { s with
        outStore := { outAsk s.outStore with data := s.outStore.data ++ [s.bwBuf ||| (v >>> s.bwCnt.toNat)] }
        bwBuf := v <<< (8 - s.bwCnt.toNat), phase := .idle }) ∧
    ((outAsk s.outStore).ok = false →
      exec (.wrbyte v) s = .next (faultEntry 0x12#8 ⟨.outBroken, 0#8⟩
        { s with outStore := outAsk s.outStore, phase := .bitio }))

/-- R136, R143, R153: `PENDING`, `ISEOF` and `FREAD` show an element in `RESULT`, need no open handle and cannot
fault. -/
def Obligations.ViewsInResult : Prop :=
  ∀ s : State,
    exec .pending s = .next { s with result := 0#29 ++ s.bwCnt, phase := .idle } ∧
    exec .iseof s = .next { s with result := 0#31 ++ BitVec.ofBool s.brEof, phase := .idle } ∧
    ∀ slot : Byte, exec (.fread slot) s = .next { s with result := slotGet s.freq slot, phase := .idle }

/-- R139, R144, R145, R146: `CLOSEW` writes the partial byte, if any, and closes the writer; `CLOSER` only closes the
reader; `REWIND` restarts it. -/
def Obligations.CloseAndRewind : Prop :=
  ∀ s : State,
    (s.outOpen = true → s.bwCnt = 0#3 → exec .closew s = .next { s with outOpen := false, phase := .idle }) ∧
    (s.outOpen = true → s.bwCnt ≠ 0#3 → (outAsk s.outStore).ok = true →
      exec .closew s = .next { s with
        outStore := { outAsk s.outStore with data := s.outStore.data ++ [s.bwBuf] }
        bwBuf := 0#8, bwCnt := 0#3, outOpen := false, phase := .idle }) ∧
    (s.outOpen = true → s.bwCnt ≠ 0#3 → (outAsk s.outStore).ok = false →
      exec .closew s = .next (faultEntry 0x14#8 ⟨.outBroken, 0#8⟩
        { s with outStore := outAsk s.outStore, phase := .close })) ∧
    (s.inOpen = true → exec .closer s = .next { s with inOpen := false, phase := .idle }) ∧
    (s.inOpen = true →
      exec .rewind s = .next { s with inPos := 0#32, brBuf := 0#8, brAvail := 0, brEof := false, phase := .idle })

/-- R137, R141: `RDBIT` returns the first bit ahead and leaves the rest ahead; with none ahead it sets `BR.eof`, and
`RESULT[0]` is a draw; a refill from a broken store faults. -/
def Obligations.RdbitReadsOneBit : Prop :=
  (∀ (s : State) (b : Bool) (rest : Bits), Readable s → bitsAhead s = b :: rest →
    ∃ t, exec .rdbit s = .next t ∧ t.result = 0#31 ++ BitVec.ofBool b ∧ bitsAhead t = rest ∧
      t.inPos.toNat ≤ inLen s ∧
      t = { s with inPos := t.inPos, brBuf := t.brBuf, brAvail := t.brAvail, result := t.result, phase := .idle }) ∧
  (∀ s : State, s.inOpen = true → s.brAvail = 0 → inLen s ≤ s.inPos.toNat →
    exec .rdbit s = .next { s with
      brEof := true, draws := s.draws + 1, result := 0#31 ++ BitVec.ofBool (Config.drawBit s.draws)
      phase := .idle }) ∧
  (∀ s : State, s.inOpen = true → s.brAvail = 0 → s.inPos.toNat < inLen s →
    (inAsk s.inStore s.inPos.toNat).ok = false →
    exec .rdbit s = .next (faultEntry 0x19#8 ⟨.inBroken, 0#8⟩
      { s with inStore := inAsk s.inStore s.inPos.toNat, phase := .bitio }))

/-- R138, R142: `RDBYTE` returns the next eight bits as a byte, at any bit offset; with fewer ahead it sets `BR.eof`, and
its value is free. -/
def Obligations.RdbyteReadsOneByte : Prop :=
  ∀ s : State, Readable s →
    (8 ≤ (bitsAhead s).length →
      ∃ t, exec .rdbyte s = .next t ∧ t.result = 0#24 ++ byteOfBits ((bitsAhead s).take 8) ∧
        bitsAhead t = (bitsAhead s).drop 8 ∧
        t = { s with inPos := t.inPos, brBuf := t.brBuf, brAvail := t.brAvail, result := t.result, phase := .idle }) ∧
    ((bitsAhead s).length < 8 →
      ∃ (t : State) (v : Byte), exec .rdbyte s = .next t ∧ t.result = 0#24 ++ v ∧ bitsAhead t = [] ∧
        t.brEof = true ∧
        t = { s with
          inPos := t.inPos, brBuf := t.brBuf, brAvail := t.brAvail, brEof := true, draws := t.draws
          result := t.result, phase := .idle })

/-- R147, the writer's half: after `OPENW` and any sequence of `WRBIT`s the store and the buffer hold exactly those bits,
and `CLOSEW` completes the last byte with zeros. -/
def Obligations.WriterLaw : Prop :=
  ∀ (bits : Bits) (s : State), s.err = 0#4 → s.outOpen = false → s.outStore.creatable = true → outSteady s →
    ∃ t u,
      runWords (0x10000000#32 :: bits.map (fun b => if b then 0x11010000#32 else 0x11000000#32)) s = .next t ∧
      t.outStore.data.length = bits.length / 8 ∧ t.bwCnt.toNat = bits.length % 8 ∧ bitsWritten t = bits ∧
      exec .closew t = .next u ∧ u.outStore.data.length = (bits.length + 7) / 8 ∧
      bitsOf u.outStore.data = bits ++ List.replicate ((8 - bits.length % 8) % 8) false

/-- R147, the reader's half: after `OPENR` the `j`-th `RDBIT` (from 0) returns bit `7 - j mod 8` of byte `j div 8` and
leaves `BR.eof` clear; the first one past the last bit sets it. -/
def Obligations.ReaderLaw : Prop :=
  ∀ s : State, s.err = 0#4 → s.inOpen = false → s.inStore.present = true → inSteady s → inLen s ≤ 2 ^ 32 - 1 →
    (∀ j, j < 8 * inLen s →
      ∃ t, runWords (0x18000000#32 :: List.replicate (j + 1) 0x19000000#32) s = .next t ∧
        t.result = 0#31 ++ BitVec.ofBool ((s.inStore.data.getD (j / 8) 0#8).getLsbD (7 - j % 8)) ∧
        t.brEof = false) ∧
    ∃ t, runWords (0x18000000#32 :: List.replicate (8 * inLen s + 1) 0x19000000#32) s = .next t ∧ t.brEof = true

/-! ## Trie builder -/

/-- R151, R152: `FCLR` clears the table; `FADD` adds exactly or refuses, with the slot as datum, and `n = 0` cannot
fault. -/
def Obligations.FclrAndFadd : Prop :=
  ∀ s : State,
    exec .fclr s = .next { s with freq := Vector.replicate 256 0#32, phase := .idle } ∧
    ∀ (slot : Byte) (n : Half),
      ((slotGet s.freq slot).toNat + n.toNat ≤ 2 ^ 32 - 1 →
        exec (.fadd slot n) s = .next { s with
          freq := slotSet s.freq slot (BitVec.ofNat 32 ((slotGet s.freq slot).toNat + n.toNat)), phase := .idle }) ∧
      (2 ^ 32 - 1 < (slotGet s.freq slot).toNat + n.toNat →
        exec (.fadd slot n) s = .next (faultEntry 0x21#8 ⟨.freqOverflow, slot⟩ { s with phase := .misc })) ∧
      exec (.fadd slot 0#16) s = .next { s with phase := .idle }

/-- R154, R155: `TALLY` counts every whole byte ahead, drops an incomplete group at the end, keeps the counts already
there and ends with `BR.eof` set; the first byte whose counter is then full makes it fault with that slot as datum, the
bytes before it counted and the reader right after it. -/
def Obligations.TallyCountsTheInput : Prop :=
  ∀ s : State, Readable s →
    ((∀ b, (slotGet s.freq b).toNat + (passBytes s).count b ≤ 2 ^ 32 - 1) →
      ∃ t, exec .tally s = .next t ∧
        (∀ b, (slotGet t.freq b).toNat = (slotGet s.freq b).toNat + (passBytes s).count b) ∧
        t.brEof = true ∧ (s.brEof = false → bitsAhead t = []) ∧
        t = { s with
          inPos := t.inPos, brBuf := t.brBuf, brAvail := t.brAvail, brEof := true, draws := t.draws
          freq := t.freq, phase := .idle }) ∧
    (∀ pre v post, passBytes s = pre ++ v :: post → (∀ b, (slotGet s.freq b).toNat + pre.count b ≤ 2 ^ 32 - 1) →
      (slotGet s.freq v).toNat + pre.count v = 2 ^ 32 - 1 →
      ∃ u, exec .tally s = .next (faultEntry 0x23#8 ⟨.freqOverflow, v⟩ u) ∧
        (∀ b, (slotGet u.freq b).toNat = (slotGet s.freq b).toNat + pre.count b) ∧
        bitsAhead u = (bitsAhead s).drop (8 * (pre.length + 1)) ∧
        u = { s with inPos := u.inPos, brBuf := u.brBuf, brAvail := u.brAvail, freq := u.freq, phase := .pass1 })

/-- R157: `RemoveMin` takes an entry of the queue, once, with a frequency no other is below; under the `fifo` policy the
one inserted first among those of least frequency. A merge of R156 makes the first removed the left child, the second
the right, and adds their frequencies. -/
def Obligations.RemoveMinTakesTheLeast : Prop :=
  (∀ (s s' : State) (x : PQEntry), removeMin s = some (x, s') →
    x ∈ s.pq ∧ (∀ y ∈ s.pq, x.freq ≤ y.freq) ∧ s'.pq = s.pq.erase x ∧
    (s.cfg.tiePolicy = .fifo → ∀ y ∈ s.pq, y.freq = x.freq → x.seq ≤ y.seq)) ∧
  (∀ s : State, s.pq ≠ [] → ∃ x s', removeMin s = some (x, s')) ∧
  (∀ (q : Nat) (s : State), 2 ≤ s.pq.length →
    ∃ x s1 y s2, removeMin s = some (x, s1) ∧ removeMin s1 = some (y, s2) ∧
      mergeOnce q s = some { s2 with
        pq := s2.pq ++ [{ freq := x.freq + y.freq, seq := BitVec.ofNat 9 q, node := .internal x.node y.node }] })

/-- R156, R158, R159, R161: `BUILD` refuses an empty table; one non-zero slot `b` gives `Internal(Leaf(b),
Leaf((b + 1) mod 256))`; `L ≥ 2` non-zero slots give a tree that greedy merging of their leaves leaves, two entries of least
frequency at a time, under some choice among ties; it has an `Internal` root, `2L - 1` nodes and exactly one leaf for
each. `PTR` is at the root, the table is invalid, and nothing else but the draws changes. -/
def Obligations.BuildMakesTheTree : Prop :=
  ∀ s : State,
    (nonZeroSlots s.freq = [] →
      ∃ d, exec .build s = .next (faultEntry 0x24#8 ⟨.noSymbol, 0#8⟩ { s with
        tree := none, ptr := none, nnodes := 0#9, code := emptyCode, tabValid := false, pq := [], draws := d
        phase := .build })) ∧
    (∀ b, nonZeroSlots s.freq = [b] →
      ∃ d, exec .build s = .next { s with
        tree := some (.internal (.leaf b) (.leaf (b + 1#8))), ptr := some [], nnodes := 3#9, code := emptyCode
        tabValid := false, pq := [], draws := d, phase := .idle }) ∧
    (2 ≤ (nonZeroSlots s.freq).length →
      ∃ T d, exec .build s = .next { s with
          tree := some T, ptr := some [], nnodes := BitVec.ofNat 9 (treeNodes T), code := emptyCode
          tabValid := false, pq := [], draws := d, phase := .idle } ∧
        GreedyMerge (leafQueue s.freq) T ∧ isInternal T = true ∧ (leafBytes T).Perm (nonZeroSlots s.freq) ∧
        treeNodes T = 2 * (nonZeroSlots s.freq).length - 1)

/-- R160(c), R161: two non-zero slots with different counts give `Internal(Leaf(x), Leaf(y))` with the smaller count
first, so both codewords have one bit, the more frequent byte's no longer than the other's. -/
def Obligations.TwoSlotsByCount : Prop :=
  ∀ (s t : State) (x y : Byte), nonZeroSlots s.freq = [x, y] ∨ nonZeroSlots s.freq = [y, x] →
    (slotGet s.freq x).toNat < (slotGet s.freq y).toNat → exec .build s = .next t →
    t.tree = some (.internal (.leaf x) (.leaf y)) ∧ codewordOf (.internal (.leaf x) (.leaf y)) y = some [true] ∧
      codewordOf (.internal (.leaf x) (.leaf y)) x = some [false]

/-! ## Encoding table -/

/-- R171, R172: `MKTAB` records for every leaf value the path to it and nothing for other bytes; it refuses a tree with a
repeated leaf value, with the first repeating byte in pre-order as datum, and leaves the table empty. -/
def Obligations.MktabRecordsThePaths : Prop :=
  ∀ (s : State) (T : HuffTree), s.tree = some T →
    ((leafBytes T).Nodup →
      ∃ code : CodeTable, exec .mktab s = .next { s with code := code, tabValid := true, phase := .idle } ∧
        ∀ b, slotGet code b = codewordOf T b) ∧
    (∀ pre v post, leafBytes T = pre ++ v :: post → pre.Nodup → v ∈ pre →
      exec .mktab s = .next (faultEntry 0x30#8 ⟨.dupLeaf, v⟩
        { s with code := emptyCode, tabValid := false, phase := .table }))

/-- R104, R179(a)(b)(c): after a `MKTAB` that did not fault, from a state with the invariants of R44, the valid entries
are the leaf values, every codeword is non-empty, leads to its byte's leaf, and none is a prefix of another. -/
def Obligations.CodewordsArePrefixFree : Prop :=
  ∀ s t : State, Inv s → exec .mktab s = .next t → t.tabValid = true → t.err = 0#4 →
    ∃ T, t.tree = some T ∧
      (∀ b, slotGet t.code b ≠ none ↔ b ∈ leafBytes T) ∧
      (∀ b c, slotGet t.code b = some c → c ≠ [] ∧ c.length ≤ 255 ∧ nodeAt T c = some (.leaf b)) ∧
      (∀ b b' c c', slotGet t.code b = some c → slotGet t.code b' = some c' → c <+: c' → b = b')

/-- R23, R173, R174: `LOOKUP` shows the codeword's length in `CLEN` and `RESULT` and its bits in `CBITS`, first bit
most significant, every other bit 0; with no entry it faults, with the byte as datum, and writes none of them. -/
def Obligations.LookupShowsTheCodeword : Prop :=
  ∀ (v : Byte) (s : State),
    (∀ c, slotGet s.code v = some c → c.length ≤ 255 →
      ∃ V : BitVec 256,
        exec (.lookup v) s = .next { s with
          clen := BitVec.ofNat 8 c.length, cbits := V, result := BitVec.ofNat 32 c.length, phase := .idle } ∧
        (∀ j, j < 256 → V.getLsbD (255 - j) = c.getD j false)) ∧
    (slotGet s.code v = none →
      exec (.lookup v) s = .next (faultEntry 0x31#8 ⟨.noEntry, v⟩ { s with phase := .table }))

/-- R175 to R178: `ENCSYM` appends one codeword and `ENCODE` those of every whole byte ahead, in order, ending with
`BR.eof` set; a byte without an entry, or a sequence that would pass `ENC_CAP`, makes `ENCSYM` fault with `ENC`
unchanged, and makes `ENCODE` fault at that byte, the codewords of the bytes before it in `ENC` and the reader right after
it. -/
def Obligations.EncodingAppendsCodewords : Prop :=
  (∀ (v : Byte) (s : State),
    (slotGet s.code v = none →
      exec (.encsym v) s = .next (faultEntry 0x32#8 ⟨.noEntry, v⟩ { s with phase := .pass2 })) ∧
    (∀ c, slotGet s.code v = some c → s.cfg.encCap.toNat < s.enc.length + c.length →
      exec (.encsym v) s = .next (faultEntry 0x32#8 ⟨.encFull, 0#8⟩ { s with phase := .pass2 })) ∧
    (∀ c, slotGet s.code v = some c → s.enc.length + c.length ≤ s.cfg.encCap.toNat →
      exec (.encsym v) s = .next { s with enc := s.enc ++ c, phase := .idle })) ∧
  (∀ s : State, Readable s → (∀ b ∈ passBytes s, slotGet s.code b ≠ none) →
    s.enc.length + (codesOf s.code (passBytes s)).length ≤ s.cfg.encCap.toNat →
    ∃ t, exec .encode s = .next t ∧ t.enc = s.enc ++ codesOf s.code (passBytes s) ∧
      t.brEof = true ∧ (s.brEof = false → bitsAhead t = []) ∧
      t = { s with
        inPos := t.inPos, brBuf := t.brBuf, brAvail := t.brAvail, brEof := true, draws := t.draws
        enc := t.enc, phase := .idle }) ∧
  (∀ (s : State) (pre : List Byte) (v : Byte) (post : List Byte) (c : Cause), Readable s →
    passBytes s = pre ++ v :: post → (∀ b ∈ pre, slotGet s.code b ≠ none) →
    s.enc.length + (codesOf s.code pre).length ≤ s.cfg.encCap.toNat →
    (slotGet s.code v = none ∧ c = ⟨.noEntry, v⟩) ∨
      (∃ w, slotGet s.code v = some w ∧ s.cfg.encCap.toNat < s.enc.length + (codesOf s.code pre).length + w.length ∧
        c = ⟨.encFull, 0#8⟩) →
    ∃ u, exec .encode s = .next (faultEntry 0x33#8 c u) ∧ bitsAhead u = (bitsAhead s).drop (8 * (pre.length + 1)) ∧
      u = { s with
        inPos := u.inPos, brBuf := u.brBuf, brAvail := u.brAvail, enc := s.enc ++ codesOf s.code pre, phase := .pass2 })

/-- R74, R295: whatever way `BUILD` or `DESTREE` ends, the table is empty, so the next `LOOKUP` finds no entry. -/
def Obligations.TableNeverOutlivesTheTree : Prop :=
  ∀ s t : State, exec .build s = .next t ∨ exec .destree s = .next t →
    t.tabValid = false ∧
    ∀ v, slotGet t.code v = none ∧
      exec (.lookup v) t = .next (faultEntry 0x31#8 ⟨.noEntry, v⟩ { t with phase := .table })

/-! ## Serializer -/

/-- R101, R102, R191, R192: through an open writer into a healthy store `SERTREE` writes exactly `Ser(TREE)`, which has
`10L - 1` bits, and records that number; the tree stays. -/
def Obligations.SertreeWritesTheTree : Prop :=
  ∀ (s : State) (T : HuffTree), s.tree = some T → s.outOpen = true → outSteady s →
    (ser T).length = 10 * treeLeaves T - 1 ∧
    ∃ t, exec .sertree s = .next t ∧ bitsWritten t = bitsWritten s ++ ser T ∧
      t.treebits = BitVec.ofNat 12 (ser T).length ∧
      t = { s with
        bwBuf := t.bwBuf, bwCnt := t.bwCnt, outStore := { s.outStore with data := t.outStore.data }
        treebits := t.treebits, phase := .idle }

/-- R193, R194, R195: standing at the first bit of `Ser(T)`, for a `T` with an `Internal` root and at most 511 nodes,
`DESTREE` makes `T` the tree, counts its nodes, and stops right after its last bit. -/
def Obligations.DestreeReadsTheTree : Prop :=
  ∀ (s : State) (T : HuffTree) (rest : Bits), Readable s → s.brEof = false → bitsAhead s = ser T ++ rest →
    isInternal T = true → treeNodes T ≤ 511 →
    ∃ t, exec .destree s = .next t ∧ t.tree = some T ∧ t.ptr = some [] ∧ t.nnodes.toNat = treeNodes T ∧
      bitsAhead t = rest ∧
      t = { s with
        inPos := t.inPos, brBuf := t.brBuf, brAvail := t.brAvail, tree := some T, ptr := some []
        nnodes := t.nnodes, code := emptyCode, tabValid := false, phase := .idle }

/-- R193, R194, R195: `DESTREE` refuses a store that ends inside `Ser(T)`, with `EOF_TAG` or `EOF_BYTE` whatever is
drawn; a tree that is a single leaf, with `ROOT_LEAF`; a tree of more than 511 nodes, with `TREE_TOO_BIG` at the 512th; and
everything once `BR.eof` is set. No tree stands afterwards. -/
def Obligations.DestreeRefusals : Prop :=
  (∀ (s : State) (T : HuffTree) (missing : Bits), Readable s → bitsAhead s ++ missing = ser T → missing ≠ [] →
    treeNodes T ≤ 511 →
    ∃ t, exec .destree s = .next t ∧ t.err = 2#4 ∧ t.tree = none ∧ t.ptr = none ∧
      (t.errinfo = 0x00410A10#32 ∨ t.errinfo = 0x00410A11#32)) ∧
  (∀ (s : State) (v : Byte) (rest : Bits), Readable s → s.brEof = false → bitsAhead s = true :: (byteBits v ++ rest) →
    ∃ t, exec .destree s = .next t ∧ t.err = 2#4 ∧ t.errinfo = 0x00410A12#32 ∧ t.tree = none ∧ t.nnodes = 1#9) ∧
  (∀ (s : State) (T : HuffTree) (rest : Bits), Readable s → s.brEof = false → bitsAhead s = ser T ++ rest →
    511 < treeNodes T →
    ∃ t, exec .destree s = .next t ∧ t.err = 5#4 ∧ t.errinfo = 0x00410A42#32 ∧ t.tree = none ∧ t.nnodes = 511#9) ∧
  (∀ s : State, Readable s → s.brEof = true →
    ∃ t, exec .destree s = .next t ∧ t.err = 2#4 ∧ t.errinfo = 0x00410A10#32 ∧ t.tree = none ∧ t.nnodes = 0#9)

/-! ## Compressor -/

/-- R105, R211 to R214: `WRPAD` records and writes, as one byte, the count that completes `TREEBITS + ENCLEN` bits to
whole bytes; `WRENC` writes every bit of `ENC` and leaves it. On a broken store `WRPAD` faults, `PAD` keeping the computed
value, and so does `WRENC` once it completes a byte. -/
def Obligations.WrpadAndWrenc : Prop :=
  (∀ s : State, s.outOpen = true → (outAsk s.outStore).ok = false →
    exec .wrpad s = .next (faultEntry 0x50#8 ⟨.outBroken, 0#8⟩ { s with
      pad := BitVec.ofNat 3 ((8 - (s.treebits.toNat + s.enc.length) % 8) % 8), outStore := outAsk s.outStore
      phase := .padding }) ∧
    (8 ≤ s.bwCnt.toNat + s.enc.length →
      exec .wrenc s = .next (faultEntry 0x51#8 ⟨.outBroken, 0#8⟩ { s with
        outStore := outAsk s.outStore, phase := .payload }))) ∧
  ∀ s : State, s.outOpen = true → outSteady s →
    (∃ t p, exec .wrpad s = .next t ∧ p < 8 ∧ (s.treebits.toNat + s.enc.length + p) % 8 = 0 ∧
      t.pad = BitVec.ofNat 3 p ∧ bitsWritten t = bitsWritten s ++ byteBits (BitVec.ofNat 8 p) ∧ t.bwCnt = s.bwCnt ∧
      t = { s with
        bwBuf := t.bwBuf, outStore := { s.outStore with data := t.outStore.data }, pad := t.pad, phase := .idle }) ∧
    (∃ t, exec .wrenc s = .next t ∧ bitsWritten t = bitsWritten s ++ s.enc ∧
      t = { s with
        bwBuf := t.bwBuf, bwCnt := t.bwCnt, outStore := { s.outStore with data := t.outStore.data }
        phase := .idle })

/-- R103, R210, R215, R216: with both handles closed and healthy stores, `COMPRESS` of a non-empty input whose payload fits
`ENC_CAP`, whichever tree ties lead to, writes exactly `File(T, payload)` for a tree `T` that `Build` can make of the input's
byte counts: one leaf for each byte value of the input (or R158's tree); closes both stores, and leaves only the counters of
the call. -/
def Obligations.CompressWritesTheFile : Prop :=
  ∀ s : State, s.inOpen = false → s.outOpen = false → s.inStore.present = true → s.outStore.creatable = true →
    inSteady s → outSteady s → s.inStore.data ≠ [] → s.inStore.data.length ≤ 2 ^ 32 - 1 →
    (∀ T, BuildsFrom s.inStore.data T → (payloadOf T s.inStore.data).length ≤ s.cfg.encCap.toNat) →
    ∃ u T, exec .compress s = .next u ∧ BuildsFrom s.inStore.data T ∧
      isInternal T = true ∧ (leafBytes T).Nodup ∧ (∀ b ∈ s.inStore.data, b ∈ leafBytes T) ∧
      ((∃ b, (∀ x ∈ s.inStore.data, x = b) ∧ T = .internal (.leaf b) (.leaf (b + 1#8))) ∨
        ∀ b ∈ leafBytes T, b ∈ s.inStore.data) ∧
      bitsOf u.outStore.data = fileBits T (payloadOf T s.inStore.data) ∧
      u = { State.reset with
        inStore := s.inStore, outStore := { s.outStore with data := u.outStore.data }, cfg := s.cfg, draws := u.draws
        host := s.host, rdata := s.rdata
        inPos := u.inPos, brBuf := u.brBuf, brAvail := u.brAvail, brEof := true
        pad := BitVec.ofNat 3 (paddingOf T (payloadOf T s.inStore.data))
        treebits := BitVec.ofNat 12 (ser T).length, nnodes := BitVec.ofNat 9 (treeNodes T) }

/-- R159, R215 corner cases (a) and (c): `COMPRESS` of an empty input faults with `EmptyInputError` in phase `BUILD`, the
output created and empty; a missing input is found before the output is touched; then an output that cannot be
created. -/
def Obligations.CompressRefusals : Prop :=
  ∀ s : State, s.inOpen = false → s.outOpen = false →
    (s.inStore.present = true → s.outStore.creatable = true → s.inStore.data = [] →
      ∃ u, exec .compress s = .next u ∧ u.err = 4#4 ∧ u.errinfo = 0x00520330#32 ∧ u.outStore.data = [] ∧
        u.inOpen = false ∧ u.outOpen = false ∧ u.brEof = true) ∧
    (s.inStore.present = false →
      ∃ u, exec .compress s = .next u ∧ u.err = 1#4 ∧ u.errinfo = 0x00520101#32 ∧ u.outStore = s.outStore) ∧
    (s.inStore.present = true → s.inStore.data.length ≤ 2 ^ 32 - 1 → s.outStore.creatable = false →
      ∃ u, exec .compress s = .next u ∧ u.err = 1#4 ∧ u.errinfo = 0x00520102#32 ∧ u.outStore = s.outStore)

/-! ## Decompressor -/

/-- R231, R232: `RDPAD` takes the next byte as the padding count; it refuses a value above 7, with that byte as datum, a
store that ends inside the byte, and any read once `BR.eof` is set, and then `PAD` is unchanged. -/
def Obligations.RdpadReadsTheCount : Prop :=
  ∀ (s : State), Readable s →
    (∀ (v : Byte) (rest : Bits), s.brEof = false → bitsAhead s = byteBits v ++ rest → v.toNat ≤ 7 →
      ∃ t, exec .rdpad s = .next t ∧ t.pad.toNat = v.toNat ∧ bitsAhead t = rest ∧
        t = { s with
          inPos := t.inPos, brBuf := t.brBuf, brAvail := t.brAvail, pad := t.pad, phase := .idle }) ∧
    (∀ (v : Byte) (rest : Bits), s.brEof = false → bitsAhead s = byteBits v ++ rest → 7 < v.toNat →
      ∃ t, exec .rdpad s = .next t ∧ t.err = 2#4 ∧ t.errinfo = v ++ 0x580B14#24 ∧ t.pad = s.pad) ∧
    ((bitsAhead s).length < 8 ∨ s.brEof = true →
      ∃ t, exec .rdpad s = .next t ∧ t.err = 2#4 ∧ t.errinfo = 0x00580B13#32 ∧ t.pad = s.pad)

/-- R233, R234, R238: with `PTR` at an `Internal` node, `DECBIT b` goes left on 0 and right on 1. At a leaf it writes the
byte, returns to the root and shows the byte; elsewhere it needs no open writer. With the writer closed it faults at a
leaf, `PTR` and `RESULT` unchanged. -/
def Obligations.DecbitTakesOneStep : Prop :=
  ∀ (a : Byte) (s : State) (T l r : HuffTree) (path : Bits), s.tree = some T → s.ptr = some path →
    nodeAt T path = some (.internal l r) →
    (∀ l' r', (if a.getLsbD 0 then r else l) = .internal l' r' →
      exec (.decbit a) s = .next { s with ptr := some (path ++ [a.getLsbD 0]), result := 0#32, phase := .idle }) ∧
    (∀ v, (if a.getLsbD 0 then r else l) = .leaf v → s.outOpen = true → outSteady s →
      ∃ t, exec (.decbit a) s = .next t ∧ bitsWritten t = bitsWritten s ++ byteBits v ∧ t.bwCnt = s.bwCnt ∧
        t = { s with
          bwBuf := t.bwBuf, outStore := { s.outStore with data := t.outStore.data }
          ptr := some [], result := 0#23 ++ 1#1 ++ v, phase := .idle }) ∧
    (∀ v, (if a.getLsbD 0 then r else l) = .leaf v → s.outOpen = false →
      exec (.decbit a) s = .next (faultEntry 0x59#8 ⟨.outClosed, 0#8⟩ { s with phase := .decode }))

/-- R106, R235, R236: `DECODE` feeds all the bits ahead but the last `PAD` to the traversal, from the root, and writes the
bytes it emits; with fewer than `PAD` bits ahead it includes none. The last `PAD` bits stay unread, and a walk that ends
inside the tree is no error. -/
def Obligations.DecodeReplaysThePayload : Prop :=
  ∀ (s : State) (T : HuffTree), Readable s → s.tree = some T → isInternal T = true → s.outOpen = true → outSteady s →
    ∃ t path l r, exec .decode s = .next t ∧
      bitsWritten t = bitsWritten s ++
        bitsOf (replay T T ((bitsAhead s).take ((bitsAhead s).length - s.pad.toNat))) ∧
      bitsAhead t = (bitsAhead s).drop ((bitsAhead s).length - s.pad.toNat) ∧
      t.ptr = some path ∧ nodeAt T path = some (.internal l r) ∧
      t = { s with
        inPos := t.inPos, brBuf := t.brBuf, brAvail := t.brAvail
        bwBuf := t.bwBuf, bwCnt := t.bwCnt, outStore := { s.outStore with data := t.outStore.data }
        ptr := t.ptr, phase := .idle }

/-- R106, R230, R237: `DECOMPRESS` of a file that begins with `Ser(T)` and a padding count up to 7 writes the bytes that
the traversal of `T` emits for the payload bits, closes both stores, and leaves only the counters of the call. -/
def Obligations.DecompressReplaysTheFile : Prop :=
  ∀ (s : State) (T : HuffTree) (p : Byte) (rest : Bits), s.inOpen = false → s.outOpen = false →
    s.inStore.present = true → s.outStore.creatable = true → inSteady s → outSteady s →
    s.inStore.data.length ≤ 2 ^ 32 - 1 → isInternal T = true → treeNodes T ≤ 511 → p.toNat ≤ 7 →
    bitsOf s.inStore.data = ser T ++ byteBits p ++ rest →
    ∃ u, exec .decompress s = .next u ∧
      u.outStore.data = replay T T (rest.take (rest.length - p.toNat)) ∧
      u = { State.reset with
        inStore := s.inStore, outStore := { s.outStore with data := u.outStore.data }, cfg := s.cfg, draws := s.draws
        host := s.host, rdata := s.rdata
        inPos := u.inPos, brBuf := u.brBuf, brAvail := u.brAvail
        pad := BitVec.ofNat 3 p.toNat, nnodes := BitVec.ofNat 9 (treeNodes T) }

/-- R195, R237 corner cases (a), (b): `DECOMPRESS` of a store that ends inside the serialized tree faults with
`CorruptFormatError` in phase `DESERIALIZE`, the output created and empty. -/
def Obligations.DecompressRefusesTruncation : Prop :=
  ∀ (s : State) (T : HuffTree) (missing : Bits), s.inOpen = false → s.outOpen = false →
    s.inStore.present = true → s.outStore.creatable = true → inSteady s →
    s.inStore.data.length ≤ 2 ^ 32 - 1 → treeNodes T ≤ 511 → missing ≠ [] →
    bitsOf s.inStore.data ++ missing = ser T →
    ∃ u, exec .decompress s = .next u ∧ u.err = 2#4 ∧ (u.errinfo = 0x005B0A10#32 ∨ u.errinfo = 0x005B0A11#32) ∧
      u.outStore.data = [] ∧ u.inOpen = false ∧ u.outOpen = false ∧ u.tree = none

/-- R239: whatever `COMPRESS` writes for a non-empty input, under any tie choice, `DECOMPRESS` turns back into that
input: if both end without a fault on healthy stores, the output of the second is the input of the first. -/
def Obligations.RoundTrip : Prop :=
  ∀ s u s' u' : State, inSteady s → outSteady s → exec .compress s = .next u → u.err = 0#4 →
    s'.inStore.data = u.outStore.data → inSteady s' → outSteady s' →
    exec .decompress s' = .next u' → u'.err = 0#4 →
    u'.outStore.data = s.inStore.data

/-- R302: a macro command that ends without a fault leaves no tree, table, count, bit sequence or pointer, both handles
closed, and `RESULT`, `CLEN`, `CBITS` at 0. -/
def Obligations.MacrosLeaveNothing : Prop :=
  ∀ (i : Instr) (s t : State), i = .compress ∨ i = .decompress → exec i s = .next t → t.err = 0#4 →
    t.tree = none ∧ t.ptr = none ∧ t.tabValid = false ∧ (∀ b, slotGet t.code b = none) ∧
    (∀ b, slotGet t.freq b = 0#32) ∧ t.enc = [] ∧ t.pq = [] ∧ t.inOpen = false ∧ t.outOpen = false ∧
    t.bwCnt = 0#3 ∧ t.result = 0#32 ∧ t.clen = 0#8 ∧ t.cbits = 0#256

/-! ## What is refused -/

/-- R292: the commands that need an open reader, an open writer, a tree, or closed handles, issued without: the fault
each takes, and that nothing but what its rule writes first has changed (`WRPAD` has written the computed `PAD`, R212;
`DECODE` without a writer is `DecodeWithoutWriter`). -/
def Obligations.MissingPreconditions : Prop :=
  ∀ s : State,
    (s.inOpen = false →
      exec .rdbit s = .next (faultEntry 0x19#8 ⟨.inClosed, 0#8⟩ { s with phase := .bitio }) ∧
      exec .rdbyte s = .next (faultEntry 0x1A#8 ⟨.inClosed, 0#8⟩ { s with phase := .bitio }) ∧
      exec .closer s = .next (faultEntry 0x1C#8 ⟨.inClosed, 0#8⟩ { s with phase := .close }) ∧
      exec .rewind s = .next (faultEntry 0x1D#8 ⟨.inClosed, 0#8⟩ { s with phase := .bitio }) ∧
      exec .tally s = .next (faultEntry 0x23#8 ⟨.inClosed, 0#8⟩ { s with phase := .pass1 }) ∧
      exec .encode s = .next (faultEntry 0x33#8 ⟨.inClosed, 0#8⟩ { s with phase := .pass2 }) ∧
      exec .destree s = .next (faultEntry 0x41#8 ⟨.inClosed, 0#8⟩ { s with
        tree := none, ptr := none, nnodes := 0#9, code := emptyCode, tabValid := false, phase := .deserialize }) ∧
      exec .rdpad s = .next (faultEntry 0x58#8 ⟨.inClosed, 0#8⟩ { s with phase := .rdpad }) ∧
      (s.tree ≠ none → exec .decode s = .next (faultEntry 0x5A#8 ⟨.inClosed, 0#8⟩ { s with phase := .decode }))) ∧
    (s.outOpen = false →
      (∀ a, exec (.wrbit a) s = .next (faultEntry 0x11#8 ⟨.outClosed, 0#8⟩ { s with phase := .bitio })) ∧
      (∀ a, exec (.wrbyte a) s = .next (faultEntry 0x12#8 ⟨.outClosed, 0#8⟩ { s with phase := .bitio })) ∧
      exec .closew s = .next (faultEntry 0x14#8 ⟨.outClosed, 0#8⟩ { s with phase := .close }) ∧
      (s.tree ≠ none →
        exec .sertree s = .next (faultEntry 0x40#8 ⟨.outClosed, 0#8⟩ { s with phase := .serialize })) ∧
      exec .wrpad s = .next (faultEntry 0x50#8 ⟨.outClosed, 0#8⟩ { s with
        pad := BitVec.ofNat 3 ((8 - (s.treebits.toNat + s.enc.length) % 8) % 8), phase := .padding }) ∧
      (s.enc = [] → exec .wrenc s = .next { s with phase := .idle }) ∧
      (s.enc ≠ [] → exec .wrenc s = .next (faultEntry 0x51#8 ⟨.outClosed, 0#8⟩ { s with phase := .payload }))) ∧
    (s.tree = none →
      exec .mktab s = .next (faultEntry 0x30#8 ⟨.noTree, 0#8⟩ { s with phase := .table }) ∧
      exec .sertree s = .next (faultEntry 0x40#8 ⟨.noTree, 0#8⟩ { s with phase := .serialize }) ∧
      (∀ a, exec (.decbit a) s = .next (faultEntry 0x59#8 ⟨.noTree, 0#8⟩ { s with phase := .decode })) ∧
      exec .decode s = .next (faultEntry 0x5A#8 ⟨.noTree, 0#8⟩ { s with phase := .decode })) ∧
    (s.inOpen = true ∨ s.outOpen = true →
      exec .compress s = .next (faultEntry 0x52#8 ⟨.alreadyOpen, 0#8⟩ { s with phase := .idle }) ∧
      exec .decompress s = .next (faultEntry 0x5B#8 ⟨.alreadyOpen, 0#8⟩ { s with phase := .idle }))

/-- R235, R236, R292: `DECODE` with the writer closed: when the included bits begin with a codeword, it faults with
`OUT_CLOSED` at the codeword's last bit, which has been read while `PTR` has not left the node above the leaf; when they
end inside the tree, it needs no writer and leaves `PTR` there. -/
def Obligations.DecodeWithoutWriter : Prop :=
  ∀ (s : State) (T : HuffTree), Readable s → s.tree = some T → isInternal T = true → s.outOpen = false →
    (∀ word rest v, (bitsAhead s).take ((bitsAhead s).length - s.pad.toNat) = word ++ rest →
      nodeAt T word = some (.leaf v) →
      ∃ u, exec .decode s = .next (faultEntry 0x5A#8 ⟨.outClosed, 0#8⟩ u) ∧
        bitsAhead u = (bitsAhead s).drop word.length ∧
        u = { s with
          inPos := u.inPos, brBuf := u.brBuf, brAvail := u.brAvail, ptr := some word.dropLast, phase := .decode }) ∧
    (∀ l r, nodeAt T ((bitsAhead s).take ((bitsAhead s).length - s.pad.toNat)) = some (.internal l r) →
      ∃ t, exec .decode s = .next t ∧
        bitsAhead t = (bitsAhead s).drop ((bitsAhead s).length - s.pad.toNat) ∧
        t = { s with
          inPos := t.inPos, brBuf := t.brBuf, brAvail := t.brAvail
          ptr := some ((bitsAhead s).take ((bitsAhead s).length - s.pad.toNat)), phase := .idle })
end

