-- ==== Sys2Proof/Laws/Bits.lean ====
section
/-! SUPPORT. Bits and bytes (R66): a byte is its eight bits and back, and what `setBit` does to the written part of the
buffer. -/

namespace Sys2Proof.Machine

set_option Elab.async false

@[simp] theorem byteBits_length (v : Byte) : (byteBits v).length = 8 := rfl

theorem bitsOf_nil : bitsOf [] = [] := rfl

theorem bitsOf_cons (v : Byte) (vs : List Byte) : bitsOf (v :: vs) = byteBits v ++ bitsOf vs := by
  simp [bitsOf]

theorem bitsOf_append (vs ws : List Byte) : bitsOf (vs ++ ws) = bitsOf vs ++ bitsOf ws := by
  simp [bitsOf]

theorem bitsOf_length (vs : List Byte) : (bitsOf vs).length = 8 * vs.length := by
  induction vs with
  | nil => rfl
  | cons v vs ih => simp [bitsOf_cons, ih]; omega

/-- The byte of a byte's eight bits is that byte (R66, R138). -/
theorem byteOfBits_byteBits (v : Byte) : byteOfBits (byteBits v) = v := by
  revert v
  decide +kernel

/-- The bits of the byte that eight bits make are those eight bits. -/
theorem byteBits_byteOfBits (b7 b6 b5 b4 b3 b2 b1 b0 : Bool) :
    byteBits (byteOfBits [b7, b6, b5, b4, b3, b2, b1, b0]) = [b7, b6, b5, b4, b3, b2, b1, b0] := by
  revert b7 b6 b5 b4 b3 b2 b1 b0
  decide +kernel

theorem byteBits_injective {v w : Byte} (h : byteBits v = byteBits w) : v = w := by
  rw [← byteOfBits_byteBits v, h, byteOfBits_byteBits]

/-- `BW.buf[7 - c] <- b` makes the written part of the buffer one bit longer (R131). -/
theorem take_setBit (v : BitVec 8) (c : Nat) (hc : c < 8) (b : Bool) :
    (byteBits (setBit v (7 - c) b)).take (c + 1) = (byteBits v).take c ++ [b] := by
  have h : ∀ (v : BitVec 8) (c : Fin 8) (b : Bool),
      (byteBits (setBit v (7 - c.val) b)).take (c.val + 1) = (byteBits v).take c.val ++ [b] := by
    decide +kernel
  exact h v ⟨c, hc⟩ b

/-- The bits below the one written stay as they were (R131). -/
theorem getLsbD_setBit_low (v : BitVec 8) (c k : Nat) (hc : c < 8) (hk : k < 7 - c) (b : Bool) :
    (setBit v (7 - c) b).getLsbD k = v.getLsbD k := by
  have h : ∀ (v : BitVec 8) (c k : Fin 8) (b : Bool), k.val < 7 - c.val →
      (setBit v (7 - c.val) b).getLsbD k.val = v.getLsbD k.val := by
    decide +kernel
  exact h v ⟨c, hc⟩ ⟨k, by omega⟩ b hk

/-- With the bits not yet written 0, the whole buffer is its written part and a zero fill (R72, R146). -/
theorem byteBits_zeroFill (v : BitVec 8) (c : Nat) (hc : c < 8) (h0 : ∀ k, k < 8 - c → v.getLsbD k = false) :
    byteBits v = (byteBits v).take c ++ List.replicate (8 - c) false := by
  have h : ∀ (v : BitVec 8) (c : Fin 8), (∀ k : Fin 8, k.val < 8 - c.val → v.getLsbD k.val = false) →
      byteBits v = (byteBits v).take c.val ++ List.replicate (8 - c.val) false := by
    decide +kernel
  exact h v ⟨c, hc⟩ (fun k hk => h0 k.val hk)

/-- The next bit of the reader's buffer (R34, R137). -/
theorem drop_byteBits (v : BitVec 8) (a : Nat) (ha : 0 < a) (h8 : a ≤ 8) :
    (byteBits v).drop (8 - a) = v.getLsbD (a - 1) :: (byteBits v).drop (8 - (a - 1)) := by
  have h : ∀ (v : BitVec 8) (c : Fin 8),
      (byteBits v).drop (8 - (c.val + 1)) = v.getLsbD c.val :: (byteBits v).drop (8 - c.val) := by
    decide +kernel
  have := h v ⟨a - 1, by omega⟩
  simpa [Nat.sub_add_cancel ha] using this

theorem bitsNat_append (xs ys : Bits) : bitsNat (xs ++ ys) = bitsNat xs * 2 ^ ys.length + bitsNat ys := by
  have key : ∀ (ys : Bits) (a : Nat),
      ys.foldl (fun acc b => 2 * acc + b.toNat) a = a * 2 ^ ys.length + bitsNat ys := by
    intro ys
    induction ys with
    | nil => intro a; simp [bitsNat]
    | cons y ys ih =>
      intro a
      simp only [List.foldl_cons, List.length_cons, bitsNat]
      rw [ih, ih (2 * 0 + y.toNat)]
      simp [pow_succ]
      ring
  simp only [bitsNat, List.foldl_append]
  exact key ys _

theorem bitsNat_lt (bs : Bits) : bitsNat bs < 2 ^ bs.length := by
  induction bs using List.reverseRecOn with
  | nil => simp [bitsNat]
  | append_singleton bs b ih =>
    have : b.toNat < 2 := Bool.toNat_lt b
    rw [bitsNat_append]
    simp only [List.length_append, List.length_singleton, pow_succ, pow_zero]
    have hb : bitsNat [b] = b.toNat := by simp [bitsNat]
    omega

/-- The whole bytes of a byte sequence's bits are that sequence (R66). -/
theorem wholeBytes_bitsOf (vs : List Byte) : wholeBytes (bitsOf vs) = vs := by
  induction vs with
  | nil => rfl
  | cons v vs ih =>
    rw [bitsOf_cons]
    change byteOfBits (byteBits v) :: wholeBytes (bitsOf vs) = v :: vs
    rw [byteOfBits_byteBits, ih]

theorem wholeBytes_short {bs : Bits} (h : bs.length < 8) : wholeBytes bs = [] := by
  match bs, h with
  | [], _ | [_], _ | [_, _], _ | [_, _, _], _ | [_, _, _, _], _ | [_, _, _, _, _], _ | [_, _, _, _, _, _], _
  | [_, _, _, _, _, _, _], _ => rfl
  | _ :: _ :: _ :: _ :: _ :: _ :: _ :: _ :: _, h => simp at h; omega

theorem wholeBytes_step {bs : Bits} (h : 8 ≤ bs.length) :
    wholeBytes bs = byteOfBits (bs.take 8) :: wholeBytes (bs.drop 8) := by
  match bs, h with
  | _ :: _ :: _ :: _ :: _ :: _ :: _ :: _ :: _, _ => rfl

theorem wholeBytes_length_le (bs : Bits) : (wholeBytes bs).length ≤ bs.length / 8 := by
  induction hl : bs.length using Nat.strong_induction_on generalizing bs with
  | _ n ih =>
    by_cases h8 : 8 ≤ bs.length
    · have := ih (bs.drop 8).length (by rw [List.length_drop]; omega) (bs.drop 8) rfl
      rw [wholeBytes_step h8, List.length_cons]
      rw [List.length_drop] at this
      omega
    · rw [wholeBytes_short (by omega), List.length_nil]
      omega

/-- The first whole byte ahead, and the bytes behind it. -/
theorem wholeBytes_cons {bs : Bits} {v : Byte} {rest : List Byte} (h : wholeBytes bs = v :: rest) :
    8 ≤ bs.length ∧ byteOfBits (bs.take 8) = v ∧ wholeBytes (bs.drop 8) = rest := by
  have h8 : 8 ≤ bs.length := by
    by_contra hh
    rw [wholeBytes_short (by omega)] at h
    cases h
  rw [wholeBytes_step h8] at h
  exact ⟨h8, List.cons.inj h⟩

end Sys2Proof.Machine
end

