-- ==== Sys2Proof/Laws/Micro.lean ====
section
/-! SUPPORT. Sequencing of micro-operations and the frame of a command: one lemma per way each can end. -/

namespace Sys2Proof.Machine

variable {α β : Type}

theorem Micro.bind_ok {x : Micro α} {f : α → Micro β} {s s' : State} {a : α} (h : x s = .ok a s') :
    (x >>= f) s = f a s' := by
  change EStateM.bind x f s = _
  simp [EStateM.bind, h]

theorem Micro.bind_error {x : Micro α} {f : α → Micro β} {s s' : State} {c : Cause} (h : x s = .error c s') :
    (x >>= f) s = .error c s' := by
  change EStateM.bind x f s = _
  simp [EStateM.bind, h]

theorem Micro.pure_ok (a : α) (s : State) : (pure a : Micro α) s = .ok a s := rfl

/-- A sequence ends well only through both parts. -/
theorem Micro.bind_ok_inv {x : Micro α} {f : α → Micro β} {s s'' : State} {b : β}
    (h : (x >>= f) s = .ok b s'') : ∃ a s', x s = .ok a s' ∧ f a s' = .ok b s'' := by
  cases hx : x s with
  | ok a s' => exact ⟨a, s', rfl, by rw [← h, Micro.bind_ok hx]⟩
  | error c s' => rw [Micro.bind_error hx] at h; cases h

/-- A sequence raises in its first part or in its second. -/
theorem Micro.bind_error_inv {x : Micro α} {f : α → Micro β} {s s'' : State} {c : Cause}
    (h : (x >>= f) s = .error c s'') :
    x s = .error c s'' ∨ ∃ a s', x s = .ok a s' ∧ f a s' = .error c s'' := by
  cases hx : x s with
  | ok a s' => exact .inr ⟨a, s', rfl, by rw [← h, Micro.bind_ok hx]⟩
  | error c' s' =>
    rw [Micro.bind_error hx] at h
    cases h
    exact .inl rfl

theorem change_ok (f : State → State) (s : State) : change f s = .ok () (f s) := rfl

theorem look_ok (f : State → α) (s : State) : look f s = .ok (f s) s := rfl

theorem raiseErr_error (sub : Sub) (d : Byte) (s : State) : (raiseErr sub d : Micro α) s = .error ⟨sub, d⟩ s := rfl

theorem bind_change (f : State → State) (g : Unit → Micro β) (s : State) : (change f >>= g) s = g () (f s) := rfl

theorem bind_look (f : State → α) (g : α → Micro β) (s : State) : (look f >>= g) s = g (f s) s := rfl

/-- The state a micro-operation ends with, well or by raising. -/
def endState : EStateM.Result Cause State α → State
  | .ok _ s => s
  | .error _ s => s

/-- Whatever way `x` ends, its end state stands in relation `R` to its start state. -/
def Always (R : State → State → Prop) (x : Micro α) : Prop := ∀ s, R s (endState (x s))

theorem Always.bind {R : State → State → Prop} (ht : ∀ a b c, R a b → R b c → R a c) {x : Micro α}
    {f : α → Micro β} (hx : Always R x) (hf : ∀ a, Always R (f a)) : Always R (x >>= f) := by
  intro s
  have h1 := hx s
  cases h : x s with
  | ok a s' =>
    rw [Micro.bind_ok h]
    rw [h] at h1
    exact ht _ _ _ h1 (hf a s')
  | error c s' =>
    rw [Micro.bind_error h]
    rw [h] at h1
    exact h1

theorem Always.pure {R : State → State → Prop} (hr : ∀ a, R a a) (a : α) : Always R (pure a : Micro α) := hr

theorem Always.look {R : State → State → Prop} (hr : ∀ a, R a a) (f : State → α) : Always R (look f) := hr

theorem Always.raiseErr {R : State → State → Prop} (hr : ∀ a, R a a) (sub : Sub) (d : Byte) :
    Always R (raiseErr sub d : Micro α) := hr

/-- Everything a command can do: end well, or take its fault. It always answers a next state (R256, R269). -/
theorem runCommand_cases (i : Instr) (body : Micro Unit) (s : State) :
    (∃ s', body (setPhase (phaseOf i) s) = .ok () s' ∧ runCommand i body s = .next (setPhase .idle s')) ∨
    (∃ c s', body (setPhase (phaseOf i) s) = .error c s' ∧
      runCommand i body s = .next (faultEntry (opcode i) c s')) := by
  unfold runCommand
  cases h : body (setPhase (phaseOf i) s) with
  | ok a s' => exact .inl ⟨s', rfl, rfl⟩
  | error c s' => exact .inr ⟨c, s', rfl, rfl⟩

theorem runCommand_ok {i : Instr} {body : Micro Unit} {s s' : State} {u : Unit}
    (h : body (setPhase (phaseOf i) s) = .ok u s') : runCommand i body s = .next (setPhase .idle s') := by
  simp [runCommand, h]

theorem runCommand_error {i : Instr} {body : Micro Unit} {s s' : State} {c : Cause}
    (h : body (setPhase (phaseOf i) s) = .error c s') :
    runCommand i body s = .next (faultEntry (opcode i) c s') := by
  simp [runCommand, h]

end Sys2Proof.Machine
end

