-- ==== Sys2Proof/Laws/State.lean ====
section
/-! SUPPORT. What each named update of State leaves in each field, so that no later proof unfolds a record update. -/

namespace Sys2Proof.Machine

/-! ## setPhase -/

@[simp] theorem setPhase_err (p : Phase) (s : State) : (setPhase p s).err = s.err := rfl
@[simp] theorem setPhase_errinfo (p : Phase) (s : State) : (setPhase p s).errinfo = s.errinfo := rfl
@[simp] theorem setPhase_result (p : Phase) (s : State) : (setPhase p s).result = s.result := rfl
@[simp] theorem setPhase_clen (p : Phase) (s : State) : (setPhase p s).clen = s.clen := rfl
@[simp] theorem setPhase_cbits (p : Phase) (s : State) : (setPhase p s).cbits = s.cbits := rfl
@[simp] theorem setPhase_pad (p : Phase) (s : State) : (setPhase p s).pad = s.pad := rfl
@[simp] theorem setPhase_treebits (p : Phase) (s : State) : (setPhase p s).treebits = s.treebits := rfl
@[simp] theorem setPhase_nnodes (p : Phase) (s : State) : (setPhase p s).nnodes = s.nnodes := rfl
@[simp] theorem setPhase_phase (p : Phase) (s : State) : (setPhase p s).phase = p := rfl
@[simp] theorem setPhase_bwBuf (p : Phase) (s : State) : (setPhase p s).bwBuf = s.bwBuf := rfl
@[simp] theorem setPhase_bwCnt (p : Phase) (s : State) : (setPhase p s).bwCnt = s.bwCnt := rfl
@[simp] theorem setPhase_brBuf (p : Phase) (s : State) : (setPhase p s).brBuf = s.brBuf := rfl
@[simp] theorem setPhase_brAvail (p : Phase) (s : State) : (setPhase p s).brAvail = s.brAvail := rfl
@[simp] theorem setPhase_brEof (p : Phase) (s : State) : (setPhase p s).brEof = s.brEof := rfl
@[simp] theorem setPhase_inOpen (p : Phase) (s : State) : (setPhase p s).inOpen = s.inOpen := rfl
@[simp] theorem setPhase_inPos (p : Phase) (s : State) : (setPhase p s).inPos = s.inPos := rfl
@[simp] theorem setPhase_outOpen (p : Phase) (s : State) : (setPhase p s).outOpen = s.outOpen := rfl
@[simp] theorem setPhase_freq (p : Phase) (s : State) : (setPhase p s).freq = s.freq := rfl
@[simp] theorem setPhase_tree (p : Phase) (s : State) : (setPhase p s).tree = s.tree := rfl
@[simp] theorem setPhase_code (p : Phase) (s : State) : (setPhase p s).code = s.code := rfl
@[simp] theorem setPhase_tabValid (p : Phase) (s : State) : (setPhase p s).tabValid = s.tabValid := rfl
@[simp] theorem setPhase_enc (p : Phase) (s : State) : (setPhase p s).enc = s.enc := rfl
@[simp] theorem setPhase_ptr (p : Phase) (s : State) : (setPhase p s).ptr = s.ptr := rfl
@[simp] theorem setPhase_pq (p : Phase) (s : State) : (setPhase p s).pq = s.pq := rfl
@[simp] theorem setPhase_inStore (p : Phase) (s : State) : (setPhase p s).inStore = s.inStore := rfl
@[simp] theorem setPhase_outStore (p : Phase) (s : State) : (setPhase p s).outStore = s.outStore := rfl
@[simp] theorem setPhase_cfg (p : Phase) (s : State) : (setPhase p s).cfg = s.cfg := rfl
@[simp] theorem setPhase_draws (p : Phase) (s : State) : (setPhase p s).draws = s.draws := rfl
@[simp] theorem setPhase_host (p : Phase) (s : State) : (setPhase p s).host = s.host := rfl
@[simp] theorem setPhase_rdata (p : Phase) (s : State) : (setPhase p s).rdata = s.rdata := rfl

/-! ## setResult -/

@[simp] theorem setResult_err (v : Word) (s : State) : (setResult v s).err = s.err := rfl
@[simp] theorem setResult_errinfo (v : Word) (s : State) : (setResult v s).errinfo = s.errinfo := rfl
@[simp] theorem setResult_result (v : Word) (s : State) : (setResult v s).result = v := rfl
@[simp] theorem setResult_clen (v : Word) (s : State) : (setResult v s).clen = s.clen := rfl
@[simp] theorem setResult_cbits (v : Word) (s : State) : (setResult v s).cbits = s.cbits := rfl
@[simp] theorem setResult_pad (v : Word) (s : State) : (setResult v s).pad = s.pad := rfl
@[simp] theorem setResult_treebits (v : Word) (s : State) : (setResult v s).treebits = s.treebits := rfl
@[simp] theorem setResult_nnodes (v : Word) (s : State) : (setResult v s).nnodes = s.nnodes := rfl
@[simp] theorem setResult_phase (v : Word) (s : State) : (setResult v s).phase = s.phase := rfl
@[simp] theorem setResult_bwBuf (v : Word) (s : State) : (setResult v s).bwBuf = s.bwBuf := rfl
@[simp] theorem setResult_bwCnt (v : Word) (s : State) : (setResult v s).bwCnt = s.bwCnt := rfl
@[simp] theorem setResult_brBuf (v : Word) (s : State) : (setResult v s).brBuf = s.brBuf := rfl
@[simp] theorem setResult_brAvail (v : Word) (s : State) : (setResult v s).brAvail = s.brAvail := rfl
@[simp] theorem setResult_brEof (v : Word) (s : State) : (setResult v s).brEof = s.brEof := rfl
@[simp] theorem setResult_inOpen (v : Word) (s : State) : (setResult v s).inOpen = s.inOpen := rfl
@[simp] theorem setResult_inPos (v : Word) (s : State) : (setResult v s).inPos = s.inPos := rfl
@[simp] theorem setResult_outOpen (v : Word) (s : State) : (setResult v s).outOpen = s.outOpen := rfl
@[simp] theorem setResult_freq (v : Word) (s : State) : (setResult v s).freq = s.freq := rfl
@[simp] theorem setResult_tree (v : Word) (s : State) : (setResult v s).tree = s.tree := rfl
@[simp] theorem setResult_code (v : Word) (s : State) : (setResult v s).code = s.code := rfl
@[simp] theorem setResult_tabValid (v : Word) (s : State) : (setResult v s).tabValid = s.tabValid := rfl
@[simp] theorem setResult_enc (v : Word) (s : State) : (setResult v s).enc = s.enc := rfl
@[simp] theorem setResult_ptr (v : Word) (s : State) : (setResult v s).ptr = s.ptr := rfl
@[simp] theorem setResult_pq (v : Word) (s : State) : (setResult v s).pq = s.pq := rfl
@[simp] theorem setResult_inStore (v : Word) (s : State) : (setResult v s).inStore = s.inStore := rfl
@[simp] theorem setResult_outStore (v : Word) (s : State) : (setResult v s).outStore = s.outStore := rfl
@[simp] theorem setResult_cfg (v : Word) (s : State) : (setResult v s).cfg = s.cfg := rfl
@[simp] theorem setResult_draws (v : Word) (s : State) : (setResult v s).draws = s.draws := rfl
@[simp] theorem setResult_host (v : Word) (s : State) : (setResult v s).host = s.host := rfl
@[simp] theorem setResult_rdata (v : Word) (s : State) : (setResult v s).rdata = s.rdata := rfl

/-! ## clearWriter -/

@[simp] theorem clearWriter_err (s : State) : (clearWriter s).err = s.err := rfl
@[simp] theorem clearWriter_errinfo (s : State) : (clearWriter s).errinfo = s.errinfo := rfl
@[simp] theorem clearWriter_result (s : State) : (clearWriter s).result = s.result := rfl
@[simp] theorem clearWriter_clen (s : State) : (clearWriter s).clen = s.clen := rfl
@[simp] theorem clearWriter_cbits (s : State) : (clearWriter s).cbits = s.cbits := rfl
@[simp] theorem clearWriter_pad (s : State) : (clearWriter s).pad = s.pad := rfl
@[simp] theorem clearWriter_treebits (s : State) : (clearWriter s).treebits = s.treebits := rfl
@[simp] theorem clearWriter_nnodes (s : State) : (clearWriter s).nnodes = s.nnodes := rfl
@[simp] theorem clearWriter_phase (s : State) : (clearWriter s).phase = s.phase := rfl
@[simp] theorem clearWriter_bwBuf (s : State) : (clearWriter s).bwBuf = 0#8 := rfl
@[simp] theorem clearWriter_bwCnt (s : State) : (clearWriter s).bwCnt = 0#3 := rfl
@[simp] theorem clearWriter_brBuf (s : State) : (clearWriter s).brBuf = s.brBuf := rfl
@[simp] theorem clearWriter_brAvail (s : State) : (clearWriter s).brAvail = s.brAvail := rfl
@[simp] theorem clearWriter_brEof (s : State) : (clearWriter s).brEof = s.brEof := rfl
@[simp] theorem clearWriter_inOpen (s : State) : (clearWriter s).inOpen = s.inOpen := rfl
@[simp] theorem clearWriter_inPos (s : State) : (clearWriter s).inPos = s.inPos := rfl
@[simp] theorem clearWriter_outOpen (s : State) : (clearWriter s).outOpen = s.outOpen := rfl
@[simp] theorem clearWriter_freq (s : State) : (clearWriter s).freq = s.freq := rfl
@[simp] theorem clearWriter_tree (s : State) : (clearWriter s).tree = s.tree := rfl
@[simp] theorem clearWriter_code (s : State) : (clearWriter s).code = s.code := rfl
@[simp] theorem clearWriter_tabValid (s : State) : (clearWriter s).tabValid = s.tabValid := rfl
@[simp] theorem clearWriter_enc (s : State) : (clearWriter s).enc = s.enc := rfl
@[simp] theorem clearWriter_ptr (s : State) : (clearWriter s).ptr = s.ptr := rfl
@[simp] theorem clearWriter_pq (s : State) : (clearWriter s).pq = s.pq := rfl
@[simp] theorem clearWriter_inStore (s : State) : (clearWriter s).inStore = s.inStore := rfl
@[simp] theorem clearWriter_outStore (s : State) : (clearWriter s).outStore = s.outStore := rfl
@[simp] theorem clearWriter_cfg (s : State) : (clearWriter s).cfg = s.cfg := rfl
@[simp] theorem clearWriter_draws (s : State) : (clearWriter s).draws = s.draws := rfl
@[simp] theorem clearWriter_host (s : State) : (clearWriter s).host = s.host := rfl
@[simp] theorem clearWriter_rdata (s : State) : (clearWriter s).rdata = s.rdata := rfl

/-! ## restartReader -/

@[simp] theorem restartReader_err (s : State) : (restartReader s).err = s.err := rfl
@[simp] theorem restartReader_errinfo (s : State) : (restartReader s).errinfo = s.errinfo := rfl
@[simp] theorem restartReader_result (s : State) : (restartReader s).result = s.result := rfl
@[simp] theorem restartReader_clen (s : State) : (restartReader s).clen = s.clen := rfl
@[simp] theorem restartReader_cbits (s : State) : (restartReader s).cbits = s.cbits := rfl
@[simp] theorem restartReader_pad (s : State) : (restartReader s).pad = s.pad := rfl
@[simp] theorem restartReader_treebits (s : State) : (restartReader s).treebits = s.treebits := rfl
@[simp] theorem restartReader_nnodes (s : State) : (restartReader s).nnodes = s.nnodes := rfl
@[simp] theorem restartReader_phase (s : State) : (restartReader s).phase = s.phase := rfl
@[simp] theorem restartReader_bwBuf (s : State) : (restartReader s).bwBuf = s.bwBuf := rfl
@[simp] theorem restartReader_bwCnt (s : State) : (restartReader s).bwCnt = s.bwCnt := rfl
@[simp] theorem restartReader_brBuf (s : State) : (restartReader s).brBuf = 0#8 := rfl
@[simp] theorem restartReader_brAvail (s : State) : (restartReader s).brAvail = 0 := rfl
@[simp] theorem restartReader_brEof (s : State) : (restartReader s).brEof = false := rfl
@[simp] theorem restartReader_inOpen (s : State) : (restartReader s).inOpen = s.inOpen := rfl
@[simp] theorem restartReader_inPos (s : State) : (restartReader s).inPos = 0#32 := rfl
@[simp] theorem restartReader_outOpen (s : State) : (restartReader s).outOpen = s.outOpen := rfl
@[simp] theorem restartReader_freq (s : State) : (restartReader s).freq = s.freq := rfl
@[simp] theorem restartReader_tree (s : State) : (restartReader s).tree = s.tree := rfl
@[simp] theorem restartReader_code (s : State) : (restartReader s).code = s.code := rfl
@[simp] theorem restartReader_tabValid (s : State) : (restartReader s).tabValid = s.tabValid := rfl
@[simp] theorem restartReader_enc (s : State) : (restartReader s).enc = s.enc := rfl
@[simp] theorem restartReader_ptr (s : State) : (restartReader s).ptr = s.ptr := rfl
@[simp] theorem restartReader_pq (s : State) : (restartReader s).pq = s.pq := rfl
@[simp] theorem restartReader_inStore (s : State) : (restartReader s).inStore = s.inStore := rfl
@[simp] theorem restartReader_outStore (s : State) : (restartReader s).outStore = s.outStore := rfl
@[simp] theorem restartReader_cfg (s : State) : (restartReader s).cfg = s.cfg := rfl
@[simp] theorem restartReader_draws (s : State) : (restartReader s).draws = s.draws := rfl
@[simp] theorem restartReader_host (s : State) : (restartReader s).host = s.host := rfl
@[simp] theorem restartReader_rdata (s : State) : (restartReader s).rdata = s.rdata := rfl

/-! ## clearTable -/

@[simp] theorem clearTable_err (s : State) : (clearTable s).err = s.err := rfl
@[simp] theorem clearTable_errinfo (s : State) : (clearTable s).errinfo = s.errinfo := rfl
@[simp] theorem clearTable_result (s : State) : (clearTable s).result = s.result := rfl
@[simp] theorem clearTable_clen (s : State) : (clearTable s).clen = s.clen := rfl
@[simp] theorem clearTable_cbits (s : State) : (clearTable s).cbits = s.cbits := rfl
@[simp] theorem clearTable_pad (s : State) : (clearTable s).pad = s.pad := rfl
@[simp] theorem clearTable_treebits (s : State) : (clearTable s).treebits = s.treebits := rfl
@[simp] theorem clearTable_nnodes (s : State) : (clearTable s).nnodes = s.nnodes := rfl
@[simp] theorem clearTable_phase (s : State) : (clearTable s).phase = s.phase := rfl
@[simp] theorem clearTable_bwBuf (s : State) : (clearTable s).bwBuf = s.bwBuf := rfl
@[simp] theorem clearTable_bwCnt (s : State) : (clearTable s).bwCnt = s.bwCnt := rfl
@[simp] theorem clearTable_brBuf (s : State) : (clearTable s).brBuf = s.brBuf := rfl
@[simp] theorem clearTable_brAvail (s : State) : (clearTable s).brAvail = s.brAvail := rfl
@[simp] theorem clearTable_brEof (s : State) : (clearTable s).brEof = s.brEof := rfl
@[simp] theorem clearTable_inOpen (s : State) : (clearTable s).inOpen = s.inOpen := rfl
@[simp] theorem clearTable_inPos (s : State) : (clearTable s).inPos = s.inPos := rfl
@[simp] theorem clearTable_outOpen (s : State) : (clearTable s).outOpen = s.outOpen := rfl
@[simp] theorem clearTable_freq (s : State) : (clearTable s).freq = s.freq := rfl
@[simp] theorem clearTable_tree (s : State) : (clearTable s).tree = s.tree := rfl
@[simp] theorem clearTable_code (s : State) : (clearTable s).code = emptyCode := rfl
@[simp] theorem clearTable_tabValid (s : State) : (clearTable s).tabValid = false := rfl
@[simp] theorem clearTable_enc (s : State) : (clearTable s).enc = s.enc := rfl
@[simp] theorem clearTable_ptr (s : State) : (clearTable s).ptr = s.ptr := rfl
@[simp] theorem clearTable_pq (s : State) : (clearTable s).pq = s.pq := rfl
@[simp] theorem clearTable_inStore (s : State) : (clearTable s).inStore = s.inStore := rfl
@[simp] theorem clearTable_outStore (s : State) : (clearTable s).outStore = s.outStore := rfl
@[simp] theorem clearTable_cfg (s : State) : (clearTable s).cfg = s.cfg := rfl
@[simp] theorem clearTable_draws (s : State) : (clearTable s).draws = s.draws := rfl
@[simp] theorem clearTable_host (s : State) : (clearTable s).host = s.host := rfl
@[simp] theorem clearTable_rdata (s : State) : (clearTable s).rdata = s.rdata := rfl

/-! ## dropTree -/

@[simp] theorem dropTree_err (s : State) : (dropTree s).err = s.err := rfl
@[simp] theorem dropTree_errinfo (s : State) : (dropTree s).errinfo = s.errinfo := rfl
@[simp] theorem dropTree_result (s : State) : (dropTree s).result = s.result := rfl
@[simp] theorem dropTree_clen (s : State) : (dropTree s).clen = s.clen := rfl
@[simp] theorem dropTree_cbits (s : State) : (dropTree s).cbits = s.cbits := rfl
@[simp] theorem dropTree_pad (s : State) : (dropTree s).pad = s.pad := rfl
@[simp] theorem dropTree_treebits (s : State) : (dropTree s).treebits = s.treebits := rfl
@[simp] theorem dropTree_nnodes (s : State) : (dropTree s).nnodes = 0#9 := rfl
@[simp] theorem dropTree_phase (s : State) : (dropTree s).phase = s.phase := rfl
@[simp] theorem dropTree_bwBuf (s : State) : (dropTree s).bwBuf = s.bwBuf := rfl
@[simp] theorem dropTree_bwCnt (s : State) : (dropTree s).bwCnt = s.bwCnt := rfl
@[simp] theorem dropTree_brBuf (s : State) : (dropTree s).brBuf = s.brBuf := rfl
@[simp] theorem dropTree_brAvail (s : State) : (dropTree s).brAvail = s.brAvail := rfl
@[simp] theorem dropTree_brEof (s : State) : (dropTree s).brEof = s.brEof := rfl
@[simp] theorem dropTree_inOpen (s : State) : (dropTree s).inOpen = s.inOpen := rfl
@[simp] theorem dropTree_inPos (s : State) : (dropTree s).inPos = s.inPos := rfl
@[simp] theorem dropTree_outOpen (s : State) : (dropTree s).outOpen = s.outOpen := rfl
@[simp] theorem dropTree_freq (s : State) : (dropTree s).freq = s.freq := rfl
@[simp] theorem dropTree_tree (s : State) : (dropTree s).tree = none := rfl
@[simp] theorem dropTree_code (s : State) : (dropTree s).code = emptyCode := rfl
@[simp] theorem dropTree_tabValid (s : State) : (dropTree s).tabValid = false := rfl
@[simp] theorem dropTree_enc (s : State) : (dropTree s).enc = s.enc := rfl
@[simp] theorem dropTree_ptr (s : State) : (dropTree s).ptr = none := rfl
@[simp] theorem dropTree_pq (s : State) : (dropTree s).pq = s.pq := rfl
@[simp] theorem dropTree_inStore (s : State) : (dropTree s).inStore = s.inStore := rfl
@[simp] theorem dropTree_outStore (s : State) : (dropTree s).outStore = s.outStore := rfl
@[simp] theorem dropTree_cfg (s : State) : (dropTree s).cfg = s.cfg := rfl
@[simp] theorem dropTree_draws (s : State) : (dropTree s).draws = s.draws := rfl
@[simp] theorem dropTree_host (s : State) : (dropTree s).host = s.host := rfl
@[simp] theorem dropTree_rdata (s : State) : (dropTree s).rdata = s.rdata := rfl

/-! ## closeBoth -/

@[simp] theorem closeBoth_err (s : State) : (closeBoth s).err = s.err := rfl
@[simp] theorem closeBoth_errinfo (s : State) : (closeBoth s).errinfo = s.errinfo := rfl
@[simp] theorem closeBoth_result (s : State) : (closeBoth s).result = s.result := rfl
@[simp] theorem closeBoth_clen (s : State) : (closeBoth s).clen = s.clen := rfl
@[simp] theorem closeBoth_cbits (s : State) : (closeBoth s).cbits = s.cbits := rfl
@[simp] theorem closeBoth_pad (s : State) : (closeBoth s).pad = s.pad := rfl
@[simp] theorem closeBoth_treebits (s : State) : (closeBoth s).treebits = s.treebits := rfl
@[simp] theorem closeBoth_nnodes (s : State) : (closeBoth s).nnodes = s.nnodes := rfl
@[simp] theorem closeBoth_phase (s : State) : (closeBoth s).phase = s.phase := rfl
@[simp] theorem closeBoth_bwBuf (s : State) : (closeBoth s).bwBuf = s.bwBuf := rfl
@[simp] theorem closeBoth_bwCnt (s : State) : (closeBoth s).bwCnt = s.bwCnt := rfl
@[simp] theorem closeBoth_brBuf (s : State) : (closeBoth s).brBuf = s.brBuf := rfl
@[simp] theorem closeBoth_brAvail (s : State) : (closeBoth s).brAvail = s.brAvail := rfl
@[simp] theorem closeBoth_brEof (s : State) : (closeBoth s).brEof = s.brEof := rfl
@[simp] theorem closeBoth_inOpen (s : State) : (closeBoth s).inOpen = false := rfl
@[simp] theorem closeBoth_inPos (s : State) : (closeBoth s).inPos = s.inPos := rfl
@[simp] theorem closeBoth_outOpen (s : State) : (closeBoth s).outOpen = false := rfl
@[simp] theorem closeBoth_freq (s : State) : (closeBoth s).freq = s.freq := rfl
@[simp] theorem closeBoth_tree (s : State) : (closeBoth s).tree = s.tree := rfl
@[simp] theorem closeBoth_code (s : State) : (closeBoth s).code = s.code := rfl
@[simp] theorem closeBoth_tabValid (s : State) : (closeBoth s).tabValid = s.tabValid := rfl
@[simp] theorem closeBoth_enc (s : State) : (closeBoth s).enc = s.enc := rfl
@[simp] theorem closeBoth_ptr (s : State) : (closeBoth s).ptr = s.ptr := rfl
@[simp] theorem closeBoth_pq (s : State) : (closeBoth s).pq = s.pq := rfl
@[simp] theorem closeBoth_inStore (s : State) : (closeBoth s).inStore = s.inStore := rfl
@[simp] theorem closeBoth_outStore (s : State) : (closeBoth s).outStore = s.outStore := rfl
@[simp] theorem closeBoth_cfg (s : State) : (closeBoth s).cfg = s.cfg := rfl
@[simp] theorem closeBoth_draws (s : State) : (closeBoth s).draws = s.draws := rfl
@[simp] theorem closeBoth_host (s : State) : (closeBoth s).host = s.host := rfl
@[simp] theorem closeBoth_rdata (s : State) : (closeBoth s).rdata = s.rdata := rfl

/-! ## discardCall -/

@[simp] theorem discardCall_err (s : State) : (discardCall s).err = s.err := rfl
@[simp] theorem discardCall_errinfo (s : State) : (discardCall s).errinfo = s.errinfo := rfl
@[simp] theorem discardCall_result (s : State) : (discardCall s).result = s.result := rfl
@[simp] theorem discardCall_clen (s : State) : (discardCall s).clen = s.clen := rfl
@[simp] theorem discardCall_cbits (s : State) : (discardCall s).cbits = s.cbits := rfl
@[simp] theorem discardCall_pad (s : State) : (discardCall s).pad = s.pad := rfl
@[simp] theorem discardCall_treebits (s : State) : (discardCall s).treebits = s.treebits := rfl
@[simp] theorem discardCall_nnodes (s : State) : (discardCall s).nnodes = s.nnodes := rfl
@[simp] theorem discardCall_phase (s : State) : (discardCall s).phase = s.phase := rfl
@[simp] theorem discardCall_bwBuf (s : State) : (discardCall s).bwBuf = s.bwBuf := rfl
@[simp] theorem discardCall_bwCnt (s : State) : (discardCall s).bwCnt = s.bwCnt := rfl
@[simp] theorem discardCall_brBuf (s : State) : (discardCall s).brBuf = s.brBuf := rfl
@[simp] theorem discardCall_brAvail (s : State) : (discardCall s).brAvail = s.brAvail := rfl
@[simp] theorem discardCall_brEof (s : State) : (discardCall s).brEof = s.brEof := rfl
@[simp] theorem discardCall_inOpen (s : State) : (discardCall s).inOpen = s.inOpen := rfl
@[simp] theorem discardCall_inPos (s : State) : (discardCall s).inPos = s.inPos := rfl
@[simp] theorem discardCall_outOpen (s : State) : (discardCall s).outOpen = s.outOpen := rfl
@[simp] theorem discardCall_freq (s : State) : (discardCall s).freq = emptyFreq := rfl
@[simp] theorem discardCall_tree (s : State) : (discardCall s).tree = none := rfl
@[simp] theorem discardCall_code (s : State) : (discardCall s).code = emptyCode := rfl
@[simp] theorem discardCall_tabValid (s : State) : (discardCall s).tabValid = false := rfl
@[simp] theorem discardCall_enc (s : State) : (discardCall s).enc = [] := rfl
@[simp] theorem discardCall_ptr (s : State) : (discardCall s).ptr = none := rfl
@[simp] theorem discardCall_pq (s : State) : (discardCall s).pq = s.pq := rfl
@[simp] theorem discardCall_inStore (s : State) : (discardCall s).inStore = s.inStore := rfl
@[simp] theorem discardCall_outStore (s : State) : (discardCall s).outStore = s.outStore := rfl
@[simp] theorem discardCall_cfg (s : State) : (discardCall s).cfg = s.cfg := rfl
@[simp] theorem discardCall_draws (s : State) : (discardCall s).draws = s.draws := rfl
@[simp] theorem discardCall_host (s : State) : (discardCall s).host = s.host := rfl
@[simp] theorem discardCall_rdata (s : State) : (discardCall s).rdata = s.rdata := rfl

/-! ## discardTree -/

@[simp] theorem discardTree_err (s : State) : (discardTree s).err = s.err := rfl
@[simp] theorem discardTree_errinfo (s : State) : (discardTree s).errinfo = s.errinfo := rfl
@[simp] theorem discardTree_result (s : State) : (discardTree s).result = s.result := rfl
@[simp] theorem discardTree_clen (s : State) : (discardTree s).clen = s.clen := rfl
@[simp] theorem discardTree_cbits (s : State) : (discardTree s).cbits = s.cbits := rfl
@[simp] theorem discardTree_pad (s : State) : (discardTree s).pad = s.pad := rfl
@[simp] theorem discardTree_treebits (s : State) : (discardTree s).treebits = s.treebits := rfl
@[simp] theorem discardTree_nnodes (s : State) : (discardTree s).nnodes = s.nnodes := rfl
@[simp] theorem discardTree_phase (s : State) : (discardTree s).phase = s.phase := rfl
@[simp] theorem discardTree_bwBuf (s : State) : (discardTree s).bwBuf = s.bwBuf := rfl
@[simp] theorem discardTree_bwCnt (s : State) : (discardTree s).bwCnt = s.bwCnt := rfl
@[simp] theorem discardTree_brBuf (s : State) : (discardTree s).brBuf = s.brBuf := rfl
@[simp] theorem discardTree_brAvail (s : State) : (discardTree s).brAvail = s.brAvail := rfl
@[simp] theorem discardTree_brEof (s : State) : (discardTree s).brEof = s.brEof := rfl
@[simp] theorem discardTree_inOpen (s : State) : (discardTree s).inOpen = s.inOpen := rfl
@[simp] theorem discardTree_inPos (s : State) : (discardTree s).inPos = s.inPos := rfl
@[simp] theorem discardTree_outOpen (s : State) : (discardTree s).outOpen = s.outOpen := rfl
@[simp] theorem discardTree_freq (s : State) : (discardTree s).freq = s.freq := rfl
@[simp] theorem discardTree_tree (s : State) : (discardTree s).tree = none := rfl
@[simp] theorem discardTree_code (s : State) : (discardTree s).code = emptyCode := rfl
@[simp] theorem discardTree_tabValid (s : State) : (discardTree s).tabValid = false := rfl
@[simp] theorem discardTree_enc (s : State) : (discardTree s).enc = s.enc := rfl
@[simp] theorem discardTree_ptr (s : State) : (discardTree s).ptr = none := rfl
@[simp] theorem discardTree_pq (s : State) : (discardTree s).pq = s.pq := rfl
@[simp] theorem discardTree_inStore (s : State) : (discardTree s).inStore = s.inStore := rfl
@[simp] theorem discardTree_outStore (s : State) : (discardTree s).outStore = s.outStore := rfl
@[simp] theorem discardTree_cfg (s : State) : (discardTree s).cfg = s.cfg := rfl
@[simp] theorem discardTree_draws (s : State) : (discardTree s).draws = s.draws := rfl
@[simp] theorem discardTree_host (s : State) : (discardTree s).host = s.host := rfl
@[simp] theorem discardTree_rdata (s : State) : (discardTree s).rdata = s.rdata := rfl

/-! ## setQueue -/

@[simp] theorem setQueue_err (q : List PQEntry) (s : State) : (setQueue q s).err = s.err := rfl
@[simp] theorem setQueue_errinfo (q : List PQEntry) (s : State) : (setQueue q s).errinfo = s.errinfo := rfl
@[simp] theorem setQueue_result (q : List PQEntry) (s : State) : (setQueue q s).result = s.result := rfl
@[simp] theorem setQueue_clen (q : List PQEntry) (s : State) : (setQueue q s).clen = s.clen := rfl
@[simp] theorem setQueue_cbits (q : List PQEntry) (s : State) : (setQueue q s).cbits = s.cbits := rfl
@[simp] theorem setQueue_pad (q : List PQEntry) (s : State) : (setQueue q s).pad = s.pad := rfl
@[simp] theorem setQueue_treebits (q : List PQEntry) (s : State) : (setQueue q s).treebits = s.treebits := rfl
@[simp] theorem setQueue_nnodes (q : List PQEntry) (s : State) : (setQueue q s).nnodes = s.nnodes := rfl
@[simp] theorem setQueue_phase (q : List PQEntry) (s : State) : (setQueue q s).phase = s.phase := rfl
@[simp] theorem setQueue_bwBuf (q : List PQEntry) (s : State) : (setQueue q s).bwBuf = s.bwBuf := rfl
@[simp] theorem setQueue_bwCnt (q : List PQEntry) (s : State) : (setQueue q s).bwCnt = s.bwCnt := rfl
@[simp] theorem setQueue_brBuf (q : List PQEntry) (s : State) : (setQueue q s).brBuf = s.brBuf := rfl
@[simp] theorem setQueue_brAvail (q : List PQEntry) (s : State) : (setQueue q s).brAvail = s.brAvail := rfl
@[simp] theorem setQueue_brEof (q : List PQEntry) (s : State) : (setQueue q s).brEof = s.brEof := rfl
@[simp] theorem setQueue_inOpen (q : List PQEntry) (s : State) : (setQueue q s).inOpen = s.inOpen := rfl
@[simp] theorem setQueue_inPos (q : List PQEntry) (s : State) : (setQueue q s).inPos = s.inPos := rfl
@[simp] theorem setQueue_outOpen (q : List PQEntry) (s : State) : (setQueue q s).outOpen = s.outOpen := rfl
@[simp] theorem setQueue_freq (q : List PQEntry) (s : State) : (setQueue q s).freq = s.freq := rfl
@[simp] theorem setQueue_tree (q : List PQEntry) (s : State) : (setQueue q s).tree = s.tree := rfl
@[simp] theorem setQueue_code (q : List PQEntry) (s : State) : (setQueue q s).code = s.code := rfl
@[simp] theorem setQueue_tabValid (q : List PQEntry) (s : State) : (setQueue q s).tabValid = s.tabValid := rfl
@[simp] theorem setQueue_enc (q : List PQEntry) (s : State) : (setQueue q s).enc = s.enc := rfl
@[simp] theorem setQueue_ptr (q : List PQEntry) (s : State) : (setQueue q s).ptr = s.ptr := rfl
@[simp] theorem setQueue_pq (q : List PQEntry) (s : State) : (setQueue q s).pq = q := rfl
@[simp] theorem setQueue_inStore (q : List PQEntry) (s : State) : (setQueue q s).inStore = s.inStore := rfl
@[simp] theorem setQueue_outStore (q : List PQEntry) (s : State) : (setQueue q s).outStore = s.outStore := rfl
@[simp] theorem setQueue_cfg (q : List PQEntry) (s : State) : (setQueue q s).cfg = s.cfg := rfl
@[simp] theorem setQueue_draws (q : List PQEntry) (s : State) : (setQueue q s).draws = s.draws := rfl
@[simp] theorem setQueue_host (q : List PQEntry) (s : State) : (setQueue q s).host = s.host := rfl
@[simp] theorem setQueue_rdata (q : List PQEntry) (s : State) : (setQueue q s).rdata = s.rdata := rfl

/-! ## closeWriter -/

@[simp] theorem closeWriter_err (s : State) : (closeWriter s).err = s.err := rfl
@[simp] theorem closeWriter_errinfo (s : State) : (closeWriter s).errinfo = s.errinfo := rfl
@[simp] theorem closeWriter_result (s : State) : (closeWriter s).result = s.result := rfl
@[simp] theorem closeWriter_clen (s : State) : (closeWriter s).clen = s.clen := rfl
@[simp] theorem closeWriter_cbits (s : State) : (closeWriter s).cbits = s.cbits := rfl
@[simp] theorem closeWriter_pad (s : State) : (closeWriter s).pad = s.pad := rfl
@[simp] theorem closeWriter_treebits (s : State) : (closeWriter s).treebits = s.treebits := rfl
@[simp] theorem closeWriter_nnodes (s : State) : (closeWriter s).nnodes = s.nnodes := rfl
@[simp] theorem closeWriter_phase (s : State) : (closeWriter s).phase = s.phase := rfl
@[simp] theorem closeWriter_bwBuf (s : State) : (closeWriter s).bwBuf = 0#8 := rfl
@[simp] theorem closeWriter_bwCnt (s : State) : (closeWriter s).bwCnt = 0#3 := rfl
@[simp] theorem closeWriter_brBuf (s : State) : (closeWriter s).brBuf = s.brBuf := rfl
@[simp] theorem closeWriter_brAvail (s : State) : (closeWriter s).brAvail = s.brAvail := rfl
@[simp] theorem closeWriter_brEof (s : State) : (closeWriter s).brEof = s.brEof := rfl
@[simp] theorem closeWriter_inOpen (s : State) : (closeWriter s).inOpen = s.inOpen := rfl
@[simp] theorem closeWriter_inPos (s : State) : (closeWriter s).inPos = s.inPos := rfl
@[simp] theorem closeWriter_outOpen (s : State) : (closeWriter s).outOpen = false := rfl
@[simp] theorem closeWriter_freq (s : State) : (closeWriter s).freq = s.freq := rfl
@[simp] theorem closeWriter_tree (s : State) : (closeWriter s).tree = s.tree := rfl
@[simp] theorem closeWriter_code (s : State) : (closeWriter s).code = s.code := rfl
@[simp] theorem closeWriter_tabValid (s : State) : (closeWriter s).tabValid = s.tabValid := rfl
@[simp] theorem closeWriter_enc (s : State) : (closeWriter s).enc = s.enc := rfl
@[simp] theorem closeWriter_ptr (s : State) : (closeWriter s).ptr = s.ptr := rfl
@[simp] theorem closeWriter_pq (s : State) : (closeWriter s).pq = s.pq := rfl
@[simp] theorem closeWriter_inStore (s : State) : (closeWriter s).inStore = s.inStore := rfl
@[simp] theorem closeWriter_outStore (s : State) : (closeWriter s).outStore = s.outStore := rfl
@[simp] theorem closeWriter_cfg (s : State) : (closeWriter s).cfg = s.cfg := rfl
@[simp] theorem closeWriter_draws (s : State) : (closeWriter s).draws = s.draws := rfl
@[simp] theorem closeWriter_host (s : State) : (closeWriter s).host = s.host := rfl
@[simp] theorem closeWriter_rdata (s : State) : (closeWriter s).rdata = s.rdata := rfl

/-! ## endFault -/

@[simp] theorem endFault_err (s : State) : (endFault s).err = s.err := rfl
@[simp] theorem endFault_errinfo (s : State) : (endFault s).errinfo = s.errinfo := rfl
@[simp] theorem endFault_result (s : State) : (endFault s).result = s.result := rfl
@[simp] theorem endFault_clen (s : State) : (endFault s).clen = s.clen := rfl
@[simp] theorem endFault_cbits (s : State) : (endFault s).cbits = s.cbits := rfl
@[simp] theorem endFault_pad (s : State) : (endFault s).pad = s.pad := rfl
@[simp] theorem endFault_treebits (s : State) : (endFault s).treebits = s.treebits := rfl
@[simp] theorem endFault_nnodes (s : State) : (endFault s).nnodes = s.nnodes := rfl
@[simp] theorem endFault_phase (s : State) : (endFault s).phase = .idle := rfl
@[simp] theorem endFault_bwBuf (s : State) : (endFault s).bwBuf = s.bwBuf := rfl
@[simp] theorem endFault_bwCnt (s : State) : (endFault s).bwCnt = s.bwCnt := rfl
@[simp] theorem endFault_brBuf (s : State) : (endFault s).brBuf = s.brBuf := rfl
@[simp] theorem endFault_brAvail (s : State) : (endFault s).brAvail = s.brAvail := rfl
@[simp] theorem endFault_brEof (s : State) : (endFault s).brEof = s.brEof := rfl
@[simp] theorem endFault_inOpen (s : State) : (endFault s).inOpen = false := rfl
@[simp] theorem endFault_inPos (s : State) : (endFault s).inPos = s.inPos := rfl
@[simp] theorem endFault_outOpen (s : State) : (endFault s).outOpen = s.outOpen := rfl
@[simp] theorem endFault_freq (s : State) : (endFault s).freq = s.freq := rfl
@[simp] theorem endFault_tree (s : State) : (endFault s).tree = s.tree := rfl
@[simp] theorem endFault_code (s : State) : (endFault s).code = s.code := rfl
@[simp] theorem endFault_tabValid (s : State) : (endFault s).tabValid = s.tabValid := rfl
@[simp] theorem endFault_enc (s : State) : (endFault s).enc = s.enc := rfl
@[simp] theorem endFault_ptr (s : State) : (endFault s).ptr = s.ptr := rfl
@[simp] theorem endFault_pq (s : State) : (endFault s).pq = [] := rfl
@[simp] theorem endFault_inStore (s : State) : (endFault s).inStore = s.inStore := rfl
@[simp] theorem endFault_outStore (s : State) : (endFault s).outStore = s.outStore := rfl
@[simp] theorem endFault_cfg (s : State) : (endFault s).cfg = s.cfg := rfl
@[simp] theorem endFault_draws (s : State) : (endFault s).draws = s.draws := rfl
@[simp] theorem endFault_host (s : State) : (endFault s).host = s.host := rfl
@[simp] theorem endFault_rdata (s : State) : (endFault s).rdata = s.rdata := rfl

/-! ## resetBlock: the block at R42's values, the rest as before -/

@[simp] theorem resetBlock_err (s : State) : (resetBlock s).err = 0#4 := rfl
@[simp] theorem resetBlock_errinfo (s : State) : (resetBlock s).errinfo = 0#32 := rfl
@[simp] theorem resetBlock_result (s : State) : (resetBlock s).result = 0#32 := rfl
@[simp] theorem resetBlock_clen (s : State) : (resetBlock s).clen = 0#8 := rfl
@[simp] theorem resetBlock_cbits (s : State) : (resetBlock s).cbits = 0#256 := rfl
@[simp] theorem resetBlock_pad (s : State) : (resetBlock s).pad = 0#3 := rfl
@[simp] theorem resetBlock_treebits (s : State) : (resetBlock s).treebits = 0#12 := rfl
@[simp] theorem resetBlock_nnodes (s : State) : (resetBlock s).nnodes = 0#9 := rfl
@[simp] theorem resetBlock_phase (s : State) : (resetBlock s).phase = .idle := rfl
@[simp] theorem resetBlock_bwBuf (s : State) : (resetBlock s).bwBuf = 0#8 := rfl
@[simp] theorem resetBlock_bwCnt (s : State) : (resetBlock s).bwCnt = 0#3 := rfl
@[simp] theorem resetBlock_brBuf (s : State) : (resetBlock s).brBuf = 0#8 := rfl
@[simp] theorem resetBlock_brAvail (s : State) : (resetBlock s).brAvail = 0 := rfl
@[simp] theorem resetBlock_brEof (s : State) : (resetBlock s).brEof = false := rfl
@[simp] theorem resetBlock_inOpen (s : State) : (resetBlock s).inOpen = false := rfl
@[simp] theorem resetBlock_inPos (s : State) : (resetBlock s).inPos = 0#32 := rfl
@[simp] theorem resetBlock_outOpen (s : State) : (resetBlock s).outOpen = false := rfl
@[simp] theorem resetBlock_freq (s : State) : (resetBlock s).freq = emptyFreq := rfl
@[simp] theorem resetBlock_tree (s : State) : (resetBlock s).tree = none := rfl
@[simp] theorem resetBlock_code (s : State) : (resetBlock s).code = emptyCode := rfl
@[simp] theorem resetBlock_tabValid (s : State) : (resetBlock s).tabValid = false := rfl
@[simp] theorem resetBlock_enc (s : State) : (resetBlock s).enc = [] := rfl
@[simp] theorem resetBlock_ptr (s : State) : (resetBlock s).ptr = none := rfl
@[simp] theorem resetBlock_pq (s : State) : (resetBlock s).pq = [] := rfl
@[simp] theorem resetBlock_inStore (s : State) : (resetBlock s).inStore = s.inStore := rfl
@[simp] theorem resetBlock_outStore (s : State) : (resetBlock s).outStore = s.outStore := rfl
@[simp] theorem resetBlock_cfg (s : State) : (resetBlock s).cfg = s.cfg := rfl
@[simp] theorem resetBlock_draws (s : State) : (resetBlock s).draws = s.draws := rfl
@[simp] theorem resetBlock_host (s : State) : (resetBlock s).host = s.host := rfl
@[simp] theorem resetBlock_rdata (s : State) : (resetBlock s).rdata = s.rdata := rfl

end Sys2Proof.Machine
end

