-- ==== Sys2Proof/Laws/Reader.lean ====
section
/-! SUPPORT. The bit reader (R137, R138): what it may touch however it ends, and what it returns from a healthy store. -/

namespace Sys2Proof.Machine

/-- Only the reader changed, beside what the environment did to the input store: its length stays, and with nothing
planned the store is untouched (R62). -/
def ReaderOnly (s s' : State) : Prop :=
  ∃ pos buf avail eof draws ok plan data,
    s' = { s with
      inPos := pos, brBuf := buf, brAvail := avail, brEof := eof, draws := draws
      inStore := { s.inStore with ok := ok, plan := plan, data := data } } ∧
    data.length = s.inStore.data.length ∧
    (s.inStore.plan = [] → ok = s.inStore.ok ∧ plan = [] ∧ data = s.inStore.data) ∧
    (s.inPos.toNat ≤ inLen s → inLen s ≤ Config.lenMax → pos.toNat ≤ inLen s)

theorem ReaderOnly.refl (s : State) : ReaderOnly s s :=
  ⟨s.inPos, s.brBuf, s.brAvail, s.brEof, s.draws, s.inStore.ok, s.inStore.plan, s.inStore.data, rfl, rfl,
    fun h => ⟨rfl, h, rfl⟩, fun h _ => h⟩

theorem ReaderOnly.trans {a b c : State} (h1 : ReaderOnly a b) (h2 : ReaderOnly b c) : ReaderOnly a c := by
  obtain ⟨_, _, _, _, _, _, _, _, rfl, l1, p1, q1⟩ := h1
  obtain ⟨pos, buf, avail, eof, draws, ok, plan, data, rfl, l2, p2, q2⟩ := h2
  refine ⟨pos, buf, avail, eof, draws, ok, plan, data, rfl, l2.trans l1, ?_, ?_⟩
  · intro h
    obtain ⟨e1, e2, e3⟩ := p1 h
    obtain ⟨f1, f2, f3⟩ := p2 e2
    exact ⟨f1.trans e1, f2, f3.trans e3⟩
  · intro h h'
    have := q2 (by simpa [inLen, l1] using q1 h h') (by simpa [inLen, l1] using h')
    simpa [inLen, l1] using this

theorem inAsk_eq (st : InStore) (i : Nat) :
    ∃ ok plan data, inAsk st i = { st with ok := ok, plan := plan, data := data } ∧
      data.length = st.data.length ∧ (st.plan = [] → ok = st.ok ∧ plan = [] ∧ data = st.data) := by
  unfold inAsk
  split
  · rename_i h
    exact ⟨st.ok, st.plan, st.data, rfl, rfl, fun _ => ⟨rfl, h, rfl⟩⟩
  · rename_i e rest h
    refine ⟨e.ok, rest, _, rfl, ?_, fun h' => ?_⟩
    · split <;> simp
    · rw [h] at h'; cases h'

theorem inAsk_steady {st : InStore} (h : st.plan = []) (i : Nat) : inAsk st i = st := by
  simp [inAsk, h]

/-- Everything `InFetch` can do (R64). -/
theorem inFetch_cases (s : State) :
    ((inAsk s.inStore s.inPos.toNat).ok = true ∧
      inFetch s = .ok (memRead (inAsk s.inStore s.inPos.toNat) s.inPos.toNat)
        { s with inStore := inAsk s.inStore s.inPos.toNat, inPos := s.inPos + 1#32 }) ∨
    ((inAsk s.inStore s.inPos.toNat).ok = false ∧
      inFetch s = .error ⟨.inBroken, 0#8⟩ { s with inStore := inAsk s.inStore s.inPos.toNat }) := by
  unfold inFetch
  cases h : (inAsk s.inStore s.inPos.toNat).ok <;> simp [h]

/-- `takeBit` on a buffer that holds a bit. -/
theorem takeBit_eq (s : State) :
    takeBit s = .ok (s.brBuf.getLsbD (s.brAvail.val - 1))
      { s with brAvail := ⟨s.brAvail.val - 1, by have := s.brAvail.isLt; omega⟩ } := rfl

/-- Everything `ReadBit` can do (R137): no open reader; end of input; a refill that fails; a refill; a bit from the
buffer. -/
theorem readBit_cases (s : State) :
    (s.inOpen = false ∧ readBit s = .error ⟨.inClosed, 0#8⟩ s) ∨
    (s.inOpen = true ∧ s.brAvail.val = 0 ∧ inLen s ≤ s.inPos.toNat ∧
      readBit s = .ok (Config.drawBit s.draws) { s with brEof := true, draws := s.draws + 1 }) ∨
    (s.inOpen = true ∧ s.brAvail.val = 0 ∧ s.inPos.toNat < inLen s ∧
      (inAsk s.inStore s.inPos.toNat).ok = false ∧
      readBit s = .error ⟨.inBroken, 0#8⟩ { s with inStore := inAsk s.inStore s.inPos.toNat }) ∨
    (s.inOpen = true ∧ s.brAvail.val = 0 ∧ s.inPos.toNat < inLen s ∧
      (inAsk s.inStore s.inPos.toNat).ok = true ∧
      readBit s = .ok ((memRead (inAsk s.inStore s.inPos.toNat) s.inPos.toNat).getLsbD 7)
        { s with
          inStore := inAsk s.inStore s.inPos.toNat, inPos := s.inPos + 1#32
          brBuf := memRead (inAsk s.inStore s.inPos.toNat) s.inPos.toNat, brAvail := 7 }) ∨
    (s.inOpen = true ∧ 0 < s.brAvail.val ∧
      readBit s = .ok (s.brBuf.getLsbD (s.brAvail.val - 1))
        { s with brAvail := ⟨s.brAvail.val - 1, by have := s.brAvail.isLt; omega⟩ }) := by
  by_cases ho : s.inOpen = false
  · exact .inl ⟨ho, by simp [readBit, ho]⟩
  · have ho' : s.inOpen = true := by simpa using ho
    right
    by_cases ha : s.brAvail.val = 0
    · by_cases hp : s.inPos.toNat < inLen s
      · right
        rcases inFetch_cases s with ⟨hk, h⟩ | ⟨hk, h⟩
        · refine .inr (.inl ⟨ho', ha, hp, hk, ?_⟩)
          simp [readBit, ho', ha, hp, h, takeBit]
        · refine .inl ⟨ho', ha, hp, hk, ?_⟩
          simp [readBit, ho', ha, hp, h]
      · exact .inl ⟨ho', ha, by omega, by simp [readBit, ho', ha, hp]⟩
    · refine .inr (.inr (.inr ⟨ho', by omega, ?_⟩))
      simp [readBit, ho', ha, takeBit]

theorem inPos_succ {s : State} (h : s.inPos.toNat < inLen s) (hl : inLen s ≤ Config.lenMax) :
    (s.inPos + 1#32).toNat = s.inPos.toNat + 1 := by
  have : inLen s ≤ 2 ^ 32 - 1 := hl
  rw [BitVec.toNat_add]
  simp
  omega

theorem readBit_always : Always ReaderOnly readBit := by
  intro s
  obtain ⟨ok, plan, data, he, hl, hp⟩ := inAsk_eq s.inStore s.inPos.toNat
  rcases readBit_cases s with ⟨_, h⟩ | ⟨_, _, _, h⟩ | ⟨_, _, hlt, _, h⟩ | ⟨_, _, hlt, _, h⟩ | ⟨_, _, h⟩ <;> rw [h]
  · exact ReaderOnly.refl s
  · exact ⟨_, _, _, _, _, s.inStore.ok, s.inStore.plan, s.inStore.data, rfl, rfl, fun h => ⟨rfl, h, rfl⟩, fun h _ => h⟩
  · exact ⟨s.inPos, s.brBuf, s.brAvail, s.brEof, s.draws, ok, plan, data, by simp [endState, he], hl, hp, fun h _ => h⟩
  · refine ⟨s.inPos + 1#32, memRead (inAsk s.inStore s.inPos.toNat) s.inPos.toNat, 7, s.brEof, s.draws, ok, plan,
      data, by simp [endState, he], hl, hp, fun _ h2 => ?_⟩
    rw [inPos_succ hlt h2]
    omega
  · exact ⟨_, _, _, _, _, s.inStore.ok, s.inStore.plan, s.inStore.data, rfl, rfl, fun h => ⟨rfl, h, rfl⟩, fun h _ => h⟩

theorem readBits_always (n : Nat) : Always ReaderOnly (readBits n) := by
  induction n with
  | zero => exact fun s => ReaderOnly.refl s
  | succ n ih =>
    exact Always.bind (R := ReaderOnly) (fun _ _ _ => ReaderOnly.trans) readBit_always
      (fun _ => Always.bind (R := ReaderOnly) (fun _ _ _ => ReaderOnly.trans) ih (fun _ => fun s => ReaderOnly.refl s))

theorem readByte_always : Always ReaderOnly readByte :=
  Always.bind (R := ReaderOnly) (fun _ _ _ => ReaderOnly.trans) (readBits_always 8) (fun _ s => ReaderOnly.refl s)

/-! ## A healthy store -/

/-- The reader moved on, nothing else changed. -/
def readTo (s : State) (pos : Word) (buf : BitVec 8) (avail : Fin 9) : State :=
  { s with inPos := pos, brBuf := buf, brAvail := avail }

theorem Readable.readTo {s : State} (h : Readable s) {pos : Word} (hp : pos.toNat ≤ inLen s) (buf : BitVec 8)
    (avail : Fin 9) : Readable (readTo s pos buf avail) :=
  ⟨h.isOpen, h.steady, hp, h.short⟩

theorem bitsAhead_length (s : State) :
    (bitsAhead s).length = s.brAvail.val + 8 * (inLen s - s.inPos.toNat) := by
  have := s.brAvail.isLt
  simp [bitsAhead, bitsOf_length, inLen]
  omega

/-- With bits ahead, `ReadBit` returns the first of them (R137, R147). -/
theorem readBit_ahead {s : State} (h : Readable s) {b : Bool} {rest : Bits} (hb : bitsAhead s = b :: rest) :
    ∃ pos buf avail, readBit s = .ok b (readTo s pos buf avail) ∧ bitsAhead (readTo s pos buf avail) = rest ∧
      pos.toNat ≤ inLen s := by
  obtain ⟨ho, ⟨hok, hplan⟩, hin, hshort⟩ := h
  have hask := inAsk_steady hplan s.inPos.toNat
  have hlen := bitsAhead_length s
  have hav := s.brAvail.isLt
  rcases readBit_cases s with ⟨hc, _⟩ | ⟨_, ha, hp, _⟩ | ⟨_, _, _, hk, _⟩ | ⟨_, ha, hp, _, h⟩ | ⟨_, ha, h⟩
  · rw [ho] at hc; cases hc
  · rw [hb] at hlen; simp at hlen; omega
  · rw [hask, hok] at hk; cases hk
  · rw [hask] at h
    have hp' : s.inPos.toNat < s.inStore.data.length := hp
    have hd : s.inStore.data.drop s.inPos.toNat =
        memRead s.inStore s.inPos.toNat :: s.inStore.data.drop (s.inPos.toNat + 1) := by
      rw [List.drop_eq_getElem_cons hp', memRead, List.getD_eq_getElem?_getD, List.getElem?_eq_getElem hp']
      rfl
    have hs : bitsAhead s = byteBits (memRead s.inStore s.inPos.toNat) ++
        bitsOf (s.inStore.data.drop (s.inPos.toNat + 1)) := by
      have : (byteBits s.brBuf).drop (8 - s.brAvail.val) = [] := by rw [ha]; simp
      rw [bitsAhead, this, hd, bitsOf_cons]
      rfl
    have h8 := drop_byteBits (memRead s.inStore s.inPos.toNat) 8 (by omega) (by omega)
    simp only [Nat.sub_self, List.drop_zero] at h8
    rw [h8, hb, List.cons_append] at hs
    obtain ⟨rfl, hr⟩ := List.cons.inj hs
    refine ⟨s.inPos + 1#32, memRead s.inStore s.inPos.toNat, 7, h, ?_, ?_⟩
    · rw [hr]
      simp only [bitsAhead, readTo, inPos_succ hp hshort]
      rfl
    · rw [inPos_succ hp hshort]; omega
  · have h8 := drop_byteBits s.brBuf s.brAvail.val ha (by omega)
    have hs : bitsAhead s = s.brBuf.getLsbD (s.brAvail.val - 1) ::
        ((byteBits s.brBuf).drop (8 - (s.brAvail.val - 1)) ++ bitsOf (s.inStore.data.drop s.inPos.toNat)) := by
      rw [bitsAhead, h8]; rfl
    rw [hb] at hs
    obtain ⟨rfl, hr⟩ := List.cons.inj hs
    exact ⟨s.inPos, s.brBuf, _, h, by rw [hr]; rfl, hin⟩

/-- With no bit ahead, `ReadBit` sets `BR.eof` and returns a draw; nothing else changes (R137). -/
theorem readBit_end {s : State} (h : Readable s) (hb : bitsAhead s = []) :
    readBit s = .ok (Config.drawBit s.draws) { s with brEof := true, draws := s.draws + 1 } := by
  have hlen := bitsAhead_length s
  rw [hb] at hlen
  simp at hlen
  have ho := h.isOpen
  rcases readBit_cases s with ⟨hc, _⟩ | ⟨_, _, _, h⟩ | ⟨_, _, hp, _⟩ | ⟨_, _, hp, _⟩ | ⟨_, ha, _⟩
  · rw [ho] at hc; cases hc
  · exact h
  · omega
  · omega
  · omega

/-- `n` bits with at least `n` ahead: those bits, in order, and the rest stays ahead (R147). -/
theorem readBits_ahead (n : Nat) {s : State} (h : Readable s) (hn : n ≤ (bitsAhead s).length) :
    ∃ pos buf avail, readBits n s = .ok ((bitsAhead s).take n) (readTo s pos buf avail) ∧
      bitsAhead (readTo s pos buf avail) = (bitsAhead s).drop n ∧ pos.toNat ≤ inLen s := by
  induction n generalizing s with
  | zero => exact ⟨s.inPos, s.brBuf, s.brAvail, rfl, rfl, h.inside⟩
  | succ n ih =>
    cases hb : bitsAhead s with
    | nil => rw [hb] at hn; simp at hn
    | cons b rest =>
      obtain ⟨pos, buf, avail, h1, h2, h3⟩ := readBit_ahead h hb
      rw [hb] at hn
      obtain ⟨pos', buf', avail', h1', h2', h3'⟩ := ih (h.readTo h3 buf avail) (by rw [h2]; simpa using hn)
      rw [h2] at h1' h2'
      refine ⟨pos', buf', avail', ?_, h2', h3'⟩
      change (readBit >>= fun b => readBits n >>= fun bs => pure (b :: bs)) s = _
      rw [Micro.bind_ok h1, Micro.bind_ok h1']
      rfl

/-- `n` bits with fewer than `n` ahead: `BR.eof` is set, nothing stays ahead (R137, R138). -/
theorem readBits_end (n : Nat) {s : State} (h : Readable s) (hn : (bitsAhead s).length < n) :
    ∃ pos buf avail draws bs, readBits n s = .ok bs { readTo s pos buf avail with brEof := true, draws := draws } ∧
      bitsAhead (readTo s pos buf avail) = [] ∧ pos.toNat ≤ inLen s := by
  induction n generalizing s with
  | zero => simp at hn
  | succ n ih =>
    cases hb : bitsAhead s with
    | nil =>
      have h1 := readBit_end h hb
      by_cases h0 : n = 0
      · subst h0
        refine ⟨s.inPos, s.brBuf, s.brAvail, s.draws + 1, [Config.drawBit s.draws], ?_, hb, h.inside⟩
        change (readBit >>= fun b => readBits 0 >>= fun bs => pure (b :: bs)) s = _
        rw [Micro.bind_ok h1]
        rfl
      · have hr : Readable { s with brEof := true, draws := s.draws + 1 } := ⟨h.isOpen, h.steady, h.inside, h.short⟩
        obtain ⟨pos, buf, avail, d, bs, h2, h3, h4⟩ :=
          ih hr (by
            change (bitsAhead s).length < n
            rw [hb]
            simpa using Nat.pos_of_ne_zero h0)
        refine ⟨pos, buf, avail, d, Config.drawBit s.draws :: bs, ?_, h3, h4⟩
        change (readBit >>= fun b => readBits n >>= fun bs => pure (b :: bs)) s = _
        rw [Micro.bind_ok h1, Micro.bind_ok h2]
        rfl
    | cons b rest =>
      obtain ⟨pos, buf, avail, h1, h2, h3⟩ := readBit_ahead h hb
      rw [hb] at hn
      obtain ⟨pos', buf', avail', d, bs, h1', h2', h3'⟩ :=
        ih (h.readTo h3 buf avail) (by rw [h2]; simpa using hn)
      refine ⟨pos', buf', avail', d, b :: bs, ?_, h2', h3'⟩
      change (readBit >>= fun b => readBits n >>= fun bs => pure (b :: bs)) s = _
      rw [Micro.bind_ok h1, Micro.bind_ok h1']
      rfl

/-- `ReadByte` with at least eight bits ahead (R138, R147). -/
theorem readByte_ahead {s : State} (h : Readable s) (hn : 8 ≤ (bitsAhead s).length) :
    ∃ pos buf avail, readByte s = .ok (byteOfBits ((bitsAhead s).take 8)) (readTo s pos buf avail) ∧
      bitsAhead (readTo s pos buf avail) = (bitsAhead s).drop 8 ∧ pos.toNat ≤ inLen s := by
  obtain ⟨pos, buf, avail, h1, h2⟩ := readBits_ahead 8 h hn
  refine ⟨pos, buf, avail, ?_, h2⟩
  change (readBits 8 >>= fun bs => pure (byteOfBits bs)) s = _
  rw [Micro.bind_ok h1]
  rfl

/-- `ReadByte` with fewer than eight bits ahead sets `BR.eof`; its value is to be discarded (R138). -/
theorem readByte_end {s : State} (h : Readable s) (hn : (bitsAhead s).length < 8) :
    ∃ pos buf avail draws v, readByte s = .ok v { readTo s pos buf avail with brEof := true, draws := draws } ∧
      bitsAhead (readTo s pos buf avail) = [] ∧ pos.toNat ≤ inLen s := by
  obtain ⟨pos, buf, avail, d, bs, h1, h2⟩ := readBits_end 8 h hn
  refine ⟨pos, buf, avail, d, byteOfBits bs, ?_, h2⟩
  change (readBits 8 >>= fun bs => pure (byteOfBits bs)) s = _
  rw [Micro.bind_ok h1]
  rfl

end Sys2Proof.Machine
end

