-- ==== Sys2Proof/Laws/Trees.lean ====
section
/-! SUPPORT. Trees (R12, R101, R104): counting, paths and codewords. -/

namespace Sys2Proof.Machine

theorem treeLeaves_pos (t : HuffTree) : 0 < treeLeaves t := by
  induction t with
  | leaf b => simp [treeLeaves]
  | internal l r ihl ihr => simp [treeLeaves]; omega

/-- A strict binary tree with `L` leaves has `2L - 1` nodes (R9, R161). -/
theorem treeNodes_eq (t : HuffTree) : treeNodes t = 2 * treeLeaves t - 1 := by
  induction t with
  | leaf b => rfl
  | internal l r ihl ihr =>
    have := treeLeaves_pos l
    have := treeLeaves_pos r
    simp [treeNodes, treeLeaves, ihl, ihr]
    omega

theorem leafBytes_length (t : HuffTree) : (leafBytes t).length = treeLeaves t := by
  induction t with
  | leaf b => rfl
  | internal l r ihl ihr => simp [leafBytes, treeLeaves, ihl, ihr]

/-- `len(Ser(T)) = 10L - 1` (R102). -/
theorem ser_length (t : HuffTree) : (ser t).length = 10 * treeLeaves t - 1 := by
  induction t with
  | leaf b => rfl
  | internal l r ihl ihr =>
    have := treeLeaves_pos l
    have := treeLeaves_pos r
    simp [ser, treeLeaves, ihl, ihr]
    omega

/-- The depth of a tree is below its leaf count (R9). -/
theorem treeDepth_lt (t : HuffTree) : treeDepth t < treeLeaves t := by
  induction t with
  | leaf b => simp [treeDepth, treeLeaves]
  | internal l r ihl ihr =>
    simp only [treeDepth, treeLeaves]
    omega

@[simp] theorem nodeAt_nil (t : HuffTree) : nodeAt t [] = some t := by cases t <;> rfl

theorem nodeAt_append (t : HuffTree) (p q : Bits) :
    nodeAt t (p ++ q) = (nodeAt t p).bind (fun u => nodeAt u q) := by
  induction p generalizing t with
  | nil => simp
  | cons b p ih =>
    cases t with
    | leaf v => rfl
    | internal l r =>
      change (if b then nodeAt r (p ++ q) else nodeAt l (p ++ q)) = (if b then nodeAt r p else nodeAt l p).bind _
      cases b
      · exact ih l
      · exact ih r

/-- A codeword leads to its byte's leaf (R104). -/
theorem nodeAt_of_codewordOf {t : HuffTree} {b : Byte} {p : Bits} (h : codewordOf t b = some p) :
    nodeAt t p = some (.leaf b) := by
  induction t generalizing p with
  | leaf v =>
    simp only [codewordOf] at h
    split at h
    · rename_i hv
      cases h
      simp [hv]
    · cases h
  | internal l r ihl ihr =>
    simp only [codewordOf] at h
    split at h
    · rename_i q hq
      cases h
      exact ihl hq
    · rw [Option.map_eq_some_iff] at h
      obtain ⟨q, hq, rfl⟩ := h
      exact ihr hq

/-- The bytes with a codeword are the leaf values (R179(a)). -/
theorem codewordOf_isSome_iff (t : HuffTree) (b : Byte) : (codewordOf t b).isSome = true ↔ b ∈ leafBytes t := by
  induction t with
  | leaf v =>
    simp only [codewordOf, leafBytes, List.mem_singleton]
    split
    · rename_i h; simp [h]
    · rename_i h
      simp only [Option.isSome_none, Bool.false_eq_true, false_iff]
      exact fun h' => h h'.symm
  | internal l r ihl ihr =>
    simp only [codewordOf, leafBytes, List.mem_append, ← ihl, ← ihr]
    cases codewordOf l b <;> simp

/-- Codewords are no longer than the tree is deep. -/
theorem codewordOf_length_le {t : HuffTree} {b : Byte} {p : Bits} (h : codewordOf t b = some p) :
    p.length ≤ treeDepth t := by
  induction t generalizing p with
  | leaf v =>
    simp only [codewordOf] at h
    split at h
    · cases h; simp
    · cases h
  | internal l r ihl ihr =>
    simp only [codewordOf] at h
    simp only [treeDepth]
    split at h
    · rename_i q hq
      cases h
      have := ihl hq
      simp only [List.length_cons]
      omega
    · rw [Option.map_eq_some_iff] at h
      obtain ⟨q, hq, rfl⟩ := h
      have := ihr hq
      simp only [List.length_cons]
      omega

/-- Every codeword of a tree with an `Internal` root is non-empty (R104). -/
theorem codewordOf_ne_nil {t : HuffTree} (ht : isInternal t = true) {b : Byte} {p : Bits}
    (h : codewordOf t b = some p) : p ≠ [] := by
  rintro rfl
  have := nodeAt_of_codewordOf h
  cases t with
  | leaf v => cases ht
  | internal l r => simp at this

/-- No codeword is a proper beginning of another, nor equal to it (R104, R179(c)). -/
theorem codewordOf_prefixFree {t : HuffTree} {b b' : Byte} {p p' : Bits} (h : codewordOf t b = some p)
    (h' : codewordOf t b' = some p') (hp : p <+: p') : b = b' := by
  obtain ⟨q, rfl⟩ := hp
  have h1 := nodeAt_of_codewordOf h
  have h2 := nodeAt_of_codewordOf h'
  rw [nodeAt_append, h1] at h2
  cases q with
  | nil =>
    simp only [Option.bind_some, nodeAt_nil, Option.some.injEq, HuffTree.leaf.injEq] at h2
    exact h2
  | cons c q => simp [nodeAt] at h2

/-- The traversal of one codeword emits its byte and returns to the root (R233). -/
theorem replay_codeword {root : HuffTree} {u : HuffTree} {b : Byte} {p rest : Bits} (hp : p ≠ [])
    (h : nodeAt u p = some (.leaf b)) : replay root u (p ++ rest) = b :: replay root root rest := by
  induction p generalizing u with
  | nil => exact absurd rfl hp
  | cons c p ih =>
    cases u with
    | leaf v => simp [nodeAt] at h
    | internal l r =>
      change nodeAt (.internal l r) (c :: p) = _ at h
      have hc : nodeAt (if c then r else l) p = some (.leaf b) := by
        cases c <;> simpa [nodeAt] using h
      simp only [List.cons_append, replay]
      cases hk : (if c then r else l) with
      | leaf v =>
        rw [hk] at hc
        cases p with
        | nil => simp at hc; simp [hc]
        | cons d p => simp [nodeAt] at hc
      | internal l' r' =>
        rw [hk] at hc
        cases p with
        | nil => simp at hc
        | cons d p => exact ih (by simp) hc

/-- The traversal of a payload emits exactly its bytes (R239). -/
theorem replay_payloadOf {t : HuffTree} (ht : isInternal t = true) (bytes : List Byte)
    (h : ∀ b ∈ bytes, b ∈ leafBytes t) : replay t t (payloadOf t bytes) = bytes := by
  induction bytes with
  | nil => cases t <;> rfl
  | cons b bs ih =>
    have hb := (codewordOf_isSome_iff t b).2 (h b (by simp))
    obtain ⟨p, hp⟩ := Option.isSome_iff_exists.1 hb
    have : payloadOf t (b :: bs) = p ++ payloadOf t bs := by simp [payloadOf, hp]
    rw [this, replay_codeword (codewordOf_ne_nil ht hp) (nodeAt_of_codewordOf hp),
      ih (fun c hc => h c (by simp [hc]))]

end Sys2Proof.Machine
end

