-- ==== Sys2Proof/Laws/Writer.lean ====
section
/-! SUPPORT. The bit writer (R131, R132, R146): what it may touch however it ends, and what it writes to a healthy
store. -/

namespace Sys2Proof.Machine

/-- Only the writer and the output store changed, the store only by appending (R63), its health only as planned (R75). -/
def WriterOnly (s s' : State) : Prop :=
  ∃ buf cnt ok plan ext, s' = { s with
    bwBuf := buf, bwCnt := cnt
    outStore := { s.outStore with ok := ok, plan := plan, data := s.outStore.data ++ ext } } ∧
    (s.outStore.plan = [] → ok = s.outStore.ok ∧ plan = [])

theorem WriterOnly.refl (s : State) : WriterOnly s s :=
  ⟨s.bwBuf, s.bwCnt, s.outStore.ok, s.outStore.plan, [], by simp, fun h => ⟨rfl, h⟩⟩

theorem WriterOnly.trans {a b c : State} (h1 : WriterOnly a b) (h2 : WriterOnly b c) : WriterOnly a c := by
  obtain ⟨_, _, _, _, e1, rfl, p1⟩ := h1
  obtain ⟨buf, cnt, ok, plan, e2, rfl, p2⟩ := h2
  refine ⟨buf, cnt, ok, plan, e1 ++ e2, by simp, fun h => ?_⟩
  obtain ⟨a1, a2⟩ := p1 h
  obtain ⟨b1, b2⟩ := p2 a2
  exact ⟨b1.trans a1, b2⟩

theorem outAsk_eq (st : OutStore) :
    ∃ ok plan, outAsk st = { st with ok := ok, plan := plan } ∧ (st.plan = [] → ok = st.ok ∧ plan = []) := by
  unfold outAsk
  split
  · rename_i h
    exact ⟨st.ok, st.plan, rfl, fun _ => ⟨rfl, h⟩⟩
  · rename_i h
    exact ⟨_, _, rfl, fun h' => by rw [h] at h'; cases h'⟩

theorem outAsk_steady {st : OutStore} (h : st.plan = []) : outAsk st = st := by
  simp [outAsk, h]

/-- Everything `OutAppend` can do (R65). -/
theorem outAppend_cases (v : Byte) (s : State) :
    ((outAsk s.outStore).ok = true ∧
      outAppend v s = .ok () { s with outStore := memAppend (outAsk s.outStore) v }) ∨
    ((outAsk s.outStore).ok = false ∧
      outAppend v s = .error ⟨.outBroken, 0#8⟩ { s with outStore := outAsk s.outStore }) := by
  unfold outAppend
  cases h : (outAsk s.outStore).ok <;> simp [h]

theorem writerOnly_append (v : Byte) (s : State) : WriterOnly s { s with outStore := memAppend (outAsk s.outStore) v } := by
  obtain ⟨ok, plan, h, hp⟩ := outAsk_eq s.outStore
  exact ⟨s.bwBuf, s.bwCnt, ok, plan, [v], by simp [h, memAppend], hp⟩

theorem writerOnly_ask (s : State) : WriterOnly s { s with outStore := outAsk s.outStore } := by
  obtain ⟨ok, plan, h, hp⟩ := outAsk_eq s.outStore
  exact ⟨s.bwBuf, s.bwCnt, ok, plan, [], by simp [h], hp⟩

theorem writerOnly_clear (s : State) : WriterOnly s (clearWriter s) :=
  ⟨0#8, 0#3, s.outStore.ok, s.outStore.plan, [], by simp [clearWriter], fun h => ⟨rfl, h⟩⟩

theorem writerOnly_buf (s : State) (buf : BitVec 8) (cnt : BitVec 3) :
    WriterOnly s { s with bwBuf := buf, bwCnt := cnt } :=
  ⟨buf, cnt, s.outStore.ok, s.outStore.plan, [], by simp, fun h => ⟨rfl, h⟩⟩

/-- Everything `WriteBit` can do (R131). -/
theorem writeBit_cases (b : Bool) (s : State) :
    (s.outOpen = false ∧ writeBit b s = .error ⟨.outClosed, 0#8⟩ s) ∨
    (s.outOpen = true ∧ s.bwCnt.toNat < 7 ∧
      writeBit b s = .ok () { s with bwBuf := setBit s.bwBuf (7 - s.bwCnt.toNat) b, bwCnt := s.bwCnt + 1#3 }) ∨
    (s.outOpen = true ∧ s.bwCnt.toNat = 7 ∧ (outAsk s.outStore).ok = true ∧
      writeBit b s = .ok () (clearWriter { s with outStore := memAppend (outAsk s.outStore) (setBit s.bwBuf 0 b) })) ∨
    (s.outOpen = true ∧ s.bwCnt.toNat = 7 ∧ (outAsk s.outStore).ok = false ∧
      writeBit b s = .error ⟨.outBroken, 0#8⟩ { s with bwBuf := setBit s.bwBuf 0 b, outStore := outAsk s.outStore }) := by
  have hlt := s.bwCnt.isLt
  by_cases ho : s.outOpen = false
  · exact .inl ⟨ho, by simp [writeBit, ho]⟩
  · have ho' : s.outOpen = true := by simpa using ho
    right
    by_cases hc : s.bwCnt.toNat < 7
    · exact .inl ⟨ho', hc, by simp [writeBit, ho', hc]⟩
    · have h7 : s.bwCnt.toNat = 7 := by omega
      right
      cases hok : (outAsk s.outStore).ok
      · exact .inr ⟨ho', h7, rfl, by simp [writeBit, ho', h7, outAppend, hok]⟩
      · exact .inl ⟨ho', h7, rfl, by simp [writeBit, ho', h7, outAppend, hok, clearWriter]⟩

theorem writeBit_always (b : Bool) : Always WriterOnly (writeBit b) := by
  intro s
  rcases writeBit_cases b s with ⟨_, h⟩ | ⟨_, _, h⟩ | ⟨_, _, _, h⟩ | ⟨_, _, _, h⟩ <;> rw [h]
  · exact WriterOnly.refl s
  · exact writerOnly_buf s _ _
  · exact (writerOnly_append _ s).trans (writerOnly_clear _)
  · exact (writerOnly_ask s).trans (writerOnly_buf _ _ s.bwCnt)

theorem writeBits_always (bs : Bits) : Always WriterOnly (writeBits bs) := by
  induction bs with
  | nil => exact fun s => WriterOnly.refl s
  | cons b bs ih => exact Always.bind (R := WriterOnly) (fun _ _ _ => WriterOnly.trans) (writeBit_always b) (fun _ => ih)

theorem writeByte_always (v : Byte) : Always WriterOnly (writeByte v) := writeBits_always _

/-- On a broken store a run of bits that completes a byte raises there (R65, R131). -/
theorem writeBits_broken (bs : Bits) (s : State) (ho : s.outOpen = true) (hb : (outAsk s.outStore).ok = false)
    (hn : 8 ≤ s.bwCnt.toNat + bs.length) :
    ∃ buf cnt, writeBits bs s =
      .error ⟨.outBroken, 0#8⟩ { s with bwBuf := buf, bwCnt := cnt, outStore := outAsk s.outStore } := by
  induction bs generalizing s with
  | nil =>
    have := s.bwCnt.isLt
    simp at hn
    omega
  | cons b bs ih =>
    rcases writeBit_cases b s with ⟨hc, _⟩ | ⟨_, hlt, e⟩ | ⟨_, _, hok, _⟩ | ⟨_, _, _, e⟩
    · rw [ho] at hc; cases hc
    · have hcnt : (s.bwCnt + 1#3).toNat = s.bwCnt.toNat + 1 := by
        rw [BitVec.toNat_add_of_lt (by simp; omega)]
        rfl
      obtain ⟨buf, cnt, k⟩ := ih { s with bwBuf := setBit s.bwBuf (7 - s.bwCnt.toNat) b, bwCnt := s.bwCnt + 1#3 } ho hb
        (by
          change 8 ≤ (s.bwCnt + 1#3).toNat + bs.length
          rw [hcnt]
          simp at hn
          omega)
      exact ⟨buf, cnt, (Micro.bind_ok e).trans k⟩
    · rw [hb] at hok; cases hok
    · exact ⟨_, _, Micro.bind_error e⟩

/-- Everything `FlushW` can do (R146). -/
theorem flushW_cases (s : State) :
    (s.bwCnt = 0#3 ∧ flushW s = .ok () s) ∨
    (s.bwCnt ≠ 0#3 ∧ (outAsk s.outStore).ok = true ∧
      flushW s = .ok () (clearWriter { s with outStore := memAppend (outAsk s.outStore) s.bwBuf })) ∨
    (s.bwCnt ≠ 0#3 ∧ (outAsk s.outStore).ok = false ∧
      flushW s = .error ⟨.outBroken, 0#8⟩ { s with outStore := outAsk s.outStore }) := by
  by_cases hc : s.bwCnt = 0#3
  · exact .inl ⟨hc, by simp [flushW, hc]⟩
  · right
    cases hok : (outAsk s.outStore).ok
    · exact .inr ⟨hc, rfl, by simp [flushW, hc, outAppend, hok]⟩
    · exact .inl ⟨hc, rfl, by simp [flushW, hc, outAppend, hok]⟩

theorem flushW_always : Always WriterOnly flushW := by
  intro s
  rcases flushW_cases s with ⟨_, h⟩ | ⟨_, _, h⟩ | ⟨_, _, h⟩ <;> rw [h]
  · exact WriterOnly.refl s
  · exact (writerOnly_append _ s).trans (writerOnly_clear _)
  · exact writerOnly_ask s

/-! ## A healthy store -/

/-- The writer and the output store's bytes changed, nothing else. -/
def wroteTo (s : State) (buf : BitVec 8) (cnt : BitVec 3) (data : List Byte) : State :=
  { s with bwBuf := buf, bwCnt := cnt, outStore := { s.outStore with data := data } }

/-- The bits of `BW.buf` not yet written are 0 (R44(c)). -/
def LowZero (s : State) : Prop := ∀ k, k < 8 - s.bwCnt.toNat → s.bwBuf.getLsbD k = false

theorem bitsWritten_length (s : State) : (bitsWritten s).length = 8 * s.outStore.data.length + s.bwCnt.toNat := by
  have := s.bwCnt.isLt
  simp [bitsWritten, bitsOf_length]
  omega

/-- Through an open writer into a healthy store, a bit sequence is appended to what has been written, and nothing
else changes (R131, R147). -/
theorem writeBits_steady (bs : Bits) (s : State) (ho : s.outOpen = true) (hs : outSteady s) :
    ∃ buf cnt data, writeBits bs s = .ok () (wroteTo s buf cnt data) ∧
      bitsWritten (wroteTo s buf cnt data) = bitsWritten s ++ bs ∧
      (LowZero s → LowZero (wroteTo s buf cnt data)) := by
  induction bs generalizing s with
  | nil => exact ⟨s.bwBuf, s.bwCnt, s.outStore.data, rfl, by simp [wroteTo], id⟩
  | cons b bs ih =>
    obtain ⟨hok, hplan⟩ := hs
    have hask := outAsk_steady hplan
    have step : ∃ buf cnt data, writeBit b s = .ok () (wroteTo s buf cnt data) ∧
        bitsWritten (wroteTo s buf cnt data) = bitsWritten s ++ [b] ∧
        (LowZero s → LowZero (wroteTo s buf cnt data)) := by
      rcases writeBit_cases b s with ⟨h, _⟩ | ⟨_, hc, h⟩ | ⟨_, hc, _, h⟩ | ⟨_, _, h, _⟩
      · rw [ho] at h; cases h
      · refine ⟨_, _, s.outStore.data, h, ?_, ?_⟩
        · have hn : (s.bwCnt + 1#3).toNat = s.bwCnt.toNat + 1 := by
            rw [BitVec.toNat_add]
            simp
            omega
          simp [bitsWritten, wroteTo, hn, take_setBit _ _ (by omega : s.bwCnt.toNat < 8)]
        · intro hz k hk
          have hn : (s.bwCnt + 1#3).toNat = s.bwCnt.toNat + 1 := by
            rw [BitVec.toNat_add]
            simp
            omega
          simp only [wroteTo, hn] at hk ⊢
          rw [getLsbD_setBit_low _ _ _ (by omega) (by omega)]
          exact hz k (by omega)
      · refine ⟨0#8, 0#3, s.outStore.data ++ [setBit s.bwBuf 0 b], ?_, ?_, ?_⟩
        · rw [h]; simp [wroteTo, clearWriter, memAppend, hask]
        · have := take_setBit s.bwBuf 7 (by omega) b
          have h8 : (byteBits (setBit s.bwBuf 0 b)).take 8 = byteBits (setBit s.bwBuf 0 b) :=
            List.take_of_length_le (by simp)
          simp only [Nat.sub_self] at this
          rw [h8] at this
          simp [bitsWritten, wroteTo, bitsOf_append, bitsOf_cons, bitsOf_nil, hc, this]
        · intro _ k _
          simp [wroteTo]
      · rw [hask, hok] at h; cases h
    obtain ⟨buf, cnt, data, h1, h2, h3⟩ := step
    obtain ⟨buf', cnt', data', h1', h2', h3'⟩ :=
      ih (wroteTo s buf cnt data) ho ⟨hok, hplan⟩
    refine ⟨buf', cnt', data', ?_, ?_, fun hz => h3' (h3 hz)⟩
    · change (writeBit b >>= fun _ => writeBits bs) s = _
      rw [Micro.bind_ok h1, h1']
      rfl
    · have : bitsWritten (wroteTo (wroteTo s buf cnt data) buf' cnt' data') = bitsWritten (wroteTo s buf' cnt' data') :=
        rfl
      rw [← this, h2', h2]
      simp

/-- The count of pending bits follows the number of bits written (R147). -/
theorem bwCnt_of_bitsWritten (s : State) : s.bwCnt.toNat = (bitsWritten s).length % 8 := by
  have := s.bwCnt.isLt
  rw [bitsWritten_length]
  omega

/-- The close flush completes what was written to whole bytes with zeros (R72, R146). -/
theorem flushW_steady (s : State) (hs : outSteady s) (hz : LowZero s) :
    ∃ data, flushW s = .ok () (wroteTo s (if s.bwCnt = 0#3 then s.bwBuf else 0#8) 0#3 data) ∧
      bitsOf data = bitsWritten s ++ List.replicate ((8 - s.bwCnt.toNat) % 8) false := by
  obtain ⟨hok, hplan⟩ := hs
  have hask := outAsk_steady hplan
  have hlt := s.bwCnt.isLt
  rcases flushW_cases s with ⟨hc, h⟩ | ⟨hc, _, h⟩ | ⟨_, hb, _⟩
  · refine ⟨s.outStore.data, ?_, ?_⟩
    · rw [h, if_pos hc, wroteTo, ← hc]
    · simp [bitsWritten, hc]
  · refine ⟨s.outStore.data ++ [s.bwBuf], ?_, ?_⟩
    · rw [h, if_neg hc]; simp [wroteTo, clearWriter, memAppend, hask]
    · have hne : s.bwCnt.toNat ≠ 0 := fun h0 => hc (BitVec.eq_of_toNat_eq (by simpa using h0))
      have hm : (8 - s.bwCnt.toNat) % 8 = 8 - s.bwCnt.toNat := by omega
      rw [bitsOf_append, bitsOf_cons, bitsOf_nil, hm, bitsWritten, byteBits_zeroFill s.bwBuf _ (by omega) hz]
      have ht : ((byteBits s.bwBuf).take s.bwCnt.toNat).length = s.bwCnt.toNat := by simp; omega
      simp [ht]
  · rw [hask, hok] at hb; cases hb

end Sys2Proof.Machine
end

