-- ==== Sys2Proof/Laws/Serializer.lean ====
section
/-! SUPPORT. The serializer (R191, R193, R195): writing a tree is writing `Ser(T)`; reading finds the tree written. -/

namespace Sys2Proof.Machine

theorem writeBits_append (xs ys : Bits) (s : State) :
    writeBits (xs ++ ys) s = (writeBits xs >>= fun _ => writeBits ys) s := by
  induction xs generalizing s with
  | nil => rfl
  | cons x xs ih =>
    change (writeBit x >>= fun _ => writeBits (xs ++ ys)) s =
      ((writeBit x >>= fun _ => writeBits xs) >>= fun _ => writeBits ys) s
    cases h : writeBit x s with
    | ok u s1 =>
      rw [Micro.bind_ok h, ih]
      cases h' : writeBits xs s1 with
      | ok u' s2 => rw [Micro.bind_ok h', Micro.bind_ok ((Micro.bind_ok h).trans h')]
      | error c s2 => rw [Micro.bind_error h', Micro.bind_error ((Micro.bind_ok h).trans h')]
    | error c s1 => rw [Micro.bind_error h, Micro.bind_error (Micro.bind_error h)]

/-- `Put(T)` writes exactly the bits `Ser(T)` (R191). -/
theorem putTree_eq (t : HuffTree) (s : State) : putTree t s = writeBits (ser t) s := by
  induction t generalizing s with
  | leaf v => rfl
  | internal l r ihl ihr =>
    change (writeBit false >>= fun _ => putTree l >>= fun _ => putTree r) s =
      (writeBit false >>= fun _ => writeBits (ser l ++ ser r)) s
    cases h : writeBit false s with
    | ok u s1 =>
      rw [Micro.bind_ok h, Micro.bind_ok h, writeBits_append]
      cases h' : writeBits (ser l) s1 with
      | ok u' s2 => rw [Micro.bind_ok ((ihl s1).trans h'), Micro.bind_ok h', ihr]
      | error c s2 => rw [Micro.bind_error ((ihl s1).trans h'), Micro.bind_error h']
    | error c s1 => rw [Micro.bind_error h, Micro.bind_error h]

theorem putTree_always (t : HuffTree) : Always WriterOnly (putTree t) := fun s => by
  rw [putTree_eq]
  exact writeBits_always _ s

theorem countNode_cases (s : State) :
    (s.nnodes.toNat = 511 ∧ countNode s = .error ⟨.treeTooBig, 0#8⟩ s) ∨
    (s.nnodes.toNat < 511 ∧ countNode s = .ok () { s with nnodes := s.nnodes + 1#9 } ∧
      (s.nnodes + 1#9).toNat = s.nnodes.toNat + 1) := by
  have hlt := s.nnodes.isLt
  by_cases h : s.nnodes.toNat = 511
  · exact .inl ⟨h, by simp [countNode, h, Config.nodeCap]⟩
  · refine .inr ⟨by omega, by simp [countNode, h, Config.nodeCap], ?_⟩
    rw [BitVec.toNat_add]
    simp
    omega

/-- One turn of `Get`, unfolded (R193). -/
theorem getTree_succ (n : Nat) (s : State) :
    getTree (n + 1) s =
      (readBit >>= fun t => look State.brEof >>= fun eof =>
        if eof then raiseErr .eofTag
        else countNode >>= fun _ =>
          if t then
            readByte >>= fun v => look State.brEof >>= fun eof' =>
              if eof' then raiseErr .eofByte else pure (.leaf v)
          else getTree n >>= fun l => getTree n >>= fun r => pure (.internal l r)) s := by
  rw [getTree]

/-- The reader moved on and some nodes were counted. -/
def readNodes (s : State) (pos : Word) (buf : BitVec 8) (avail : Fin 9) (nnodes : BitVec 9) : State :=
  { s with inPos := pos, brBuf := buf, brAvail := avail, nnodes := nnodes }

/-- Standing at the first bit of `Ser(T)`, `Get` returns `T` and stops right after its last bit, having counted
its nodes (R195). -/
theorem getTree_ser (t : HuffTree) (n : Nat) {s : State} (h : Readable s) (heof : s.brEof = false) {rest : Bits}
    (hs : bitsAhead s = ser t ++ rest) (hd : treeDepth t < n) (hn : s.nnodes.toNat + treeNodes t ≤ 511) :
    ∃ pos buf avail nn, getTree n s = .ok t (readNodes s pos buf avail nn) ∧
      bitsAhead (readNodes s pos buf avail nn) = rest ∧ pos.toNat ≤ inLen s ∧
      nn.toNat = s.nnodes.toNat + treeNodes t := by
  induction t generalizing n s rest with
  | leaf v =>
    obtain ⟨n, rfl⟩ : ∃ m, n = m + 1 := ⟨n - 1, by omega⟩
    obtain ⟨pos, buf, avail, h1, h2, h3⟩ := readBit_ahead h (rest := byteBits v ++ rest) (by rw [hs]; rfl)
    simp only [treeNodes] at hn
    rcases countNode_cases (readTo s pos buf avail) with ⟨hb, _⟩ | ⟨_, hc, hcn⟩
    · change s.nnodes.toNat = 511 at hb
      omega
    · have hr : Readable { readTo s pos buf avail with nnodes := s.nnodes + 1#9 } :=
        ⟨h.isOpen, h.steady, h3, h.short⟩
      have hah : bitsAhead { readTo s pos buf avail with nnodes := s.nnodes + 1#9 } = byteBits v ++ rest := h2
      obtain ⟨pos', buf', avail', k1, k2, k3⟩ := readByte_ahead hr (by rw [hah]; simp)
      rw [hah] at k1 k2
      have hv : byteOfBits ((byteBits v ++ rest).take 8) = v := by
        rw [List.take_left' (byteBits_length v), byteOfBits_byteBits]
      rw [hv] at k1
      rw [List.drop_left' (byteBits_length v)] at k2
      refine ⟨pos', buf', avail', s.nnodes + 1#9, ?_, k2, k3, hcn⟩
      have he : (readTo s pos buf avail).brEof = false := heof
      rw [getTree_succ, Micro.bind_ok h1, bind_look]
      simp only [he, Bool.false_eq_true, if_false, if_true]
      rw [Micro.bind_ok hc]
      refine (Micro.bind_ok k1).trans ?_
      rw [bind_look]
      have he' : (readTo { readTo s pos buf avail with nnodes := s.nnodes + 1#9 } pos' buf' avail').brEof = false :=
        heof
      simp only [he', Bool.false_eq_true, if_false]
      rfl
  | internal l r ihl ihr =>
    obtain ⟨n, rfl⟩ : ∃ m, n = m + 1 := ⟨n - 1, by omega⟩
    obtain ⟨pos, buf, avail, h1, h2, h3⟩ :=
      readBit_ahead h (b := false) (rest := ser l ++ (ser r ++ rest)) (by rw [hs]; simp [ser])
    simp only [treeNodes] at hn
    simp only [treeDepth] at hd
    rcases countNode_cases (readTo s pos buf avail) with ⟨hb, _⟩ | ⟨_, hc, hcn⟩
    · change s.nnodes.toNat = 511 at hb
      omega
    · have hcn' : (s.nnodes + 1#9).toNat = s.nnodes.toNat + 1 := hcn
      have hr : Readable { readTo s pos buf avail with nnodes := s.nnodes + 1#9 } :=
        ⟨h.isOpen, h.steady, h3, h.short⟩
      obtain ⟨p1, u1, a1, n1, k1, k2, k3, k4⟩ := ihl n hr heof h2 (by omega) (by
        change (s.nnodes + 1#9).toNat + treeNodes l ≤ 511
        omega)
      change n1.toNat = (s.nnodes + 1#9).toNat + treeNodes l at k4
      have hr' : Readable (readNodes { readTo s pos buf avail with nnodes := s.nnodes + 1#9 } p1 u1 a1 n1) :=
        ⟨h.isOpen, h.steady, k3, h.short⟩
      obtain ⟨p2, u2, a2, n2, m1, m2, m3, m4⟩ := ihr n hr' heof k2 (by omega) (by
        change n1.toNat + treeNodes r ≤ 511
        omega)
      change n2.toNat = n1.toNat + treeNodes r at m4
      refine ⟨p2, u2, a2, n2, ?_, m2, m3, by simp only [treeNodes]; omega⟩
      have he : (readTo s pos buf avail).brEof = false := heof
      rw [getTree_succ, Micro.bind_ok h1, bind_look]
      simp only [he, Bool.false_eq_true, if_false]
      rw [Micro.bind_ok hc]
      refine (Micro.bind_ok k1).trans ?_
      refine (Micro.bind_ok m1).trans ?_
      rfl

/-- A store that ends inside `Ser(T)` makes `Get` raise `EOF_TAG` or `EOF_BYTE`, whatever is drawn (R195). -/
theorem getTree_truncated (t : HuffTree) (n : Nat) {s : State} (h : Readable s) (heof : s.brEof = false)
    {missing : Bits} (hm : missing ≠ []) (hs : bitsAhead s ++ missing = ser t) (hd : treeDepth t < n)
    (hn : s.nnodes.toNat + treeNodes t ≤ 511) :
    ∃ sub s', getTree n s = .error ⟨sub, 0#8⟩ s' ∧ (sub = .eofTag ∨ sub = .eofByte) := by
  induction t generalizing n s missing with
  | leaf v =>
    obtain ⟨n, rfl⟩ : ∃ m, n = m + 1 := ⟨n - 1, by omega⟩
    cases hb : bitsAhead s with
    | nil =>
      have h1 := readBit_end h hb
      rw [getTree_succ, Micro.bind_ok h1, bind_look]
      exact ⟨_, _, rfl, .inl rfl⟩
    | cons b rest =>
      rw [hb] at hs
      simp only [ser, List.cons_append, List.cons.injEq] at hs
      obtain ⟨rfl, hrest⟩ := hs
      obtain ⟨pos, buf, avail, h1, h2, h3⟩ := readBit_ahead h hb
      simp only [treeNodes] at hn
      rcases countNode_cases (readTo s pos buf avail) with ⟨hbad, _⟩ | ⟨_, hc, hcn⟩
      · change s.nnodes.toNat = 511 at hbad
        omega
      · have hr : Readable { readTo s pos buf avail with nnodes := s.nnodes + 1#9 } :=
          ⟨h.isOpen, h.steady, h3, h.short⟩
        have hshort : (bitsAhead { readTo s pos buf avail with nnodes := s.nnodes + 1#9 }).length < 8 := by
          change (bitsAhead (readTo s pos buf avail)).length < 8
          rw [h2]
          have := congrArg List.length hrest
          rw [List.length_append, byteBits_length] at this
          have := List.length_pos_iff.2 hm
          omega
        obtain ⟨p1, u1, a1, d, v', k1, _, _⟩ := readByte_end hr hshort
        have he : (readTo s pos buf avail).brEof = false := heof
        rw [getTree_succ, Micro.bind_ok h1, bind_look]
        simp only [he, Bool.false_eq_true, if_false, if_true]
        rw [Micro.bind_ok hc]
        exact ⟨_, _, (Micro.bind_ok k1).trans rfl, .inr rfl⟩
  | internal l r ihl ihr =>
    obtain ⟨n, rfl⟩ : ∃ m, n = m + 1 := ⟨n - 1, by omega⟩
    simp only [treeNodes] at hn
    simp only [treeDepth] at hd
    cases hb : bitsAhead s with
    | nil =>
      have h1 := readBit_end h hb
      rw [getTree_succ, Micro.bind_ok h1, bind_look]
      exact ⟨_, _, rfl, .inl rfl⟩
    | cons b rest =>
      rw [hb] at hs
      simp only [ser, List.cons_append, List.cons.injEq] at hs
      obtain ⟨rfl, hrest⟩ := hs
      obtain ⟨pos, buf, avail, h1, h2, h3⟩ := readBit_ahead h hb
      rcases countNode_cases (readTo s pos buf avail) with ⟨hbad, _⟩ | ⟨_, hc, hcn⟩
      · change s.nnodes.toNat = 511 at hbad
        omega
      · have hcn' : (s.nnodes + 1#9).toNat = s.nnodes.toNat + 1 := hcn
        have hr : Readable { readTo s pos buf avail with nnodes := s.nnodes + 1#9 } :=
          ⟨h.isOpen, h.steady, h3, h.short⟩
        have hah : bitsAhead { readTo s pos buf avail with nnodes := s.nnodes + 1#9 } = rest := h2
        have he : (readTo s pos buf avail).brEof = false := heof
        have hgo : getTree (n + 1) s = (getTree n >>= fun l => getTree n >>= fun r => pure (.internal l r))
            { readTo s pos buf avail with nnodes := s.nnodes + 1#9 } := by
          rw [getTree_succ, Micro.bind_ok h1, bind_look, if_neg (by rw [he]; decide)]
          exact Micro.bind_ok hc
        rw [hgo]
        by_cases hlen : (ser l).length ≤ rest.length
        · -- the left subtree is whole: the store ends inside the right one
          obtain ⟨mid, rfl⟩ : ∃ mid, rest = ser l ++ mid := by
            refine ⟨rest.drop (ser l).length, ?_⟩
            have h4 : rest.take (ser l).length = ser l := by
              have := congrArg (List.take (ser l).length) hrest
              rw [List.take_append_of_le_length hlen, List.take_left' rfl] at this
              exact this
            conv_lhs => rw [← List.take_append_drop (ser l).length rest]
            rw [h4]
          rw [List.append_assoc, List.append_cancel_left_eq] at hrest
          obtain ⟨p1, u1, a1, n1, k1, k2, k3, k4⟩ := getTree_ser l n hr heof hah (by omega) (by
            change (s.nnodes + 1#9).toNat + treeNodes l ≤ 511
            omega)
          change n1.toNat = (s.nnodes + 1#9).toNat + treeNodes l at k4
          have hr' : Readable (readNodes { readTo s pos buf avail with nnodes := s.nnodes + 1#9 } p1 u1 a1 n1) :=
            ⟨h.isOpen, h.steady, k3, h.short⟩
          obtain ⟨sub, s', m1, m2⟩ := ihr n hr' heof hm (by rw [k2]; exact hrest) (by omega) (by
            change n1.toNat + treeNodes r ≤ 511
            omega)
          exact ⟨sub, s', (Micro.bind_ok k1).trans (Micro.bind_error m1), m2⟩
        · -- the store ends inside the left subtree
          obtain ⟨miss, hmiss⟩ : ∃ miss, rest ++ miss = ser l := by
            refine ⟨(ser l).drop rest.length, ?_⟩
            have h4 : (ser l).take rest.length = rest := by
              have := congrArg (List.take rest.length) hrest
              rw [List.take_left' rfl, List.take_append_of_le_length (by omega)] at this
              exact this.symm
            conv_lhs => lhs; rw [← h4]
            exact List.take_append_drop _ _
          have hne : miss ≠ [] := by
            rintro rfl
            rw [List.append_nil] at hmiss
            rw [hmiss] at hlen
            omega
          obtain ⟨sub, s', m1, m2⟩ := ihl n hr heof hne (by rw [hah]; exact hmiss) (by omega) (by
            change (s.nnodes + 1#9).toNat + treeNodes l ≤ 511
            omega)
          exact ⟨sub, s', Micro.bind_error m1, m2⟩

/-- A tree of more than 511 nodes makes `Get` raise `TREE_TOO_BIG` when it meets the 512th (R193, R195). -/
theorem getTree_tooBig (t : HuffTree) (n : Nat) {s : State} (h : Readable s) (heof : s.brEof = false) {rest : Bits}
    (hs : bitsAhead s = ser t ++ rest) (hn : 511 < s.nnodes.toNat + treeNodes t) (hf : 511 < n + s.nnodes.toNat) :
    ∃ s', getTree n s = .error ⟨.treeTooBig, 0#8⟩ s' ∧ s'.nnodes.toNat = 511 := by
  induction t generalizing n s rest with
  | leaf v =>
    have hlt := s.nnodes.isLt
    obtain ⟨n, rfl⟩ : ∃ m, n = m + 1 := ⟨n - 1, by omega⟩
    obtain ⟨pos, buf, avail, h1, h2, h3⟩ := readBit_ahead h (rest := byteBits v ++ rest) (by rw [hs]; rfl)
    simp only [treeNodes] at hn
    rcases countNode_cases (readTo s pos buf avail) with ⟨hb, hc⟩ | ⟨hb, _⟩
    · refine ⟨readTo s pos buf avail, ?_, hb⟩
      have he : (readTo s pos buf avail).brEof = false := heof
      rw [getTree_succ, Micro.bind_ok h1, bind_look]
      simp only [he, Bool.false_eq_true, if_false]
      exact Micro.bind_error hc
    · change s.nnodes.toNat < 511 at hb
      omega
  | internal l r ihl ihr =>
    have hlt := s.nnodes.isLt
    obtain ⟨n, rfl⟩ : ∃ m, n = m + 1 := ⟨n - 1, by omega⟩
    obtain ⟨pos, buf, avail, h1, h2, h3⟩ :=
      readBit_ahead h (b := false) (rest := ser l ++ (ser r ++ rest)) (by rw [hs]; simp [ser])
    simp only [treeNodes] at hn
    have he : (readTo s pos buf avail).brEof = false := heof
    rw [getTree_succ, Micro.bind_ok h1, bind_look]
    simp only [he, Bool.false_eq_true, if_false]
    rcases countNode_cases (readTo s pos buf avail) with ⟨hb, hc⟩ | ⟨_, hc, hcn⟩
    · exact ⟨readTo s pos buf avail, Micro.bind_error hc, hb⟩
    · have hcn' : (s.nnodes + 1#9).toNat = s.nnodes.toNat + 1 := hcn
      rw [Micro.bind_ok hc]
      have hr : Readable { readTo s pos buf avail with nnodes := s.nnodes + 1#9 } :=
        ⟨h.isOpen, h.steady, h3, h.short⟩
      by_cases hl : 511 < s.nnodes.toNat + 1 + treeNodes l
      · obtain ⟨s', k1, k2⟩ := ihl n hr heof h2 (by
          change 511 < (s.nnodes + 1#9).toNat + treeNodes l
          omega) (by
          change 511 < n + (s.nnodes + 1#9).toNat
          omega)
        exact ⟨s', Micro.bind_error k1, k2⟩
      · have hd := treeDepth_lt l
        have hnl := treeNodes_eq l
        obtain ⟨p1, u1, a1, n1, k1, k2, k3, k4⟩ := getTree_ser l n hr heof h2 (by omega) (by
          change (s.nnodes + 1#9).toNat + treeNodes l ≤ 511
          omega)
        change n1.toNat = (s.nnodes + 1#9).toNat + treeNodes l at k4
        obtain ⟨s', m1, m2⟩ :=
          ihr n (⟨h.isOpen, h.steady, k3, h.short⟩ :
            Readable (readNodes { readTo s pos buf avail with nnodes := s.nnodes + 1#9 } p1 u1 a1 n1)) heof k2 (by
          change 511 < n1.toNat + treeNodes r
          omega) (by
          change 511 < n + n1.toNat
          omega)
        exact ⟨s', (Micro.bind_ok k1).trans (Micro.bind_error m1), m2⟩

end Sys2Proof.Machine
end

