-- ==== Sys2Proof/Laws/Decompressor.lean ====
section
/-! SUPPORT. The decompressor (R231, R233, R235): one bit of traversal, the whole replay, the padding byte. -/

namespace Sys2Proof.Machine

theorem writeByte_steady (v : Byte) (s : State) (ho : s.outOpen = true) (hs : outSteady s) :
    ∃ buf cnt data, writeByte v s = .ok () (wroteTo s buf cnt data) ∧
      bitsWritten (wroteTo s buf cnt data) = bitsWritten s ++ byteBits v ∧
      (LowZero s → LowZero (wroteTo s buf cnt data)) :=
  writeBits_steady (byteBits v) s ho hs

/-! ## DecBit (R233) -/

/-- Everything `DecBit` can do (R233). -/
theorem decBit_cases (b : Bool) (s : State) :
    (s.tree = none ∧ decBit b s = .error ⟨.noTree, 0#8⟩ s) ∨
    (∃ t, s.tree = some t ∧ childAt t s.ptr b = none ∧ decBit b s = .error ⟨.noChild, 0#8⟩ s) ∨
    (∃ t v s1, s.tree = some t ∧ childAt t s.ptr b = some (.leaf v) ∧ writeByte v s = .ok () s1 ∧
      decBit b s = .ok (true, v) { s1 with ptr := some [] }) ∨
    (∃ t v c s1, s.tree = some t ∧ childAt t s.ptr b = some (.leaf v) ∧ writeByte v s = .error c s1 ∧
      decBit b s = .error c s1) ∨
    (∃ t l r, s.tree = some t ∧ childAt t s.ptr b = some (.internal l r) ∧
      decBit b s = .ok (false, 0#8) { s with ptr := s.ptr.map (fun path => path ++ [b]) }) := by
  unfold decBit
  cases ht : s.tree with
  | none => exact .inl ⟨rfl, rfl⟩
  | some t =>
    right
    cases hc : childAt t s.ptr b with
    | none => exact .inl ⟨t, rfl, hc, by simp only [hc]⟩
    | some c =>
      cases c with
      | leaf v =>
        right
        cases hw : writeByte v s with
        | ok u s1 => exact .inl ⟨t, v, s1, rfl, hc, hw, by simp only [hc, hw]⟩
        | error c s1 => exact .inr (.inl ⟨t, v, c, s1, rfl, hc, hw, by simp only [hc, hw]⟩)
      | internal l r => exact .inr (.inr (.inr ⟨t, l, r, rfl, hc, by simp only [hc]⟩))

/-- Below an `Internal` node both children exist (R12, R233). -/
theorem childAt_internal {t l r : HuffTree} {path : Bits} (h : nodeAt t path = some (.internal l r)) (b : Bool) :
    childAt t (some path) b = some (if b then r else l) := by
  rw [childAt, nodeAt_append, h]
  cases b
  · exact nodeAt_nil l
  · exact nodeAt_nil r

/-! ## Decode (R235) -/

/-- The reader, the writer, the output bytes and `PTR` moved on, nothing else. -/
def replayTo (s : State) (pos : Word) (buf : BitVec 8) (avail : Fin 9) (wbuf : BitVec 8) (wcnt : BitVec 3)
    (data : List Byte) (path : Bits) : State :=
  { s with
    inPos := pos, brBuf := buf, brAvail := avail
    bwBuf := wbuf, bwCnt := wcnt, outStore := { s.outStore with data := data }
    ptr := some path }

/-- `n` turns of the loop feed the first `n` bits ahead to the traversal and write what it emits (R235, R238). -/
theorem decodeLoop_steady (n : Nat) {s : State} {t l r : HuffTree} {path : Bits} (h : Readable s)
    (ho : s.outOpen = true) (hs : outSteady s) (ht : s.tree = some t) (hroot : isInternal t = true)
    (hp : s.ptr = some path) (hnode : nodeAt t path = some (.internal l r)) (hn : n ≤ (bitsAhead s).length) :
    ∃ pos buf avail wbuf wcnt data path',
      decodeLoop n s = .ok () (replayTo s pos buf avail wbuf wcnt data path') ∧
      bitsAhead (replayTo s pos buf avail wbuf wcnt data path') = (bitsAhead s).drop n ∧
      pos.toNat ≤ inLen s ∧
      bitsWritten (replayTo s pos buf avail wbuf wcnt data path') =
        bitsWritten s ++ bitsOf (replay t (.internal l r) ((bitsAhead s).take n)) ∧
      (LowZero s → LowZero (replayTo s pos buf avail wbuf wcnt data path')) ∧
      ∃ l' r', nodeAt t path' = some (.internal l' r') := by
  induction n generalizing s l r path with
  | zero =>
    refine ⟨s.inPos, s.brBuf, s.brAvail, s.bwBuf, s.bwCnt, s.outStore.data, path, ?_, rfl, h.inside, ?_, id, l, r, hnode⟩
    · change EStateM.Result.ok () s = _
      rw [replayTo, ← hp]
    · simp [replay, bitsOf, replayTo, bitsWritten]
  | succ n ih =>
    cases hb : bitsAhead s with
    | nil => rw [hb] at hn; simp at hn
    | cons b rest =>
      obtain ⟨pos, buf, avail, h1, h2, h3⟩ := readBit_ahead h hb
      rw [hb] at hn
      have hn' : n ≤ rest.length := by simpa using hn
      have hgo : decodeLoop (n + 1) s = (decBit b >>= fun _ => decodeLoop n) (readTo s pos buf avail) := by
        change (readBit >>= fun b => decBit b >>= fun _ => decodeLoop n) s = _
        exact Micro.bind_ok h1
      have hchild := childAt_internal hnode b
      have ht1 : (readTo s pos buf avail).tree = some t := ht
      have hp1 : (readTo s pos buf avail).ptr = some path := hp
      cases hc : (if b then r else l) with
      | leaf v =>
        obtain ⟨l0, r0, rfl⟩ : ∃ l0 r0, t = .internal l0 r0 := by
          cases t with
          | leaf v => cases hroot
          | internal l0 r0 => exact ⟨l0, r0, rfl⟩
        obtain ⟨wb, wc, data, w1, w2, w3⟩ := writeByte_steady v (readTo s pos buf avail) ho hs
        have hd : decBit b (readTo s pos buf avail) =
            .ok (true, v) { wroteTo (readTo s pos buf avail) wb wc data with ptr := some [] } := by
          unfold decBit
          simp only [ht1, hp1, hchild, hc, w1]
        have hr : Readable { wroteTo (readTo s pos buf avail) wb wc data with ptr := some [] } :=
          ⟨h.isOpen, h.steady, h3, h.short⟩
        have hah : bitsAhead { wroteTo (readTo s pos buf avail) wb wc data with ptr := some [] } = rest := h2
        obtain ⟨p', u', a', wb', wc', data', path', k1, k2, k3, k4, k5, k6⟩ :=
          ih hr ho hs ht1 rfl (nodeAt_nil _) (by rw [hah]; exact hn')
        rw [hah] at k2 k4
        refine ⟨p', u', a', wb', wc', data', path', ?_, ?_, k3, ?_, fun hz => k5 (w3 hz), k6⟩
        · rw [hgo, Micro.bind_ok hd]
          exact k1
        · rw [List.drop_succ_cons]
          exact k2
        · change bitsWritten (replayTo (wroteTo (readTo s pos buf avail) wb wc data) p' u' a' wb' wc' data' path') = _
          refine k4.trans ?_
          change bitsWritten (wroteTo (readTo s pos buf avail) wb wc data) ++ _ = _
          rw [w2]
          change (bitsWritten s ++ byteBits v) ++ _ = _
          rw [List.take_succ_cons]
          simp only [replay, hc, bitsOf_cons, List.append_assoc]
      | internal l' r' =>
        have hnode' : nodeAt t (path ++ [b]) = some (.internal l' r') := by
          rw [childAt] at hchild
          rw [hchild, hc]
        have hd : decBit b (readTo s pos buf avail) =
            .ok (false, 0#8) { readTo s pos buf avail with ptr := some (path ++ [b]) } := by
          unfold decBit
          simp only [ht1, hp1, hchild, hc, Option.map_some]
        have hr : Readable { readTo s pos buf avail with ptr := some (path ++ [b]) } :=
          ⟨h.isOpen, h.steady, h3, h.short⟩
        have hah : bitsAhead { readTo s pos buf avail with ptr := some (path ++ [b]) } = rest := h2
        obtain ⟨p', u', a', wb', wc', data', path', k1, k2, k3, k4, k5, k6⟩ :=
          ih hr ho hs ht1 rfl hnode' (by rw [hah]; exact hn')
        rw [hah] at k2 k4
        refine ⟨p', u', a', wb', wc', data', path', ?_, ?_, k3, ?_, k5, k6⟩
        · rw [hgo, Micro.bind_ok hd]
          exact k1
        · rw [List.drop_succ_cons]
          exact k2
        · refine k4.trans ?_
          change bitsWritten s ++ _ = _
          rw [List.take_succ_cons]
          simp only [replay, hc]

/-- `R` counts the bits ahead (R35, R235). -/
theorem bitsLeft_eq {s : State} (h : s.inPos.toNat ≤ inLen s) : bitsLeft s = (bitsAhead s).length := by
  rw [bitsAhead_length, bitsLeft]
  omega

/-! ## RdPad (R231) -/

/-- With eight bits ahead, `RdPad` takes them as the padding count, or refuses a value above 7 (R231). -/
theorem rdPad_ahead {s : State} (h : Readable s) (heof : s.brEof = false) (hn : 8 ≤ (bitsAhead s).length) :
    ∃ pos buf avail,
      bitsAhead (readTo s pos buf avail) = (bitsAhead s).drop 8 ∧ pos.toNat ≤ inLen s ∧
      rdPad s =
        if 7 < (byteOfBits ((bitsAhead s).take 8)).toNat then
          .error ⟨.padRange, byteOfBits ((bitsAhead s).take 8)⟩ (readTo s pos buf avail)
        else .ok () { readTo s pos buf avail with pad := (byteOfBits ((bitsAhead s).take 8)).extractLsb' 0 3 } := by
  obtain ⟨pos, buf, avail, h1, h2, h3⟩ := readByte_ahead h hn
  refine ⟨pos, buf, avail, h2, h3, ?_⟩
  have he : (readTo s pos buf avail).brEof = false := heof
  unfold rdPad
  rw [Micro.bind_ok h1, bind_look, if_neg (by rw [he]; decide)]
  split <;> rfl

/-- With fewer than eight bits ahead, `RdPad` refuses and leaves `PAD` (R231). -/
theorem rdPad_end {s : State} (h : Readable s) (hn : (bitsAhead s).length < 8) :
    ∃ pos buf avail draws, pos.toNat ≤ inLen s ∧
      rdPad s = .error ⟨.eofPad, 0#8⟩ { readTo s pos buf avail with brEof := true, draws := draws } := by
  obtain ⟨pos, buf, avail, d, v, h1, _, h3⟩ := readByte_end h hn
  refine ⟨pos, buf, avail, d, h3, ?_⟩
  unfold rdPad
  rw [Micro.bind_ok h1, bind_look]
  rfl

/-! ## Decode without a writer (R235, R236) -/

/-- A bit that leads to an `Internal` node moves `PTR` there and needs no writer (R233). -/
theorem decBit_internal {b : Bool} {s : State} {t l r l' r' : HuffTree} {path : Bits} (ht : s.tree = some t)
    (hp : s.ptr = some path) (hnode : nodeAt t path = some (.internal l r))
    (hc : (if b then r else l) = .internal l' r') :
    decBit b s = .ok (false, 0#8) { s with ptr := some (path ++ [b]) } := by
  have hchild := childAt_internal hnode b
  unfold decBit
  simp only [ht, hp, hchild, hc, Option.map_some]

/-- A bit that leads to a leaf raises when the writer is closed, `PTR` still above the leaf (R233). -/
theorem decBit_closed {b : Bool} {s : State} {t l r : HuffTree} {v : Byte} {path : Bits} (ht : s.tree = some t)
    (hp : s.ptr = some path) (hnode : nodeAt t path = some (.internal l r)) (hc : (if b then r else l) = .leaf v)
    (ho : s.outOpen = false) : decBit b s = .error ⟨.outClosed, 0#8⟩ s := by
  have hchild := childAt_internal hnode b
  have hw : writeByte v s = .error ⟨.outClosed, 0#8⟩ s :=
    Micro.bind_error (show writeBit _ s = _ by unfold writeBit; rw [if_pos ho])
  unfold decBit
  simp only [ht, hp, hchild, hc, hw]

/-- The reader and `PTR` moved on, nothing else. -/
def walkTo (s : State) (pos : Word) (buf : BitVec 8) (avail : Fin 9) (path : Bits) : State :=
  { s with inPos := pos, brBuf := buf, brAvail := avail, ptr := some path }

/-- The loop over bits that stay inside the tree needs no writer (R235). -/
theorem decodeLoop_inside (word : Bits) {n : Nat} {s : State} {t l r l' r' : HuffTree} {path rest : Bits}
    (h : Readable s) (ht : s.tree = some t) (hp : s.ptr = some path) (hnode : nodeAt t path = some (.internal l r))
    (hb : bitsAhead s = word ++ rest) (hend : nodeAt t (path ++ word) = some (.internal l' r')) :
    ∃ pos buf avail,
      decodeLoop (word.length + n) s = decodeLoop n (walkTo s pos buf avail (path ++ word)) ∧
      bitsAhead (walkTo s pos buf avail (path ++ word)) = rest ∧ pos.toNat ≤ inLen s := by
  induction word generalizing s l r path with
  | nil =>
    refine ⟨s.inPos, s.brBuf, s.brAvail, ?_, hb, h.inside⟩
    rw [List.length_nil, Nat.zero_add, walkTo, List.append_nil, ← hp]
  | cons b word ih =>
    obtain ⟨pos, buf, avail, k1, k2, k3⟩ := readBit_ahead h hb
    have hstep : ∃ l1 r1, (if b then r else l) = .internal l1 r1 := by
      cases hc : (if b then r else l) with
      | internal l1 r1 => exact ⟨l1, r1, rfl⟩
      | leaf v =>
        have hchild := childAt_internal hnode b
        rw [childAt, hc] at hchild
        rw [← List.singleton_append, ← List.append_assoc, nodeAt_append, hchild] at hend
        cases word with
        | nil => rw [Option.bind_some, nodeAt_nil] at hend; cases hend
        | cons b' w => cases hend
    obtain ⟨l1, r1, hc⟩ := hstep
    have hnode' : nodeAt t (path ++ [b]) = some (.internal l1 r1) := by
      rw [← hc]; exact childAt_internal hnode b
    have hd := decBit_internal (s := readTo s pos buf avail) ht hp hnode hc
    obtain ⟨pos', buf', avail', j1, j2, j3⟩ := ih
      (s := { readTo s pos buf avail with ptr := some (path ++ [b]) }) ⟨h.isOpen, h.steady, k3, h.short⟩ ht rfl hnode' k2
      (by rwa [List.append_assoc])
    rw [List.append_assoc] at j1 j2
    refine ⟨pos', buf', avail', ?_, j2, j3⟩
    have hlen : (b :: word).length + n = (word.length + n) + 1 := by simp; omega
    rw [hlen]
    exact ((Micro.bind_ok k1).trans (Micro.bind_ok hd)).trans j1

/-- The loop over a codeword with the writer closed raises at its last bit (R235, R236). -/
theorem decodeLoop_closed {n : Nat} {s : State} {t l r : HuffTree} {word rest : Bits} {v : Byte} (h : Readable s)
    (ho : s.outOpen = false) (ht : s.tree = some t) (hp : s.ptr = some []) (hroot : t = .internal l r)
    (hb : bitsAhead s = word ++ rest) (hend : nodeAt t word = some (.leaf v)) (hn : word.length ≤ n) :
    ∃ pos buf avail,
      decodeLoop n s = .error ⟨.outClosed, 0#8⟩ (walkTo s pos buf avail word.dropLast) ∧
      bitsAhead (walkTo s pos buf avail word.dropLast) = rest := by
  have hne : word ≠ [] := by
    rintro rfl
    rw [nodeAt_nil, hroot] at hend
    cases hend
  obtain ⟨w, b, rfl⟩ : ∃ w b, word = w ++ [b] := ⟨_, _, (List.dropLast_append_getLast hne).symm⟩
  rw [List.dropLast_concat]
  rw [nodeAt_append] at hend
  obtain ⟨u, hu, hub⟩ := Option.bind_eq_some_iff.1 hend
  obtain ⟨l', r', rfl⟩ : ∃ l' r', u = .internal l' r' := by
    cases u with
    | leaf v' => cases hub
    | internal l' r' => exact ⟨l', r', rfl⟩
  have hc : (if b then r' else l') = .leaf v := by
    cases b
    · rw [nodeAt, if_neg (by decide), nodeAt_nil] at hub; exact Option.some.inj hub
    · rw [nodeAt, if_pos rfl, nodeAt_nil] at hub; exact Option.some.inj hub
  obtain ⟨m, rfl⟩ : ∃ m, n = w.length + (m + 1) := ⟨n - (w.length + 1), by simp at hn; omega⟩
  rw [List.append_assoc] at hb
  obtain ⟨pos, buf, avail, k1, k2, k3⟩ := decodeLoop_inside w (n := m + 1) h ht hp
    (by rw [nodeAt_nil, hroot]) hb (by simpa using hu)
  rw [List.nil_append] at k1 k2
  obtain ⟨pos', buf', avail', j1, j2, _⟩ := readBit_ahead (s := walkTo s pos buf avail w)
    ⟨h.isOpen, h.steady, k3, h.short⟩ k2
  have hd := decBit_closed (s := readTo (walkTo s pos buf avail w) pos' buf' avail') ht rfl hu hc ho
  exact ⟨pos', buf', avail', k1.trans ((Micro.bind_ok j1).trans (Micro.bind_error hd)), j2⟩

end Sys2Proof.Machine
end

