-- ==== Sys2Proof/Laws/Tables.lean ====
section
/-! SUPPORT. The two tables (R29, R31), the table builder (R171), and the two passes over the input (R154, R177). -/

namespace Sys2Proof.Machine

variable {α : Type}

/-! ## Slots -/

@[simp] theorem slotGet_slotSet_self (t : Vector α 256) (b : Byte) (x : α) : slotGet (slotSet t b x) b = x := by
  simp [slotGet, slotSet]

theorem slotGet_slotSet_ne (t : Vector α 256) {b c : Byte} (h : c ≠ b) (x : α) :
    slotGet (slotSet t b x) c = slotGet t c := by
  have hne : b.toNat ≠ c.toNat := fun h' => h (BitVec.eq_of_toNat_eq h'.symm)
  simp only [slotGet, slotSet]
  exact Vector.getElem_set_ne _ _ hne

theorem slotGet_slotSet (t : Vector α 256) (b c : Byte) (x : α) :
    slotGet (slotSet t b x) c = if c = b then x else slotGet t c := by
  split
  · rename_i h; rw [h]; simp
  · rename_i h; exact slotGet_slotSet_ne t h x

theorem slot_ext {t u : Vector α 256} (h : ∀ b, slotGet t b = slotGet u b) : t = u := by
  apply Vector.ext
  intro i hi
  have := h (BitVec.ofNat 8 i)
  have hn : (BitVec.ofNat 8 i).toNat = i := by simp; omega
  simpa [slotGet, hn] using this

@[simp] theorem slotGet_emptyFreq (b : Byte) : slotGet emptyFreq b = 0#32 := by
  simp [slotGet, emptyFreq]

@[simp] theorem slotGet_emptyCode (b : Byte) : slotGet emptyCode b = none := by
  simp [slotGet, emptyCode]

/-! ## Walk and MkTab (R171) -/

/-- On a tree without repeated leaf values, `Walk` records each leaf's path and leaves every other entry alone. -/
theorem slotGet_walk (t : HuffTree) (path : Bits) (c : CodeTable) (b : Byte) (hn : (leafBytes t).Nodup) :
    slotGet (walk t path c) b =
      match codewordOf t b with
      | some p => some (path ++ p)
      | none => slotGet c b := by
  induction t generalizing path c with
  | leaf v =>
    simp only [walk, codewordOf, slotGet_slotSet]
    by_cases h : v = b
    · simp [h]
    · have h' : b ≠ v := fun e => h e.symm
      simp [h, h']
  | internal l r ihl ihr =>
    simp only [leafBytes] at hn
    have hl := (List.nodup_append.1 hn).1
    have hr := (List.nodup_append.1 hn).2.1
    have hd := (List.nodup_append.1 hn).2.2
    simp only [walk, codewordOf]
    rw [ihr _ _ hr]
    cases hcr : codewordOf r b with
    | none =>
      rw [ihl _ _ hl]
      cases hcl : codewordOf l b <;> simp
    | some p =>
      have hbr : b ∈ leafBytes r := (codewordOf_isSome_iff r b).1 (by simp [hcr])
      have hcl : codewordOf l b = none := by
        cases h : codewordOf l b with
        | none => rfl
        | some q =>
          have hbl : b ∈ leafBytes l := (codewordOf_isSome_iff l b).1 (by simp [h])
          exact absurd rfl (hd b hbl b hbr)
      simp [hcl]

theorem firstRepeat_none_iff (seen l : List Byte) :
    firstRepeat seen l = none ↔ l.Nodup ∧ ∀ v ∈ l, v ∉ seen := by
  induction l generalizing seen with
  | nil => simp [firstRepeat]
  | cons v vs ih =>
    simp only [firstRepeat]
    split
    · rename_i h
      simp only [reduceCtorEq, List.mem_cons, false_iff, not_and]
      exact fun _ h' => h' v (.inl rfl) h
    · rename_i h
      rw [ih]
      simp only [List.mem_cons, not_or, List.nodup_cons]
      constructor
      · rintro ⟨h1, h2⟩
        refine ⟨⟨fun hv => (h2 v hv).1 rfl, h1⟩, ?_⟩
        rintro w (rfl | hw)
        · exact h
        · exact (h2 w hw).2
      · rintro ⟨⟨h1, h2⟩, h3⟩
        refine ⟨h2, fun w hw => ⟨?_, h3 w (.inr hw)⟩⟩
        rintro rfl
        exact h1 hw

/-- Everything `MkTab` can do (R171). -/
theorem mkTab_cases (s : State) :
    (s.tree = none ∧ mkTab s = .error ⟨.noTree, 0#8⟩ s) ∨
    (∃ t v, s.tree = some t ∧ ¬ (leafBytes t).Nodup ∧ firstRepeat [] (leafBytes t) = some v ∧
      mkTab s = .error ⟨.dupLeaf, v⟩ (clearTable s)) ∨
    (∃ t code, s.tree = some t ∧ (leafBytes t).Nodup ∧ (∀ b, slotGet code b = codewordOf t b) ∧
      mkTab s = .ok () { s with code := code, tabValid := true }) := by
  unfold mkTab
  cases ht : s.tree with
  | none => exact .inl ⟨rfl, rfl⟩
  | some t =>
    right
    cases hr : firstRepeat [] (leafBytes t) with
    | some v =>
      refine .inl ⟨t, v, rfl, fun hn => ?_, hr, by simp only [hr]⟩
      have := (firstRepeat_none_iff [] (leafBytes t)).2 ⟨hn, by simp⟩
      rw [hr] at this
      cases this
    | none =>
      have hn := ((firstRepeat_none_iff [] (leafBytes t)).1 hr).1
      refine .inr ⟨t, walk t [] emptyCode, rfl, hn, fun b => ?_, ?_⟩
      · rw [slotGet_walk t [] emptyCode b hn]
        cases codewordOf t b <;> simp
      · simp [hr, clearTable, ht]

/-! ## Counting (R152, R154) -/

theorem freqAdd_cases (b : Byte) (n : Word) (s : State) :
    ((slotGet s.freq b).toNat + n.toNat ≤ Config.freqMax ∧
      freqAdd b n s = .ok () { s with freq := slotSet s.freq b (slotGet s.freq b + n) } ∧
      (slotGet s.freq b + n).toNat = (slotGet s.freq b).toNat + n.toNat) ∨
    (Config.freqMax < (slotGet s.freq b).toNat + n.toNat ∧ freqAdd b n s = .error ⟨.freqOverflow, b⟩ s) := by
  by_cases h : Config.freqMax < (slotGet s.freq b).toNat + n.toNat
  · exact .inr ⟨h, by simp [freqAdd, h]⟩
  · refine .inl ⟨by omega, by simp [freqAdd, h], ?_⟩
    rw [BitVec.toNat_add]
    apply Nat.mod_eq_of_lt
    simp only [Config.freqMax] at h
    omega

/-- What a pass over the input leaves in the reader (R154, R177). -/
def readOut (s : State) (pos : Word) (buf : BitVec 8) (avail : Fin 9) (draws : Nat) : State :=
  { s with inPos := pos, brBuf := buf, brAvail := avail, brEof := true, draws := draws }

theorem readTurns_enough {s : State} : (bitsAhead s).length / 8 < readTurns s := by
  have := s.brAvail.isLt
  rw [bitsAhead_length, readTurns]
  omega

/-- `Tally` counts every whole byte ahead and ends at end of input (R154). -/
theorem tallyLoop_steady (n : Nat) {s : State} (h : Readable s) (heof : s.brEof = false)
    (hn : (bitsAhead s).length / 8 < n)
    (hfit : ∀ b, (slotGet s.freq b).toNat + (wholeBytes (bitsAhead s)).count b ≤ Config.freqMax) :
    ∃ pos buf avail d f, tallyLoop n s = .ok () { readOut s pos buf avail d with freq := f } ∧
      (∀ b, (slotGet f b).toNat = (slotGet s.freq b).toNat + (wholeBytes (bitsAhead s)).count b) ∧
      bitsAhead (readOut s pos buf avail d) = [] ∧ pos.toNat ≤ inLen s := by
  induction n generalizing s with
  | zero => omega
  | succ n ih =>
    by_cases h8 : 8 ≤ (bitsAhead s).length
    · obtain ⟨pos, buf, avail, h1, h2, h3⟩ := readByte_ahead h h8
      have hw := wholeBytes_step h8
      rw [← h2] at hw
      have hv := hfit (byteOfBits ((bitsAhead s).take 8))
      rw [hw, List.count_cons_self] at hv
      have hone : (1#32 : Word).toNat = 1 := rfl
      rcases freqAdd_cases (byteOfBits ((bitsAhead s).take 8)) 1#32 (readTo s pos buf avail) with
        ⟨_, ha, hs⟩ | ⟨hbad, _⟩
      · have hr : Readable { readTo s pos buf avail with
            freq := slotSet s.freq (byteOfBits ((bitsAhead s).take 8))
              (slotGet s.freq (byteOfBits ((bitsAhead s).take 8)) + 1#32) } :=
          ⟨h.isOpen, h.steady, h3, h.short⟩
        have hcount : ∀ b, (slotGet (slotSet s.freq (byteOfBits ((bitsAhead s).take 8))
              (slotGet s.freq (byteOfBits ((bitsAhead s).take 8)) + 1#32)) b).toNat +
              (wholeBytes (bitsAhead (readTo s pos buf avail))).count b =
            (slotGet s.freq b).toNat + (wholeBytes (bitsAhead s)).count b := by
          intro b
          rw [hw, slotGet_slotSet]
          by_cases hb : b = byteOfBits ((bitsAhead s).take 8)
          · subst hb
            have hs' : (slotGet s.freq (byteOfBits ((bitsAhead s).take 8)) + 1#32).toNat =
                (slotGet s.freq (byteOfBits ((bitsAhead s).take 8))).toNat + 1 := hs
            rw [if_pos rfl, List.count_cons_self, hs']
            omega
          · rw [if_neg hb, List.count_cons_of_ne (fun e => hb e.symm)]
        obtain ⟨pos', buf', avail', d, f, k1, k2, k3, k4⟩ := ih hr heof
          (by
            change (bitsAhead (readTo s pos buf avail)).length / 8 < n
            rw [h2, List.length_drop]
            omega)
          (by
            intro b
            have := hfit b
            have := hcount b
            change (slotGet (slotSet s.freq _ _) b).toNat +
              (wholeBytes (bitsAhead (readTo s pos buf avail))).count b ≤ _
            omega)
        refine ⟨pos', buf', avail', d, f, ?_, ?_, k3, k4⟩
        · change (readByte >>= fun v => look State.brEof >>= fun eof =>
            if eof then pure () else freqAdd v 1#32 >>= fun _ => tallyLoop n) s = _
          rw [Micro.bind_ok h1, bind_look]
          have he : (readTo s pos buf avail).brEof = false := heof
          simp only [he, Bool.false_eq_true, if_false]
          rw [Micro.bind_ok ha]
          exact k1
        · intro b
          rw [← hcount b]
          exact k2 b
      · have : (slotGet (readTo s pos buf avail).freq (byteOfBits ((bitsAhead s).take 8))) =
            slotGet s.freq (byteOfBits ((bitsAhead s).take 8)) := rfl
        rw [this, hone] at hbad
        omega
    · obtain ⟨pos, buf, avail, d, v, h1, h2, h3⟩ := readByte_end h (by omega)
      refine ⟨pos, buf, avail, d, s.freq, ?_, ?_, h2, h3⟩
      · change (readByte >>= fun v => look State.brEof >>= fun eof =>
          if eof then pure () else freqAdd v 1#32 >>= fun _ => tallyLoop n) s = _
        rw [Micro.bind_ok h1, bind_look]
        rfl
      · intro b
        rw [wholeBytes_short (by omega)]
        simp

/-- One turn of a pass with a whole byte ahead: the byte goes to the rest of the turn (R154, R177). -/
theorem pass_ahead (g : Byte → Micro Unit) {s : State} (h : Readable s) (heof : s.brEof = false)
    (h8 : 8 ≤ (bitsAhead s).length) :
    ∃ pos buf avail,
      (readByte >>= fun v => look State.brEof >>= fun eof => if eof then pure () else g v) s =
        g (byteOfBits ((bitsAhead s).take 8)) (readTo s pos buf avail) ∧
      bitsAhead (readTo s pos buf avail) = (bitsAhead s).drop 8 ∧ pos.toNat ≤ inLen s := by
  obtain ⟨pos, buf, avail, h1, h2, h3⟩ := readByte_ahead h h8
  refine ⟨pos, buf, avail, ?_, h2, h3⟩
  have he : (readTo s pos buf avail).brEof = false := heof
  rw [Micro.bind_ok h1, bind_look, if_neg (by rw [he]; decide)]

theorem drop_pass (bs : Bits) (n : Nat) : (bs.drop 8).drop (8 * (n + 1)) = bs.drop (8 * (n + 2)) := by
  rw [List.drop_drop]
  congr 1
  omega

/-- `Tally` counts the bytes before the first one whose counter is then full, and raises there (R154). -/
theorem tallyLoop_full (pre : List Byte) {n : Nat} {s : State} {v : Byte} {post : List Byte} (h : Readable s)
    (heof : s.brEof = false) (hn : pre.length < n) (hp : wholeBytes (bitsAhead s) = pre ++ v :: post)
    (hfit : ∀ b, (slotGet s.freq b).toNat + pre.count b ≤ Config.freqMax)
    (hfull : (slotGet s.freq v).toNat + pre.count v = Config.freqMax) :
    ∃ pos buf avail f, tallyLoop n s = .error ⟨.freqOverflow, v⟩ { readTo s pos buf avail with freq := f } ∧
      (∀ b, (slotGet f b).toNat = (slotGet s.freq b).toNat + pre.count b) ∧
      bitsAhead (readTo s pos buf avail) = (bitsAhead s).drop (8 * (pre.length + 1)) := by
  induction pre generalizing n s with
  | nil =>
    obtain ⟨n, rfl⟩ := Nat.exists_eq_succ_of_ne_zero (Nat.ne_of_gt hn)
    obtain ⟨h8, hv, _⟩ := wholeBytes_cons hp
    obtain ⟨pos, buf, avail, k1, k2, _⟩ := pass_ahead (fun v => freqAdd v 1#32 >>= fun _ => tallyLoop n) h heof h8
    rw [hv] at k1
    refine ⟨pos, buf, avail, s.freq, ?_, by simp, by simpa using k2⟩
    rcases freqAdd_cases v 1#32 (readTo s pos buf avail) with ⟨hle, _⟩ | ⟨_, e⟩
    · have : (1#32 : Word).toNat = 1 := rfl
      have : (slotGet s.freq v).toNat + (1#32 : Word).toNat ≤ Config.freqMax := hle
      simp at hfull
      omega
    · exact k1.trans (Micro.bind_error e)
  | cons w pre ih =>
    obtain ⟨n, rfl⟩ := Nat.exists_eq_succ_of_ne_zero (Nat.ne_of_gt (Nat.lt_of_le_of_lt (Nat.zero_le _) hn))
    obtain ⟨h8, hw, hrest⟩ := wholeBytes_cons hp
    obtain ⟨pos, buf, avail, k1, k2, k3⟩ := pass_ahead (fun v => freqAdd v 1#32 >>= fun _ => tallyLoop n) h heof h8
    rw [hw] at k1
    have hone : (1#32 : Word).toNat = 1 := rfl
    rcases freqAdd_cases w 1#32 (readTo s pos buf avail) with ⟨_, e, hsum⟩ | ⟨hbad, _⟩
    · have hstep : ∀ b, (slotGet (slotSet s.freq w (slotGet s.freq w + 1#32)) b).toNat + pre.count b =
          (slotGet s.freq b).toNat + (w :: pre).count b := by
        intro b
        have hsum' : (slotGet s.freq w + 1#32).toNat = (slotGet s.freq w).toNat + 1 := hsum
        rw [slotGet_slotSet]
        by_cases hb : b = w
        · subst hb
          rw [if_pos rfl, hsum', List.count_cons_self]
          omega
        · rw [if_neg hb, List.count_cons_of_ne (fun e => hb e.symm)]
      obtain ⟨pos', buf', avail', f, j1, j2, j3⟩ := ih (n := n)
        (s := { readTo s pos buf avail with freq := slotSet s.freq w (slotGet s.freq w + 1#32) })
        ⟨h.isOpen, h.steady, k3, h.short⟩ heof (by simpa using hn)
        (by
          change wholeBytes (bitsAhead (readTo s pos buf avail)) = _
          rw [k2]
          exact hrest)
        (fun b => (hstep b).symm ▸ hfit b) ((hstep v).symm ▸ hfull)
      refine ⟨pos', buf', avail', f, k1.trans ((Micro.bind_ok e).trans j1), fun b => (j2 b).trans (hstep b), ?_⟩
      refine Eq.trans j3 ?_
      change (bitsAhead (readTo s pos buf avail)).drop _ = _
      rw [k2, drop_pass]
      rfl
    · have hb : Config.freqMax < (slotGet s.freq w).toNat + 1 := hbad
      have := hfit w
      rw [List.count_cons_self] at this
      omega

/-! ## Encoding (R173, R175, R177) -/

theorem lookupCode_cases (v : Byte) (s : State) :
    (slotGet s.code v = none ∧ lookupCode v s = .error ⟨.noEntry, v⟩ s) ∨
    (∃ c, slotGet s.code v = some c ∧ lookupCode v s = .ok c s) := by
  cases h : slotGet s.code v with
  | none => exact .inl ⟨rfl, by simp [lookupCode, h]⟩
  | some c => exact .inr ⟨c, rfl, by simp [lookupCode, h]⟩

/-- Everything `EncSym` can do (R175). -/
theorem encSym_cases (v : Byte) (s : State) :
    (slotGet s.code v = none ∧ encSym v s = .error ⟨.noEntry, v⟩ s) ∨
    (∃ c, slotGet s.code v = some c ∧ s.cfg.encCap.toNat < s.enc.length + c.length ∧
      encSym v s = .error ⟨.encFull, 0#8⟩ s) ∨
    (∃ c, slotGet s.code v = some c ∧ s.enc.length + c.length ≤ s.cfg.encCap.toNat ∧
      encSym v s = .ok () { s with enc := s.enc ++ c }) := by
  rcases lookupCode_cases v s with ⟨h, h1⟩ | ⟨c, h, h1⟩
  · exact .inl ⟨h, Micro.bind_error h1⟩
  · right
    have key : encSym v s =
        (if decide (s.enc.length + c.length ≤ s.cfg.encCap.toNat) then
          change (fun s => { s with enc := s.enc ++ c }) else raiseErr .encFull : Micro Unit) s := by
      unfold encSym
      rw [Micro.bind_ok h1, bind_look]
    by_cases hc : s.enc.length + c.length ≤ s.cfg.encCap.toNat
    · refine .inr ⟨c, h, hc, ?_⟩
      rw [key, decide_eq_true hc]
      rfl
    · refine .inl ⟨c, h, by omega, ?_⟩
      rw [key, decide_eq_false hc]
      rfl

/-- `Encode` appends the codeword of every whole byte ahead and ends at end of input (R177). -/
theorem encodeLoop_steady (n : Nat) {s : State} (h : Readable s) (heof : s.brEof = false)
    (hn : (bitsAhead s).length / 8 < n)
    (hall : ∀ b ∈ wholeBytes (bitsAhead s), (slotGet s.code b).isSome = true)
    (hfit : s.enc.length + (codesOf s.code (wholeBytes (bitsAhead s))).length ≤ s.cfg.encCap.toNat) :
    ∃ pos buf avail d, encodeLoop n s =
        .ok () { readOut s pos buf avail d with enc := s.enc ++ codesOf s.code (wholeBytes (bitsAhead s)) } ∧
      bitsAhead (readOut s pos buf avail d) = [] ∧ pos.toNat ≤ inLen s := by
  induction n generalizing s with
  | zero => omega
  | succ n ih =>
    by_cases h8 : 8 ≤ (bitsAhead s).length
    · obtain ⟨pos, buf, avail, h1, h2, h3⟩ := readByte_ahead h h8
      have hw := wholeBytes_step h8
      rw [← h2] at hw
      rw [hw] at hall hfit
      obtain ⟨c, hc⟩ := Option.isSome_iff_exists.1 (hall _ (List.mem_cons_self))
      have hcodes : codesOf s.code (byteOfBits ((bitsAhead s).take 8) :: wholeBytes (bitsAhead (readTo s pos buf avail))) =
          c ++ codesOf s.code (wholeBytes (bitsAhead (readTo s pos buf avail))) := by
        simp [codesOf, hc]
      rw [hcodes, List.length_append] at hfit
      have ha : encSym (byteOfBits ((bitsAhead s).take 8)) (readTo s pos buf avail) =
          .ok () { readTo s pos buf avail with enc := s.enc ++ c } := by
        have hcode : (readTo s pos buf avail).code = s.code := rfl
        rcases encSym_cases (byteOfBits ((bitsAhead s).take 8)) (readTo s pos buf avail) with
          ⟨hb, _⟩ | ⟨c', hb, hbad, _⟩ | ⟨c', hb, _, ha⟩ <;> rw [hcode, hc] at hb
        · cases hb
        · cases hb
          change s.cfg.encCap.toNat < s.enc.length + c.length at hbad
          omega
        · cases hb
          exact ha
      have hr : Readable { readTo s pos buf avail with enc := s.enc ++ c } := ⟨h.isOpen, h.steady, h3, h.short⟩
      obtain ⟨pos', buf', avail', d, k1, k2, k3⟩ := ih hr heof
        (by
          change (bitsAhead (readTo s pos buf avail)).length / 8 < n
          rw [h2, List.length_drop]
          omega)
        (fun b hb => hall b (List.mem_cons_of_mem _ hb))
        (by
          change (s.enc ++ c).length + (codesOf s.code (wholeBytes (bitsAhead (readTo s pos buf avail)))).length ≤ _
          rw [List.length_append]
          change _ ≤ s.cfg.encCap.toNat
          omega)
      refine ⟨pos', buf', avail', d, ?_, k2, k3⟩
      change (readByte >>= fun v => look State.brEof >>= fun eof =>
        if eof then pure () else encSym v >>= fun _ => encodeLoop n) s = _
      rw [Micro.bind_ok h1, bind_look]
      have he : (readTo s pos buf avail).brEof = false := heof
      simp only [he, Bool.false_eq_true, if_false]
      rw [Micro.bind_ok ha, k1, hw, hcodes, ← List.append_assoc]
      rfl
    · obtain ⟨pos, buf, avail, d, v, h1, h2, h3⟩ := readByte_end h (by omega)
      refine ⟨pos, buf, avail, d, ?_, h2, h3⟩
      change (readByte >>= fun v => look State.brEof >>= fun eof =>
        if eof then pure () else encSym v >>= fun _ => encodeLoop n) s = _
      rw [Micro.bind_ok h1, bind_look, wholeBytes_short (by omega)]
      simp [codesOf]
      rfl

/-- Codewords that do not fit make `Encode` raise `ENC_FULL` (R175, R177). -/
theorem encodeLoop_full (n : Nat) {s : State} (h : Readable s) (heof : s.brEof = false)
    (hn : (bitsAhead s).length / 8 < n)
    (hall : ∀ b ∈ wholeBytes (bitsAhead s), (slotGet s.code b).isSome = true) (h0 : s.enc.length ≤ s.cfg.encCap.toNat)
    (hfit : s.cfg.encCap.toNat < s.enc.length + (codesOf s.code (wholeBytes (bitsAhead s))).length) :
    ∃ s', encodeLoop n s = .error ⟨.encFull, 0#8⟩ s' := by
  induction n generalizing s with
  | zero => omega
  | succ n ih =>
    have h8 : 8 ≤ (bitsAhead s).length := by
      by_contra hh
      rw [wholeBytes_short (by omega)] at hfit
      simp [codesOf] at hfit; omega
    obtain ⟨pos, buf, avail, h1, h2, h3⟩ := readByte_ahead h h8
    rw [wholeBytes_step h8] at hall hfit
    generalize byteOfBits ((bitsAhead s).take 8) = v at *
    have he : (readTo s pos buf avail).brEof = false := heof
    have hstep : encodeLoop (n + 1) s = (encSym v >>= fun _ => encodeLoop n) (readTo s pos buf avail) := by
      change (readByte >>= fun v => look State.brEof >>= fun eof =>
        if eof then pure () else encSym v >>= fun _ => encodeLoop n) s = _
      rw [Micro.bind_ok h1, bind_look, he]
      simp only [Bool.false_eq_true, if_false]
    rw [hstep]
    have hc : codesOf s.code (v :: wholeBytes ((bitsAhead s).drop 8)) =
        (slotGet s.code v).getD [] ++ codesOf s.code (wholeBytes ((bitsAhead s).drop 8)) := by simp [codesOf]
    rcases encSym_cases v (readTo s pos buf avail) with ⟨a, _⟩ | ⟨c, a, b, e⟩ | ⟨c, a, b, e⟩
    · have := hall v (by simp)
      rw [show slotGet s.code v = none from a] at this; cases this
    · exact ⟨_, Micro.bind_error e⟩
    · have a' : slotGet s.code v = some c := a
      rw [hc, a', Option.getD_some, List.length_append] at hfit
      have ha : bitsAhead { readTo s pos buf avail with enc := s.enc ++ c } = (bitsAhead s).drop 8 := h2
      obtain ⟨s', k⟩ := ih (s := { readTo s pos buf avail with enc := s.enc ++ c })
        ⟨h.isOpen, h.steady, h3, h.short⟩ heof (by rw [ha, List.length_drop]; omega)
        (by rw [ha]; exact fun b hb => hall b (List.mem_cons_of_mem _ hb))
        (by
          change (s.enc ++ c).length ≤ _
          rw [List.length_append]
          exact b)
        (by
          rw [ha]
          change s.cfg.encCap.toNat < (s.enc ++ c).length + (codesOf s.code _).length
          rw [List.length_append]
          omega)
      exact ⟨s', (Micro.bind_ok e).trans k⟩

/-- `Encode` appends the codewords of the bytes before the first one that `EncSym` refuses, and raises there
(R175, R177). -/
theorem encodeLoop_stops (pre : List Byte) {n : Nat} {s : State} {v : Byte} {post : List Byte} {c : Cause}
    (h : Readable s) (heof : s.brEof = false) (hn : pre.length < n)
    (hp : wholeBytes (bitsAhead s) = pre ++ v :: post) (hall : ∀ b ∈ pre, slotGet s.code b ≠ none)
    (hfit : s.enc.length + (codesOf s.code pre).length ≤ s.cfg.encCap.toNat)
    (hstop : (slotGet s.code v = none ∧ c = ⟨.noEntry, v⟩) ∨
      ∃ w, slotGet s.code v = some w ∧ s.cfg.encCap.toNat < s.enc.length + (codesOf s.code pre).length + w.length ∧
        c = ⟨.encFull, 0#8⟩) :
    ∃ pos buf avail,
      encodeLoop n s = .error c { readTo s pos buf avail with enc := s.enc ++ codesOf s.code pre } ∧
      bitsAhead (readTo s pos buf avail) = (bitsAhead s).drop (8 * (pre.length + 1)) := by
  induction pre generalizing n s with
  | nil =>
    obtain ⟨n, rfl⟩ := Nat.exists_eq_succ_of_ne_zero (Nat.ne_of_gt hn)
    obtain ⟨h8, hv, _⟩ := wholeBytes_cons hp
    obtain ⟨pos, buf, avail, k1, k2, _⟩ := pass_ahead (fun v => encSym v >>= fun _ => encodeLoop n) h heof h8
    rw [hv] at k1
    have hcode : slotGet (readTo s pos buf avail).code v = slotGet s.code v := rfl
    have he : encSym v (readTo s pos buf avail) = .error c (readTo s pos buf avail) := by
      rcases encSym_cases v (readTo s pos buf avail) with ⟨a, e⟩ | ⟨w, a, b, e⟩ | ⟨w, a, b, _⟩ <;> rw [hcode] at a <;>
        rcases hstop with ⟨hs, rfl⟩ | ⟨w', hs, hbig, rfl⟩ <;> rw [a] at hs <;> cases hs
      · exact e
      · exact e
      · have : s.enc.length + w.length ≤ s.cfg.encCap.toNat := b
        simp [codesOf] at hbig
        omega
    refine ⟨pos, buf, avail, (k1.trans (Micro.bind_error he)).trans ?_, by simpa using k2⟩
    simp [codesOf, readTo]
  | cons w pre ih =>
    obtain ⟨n, rfl⟩ := Nat.exists_eq_succ_of_ne_zero (Nat.ne_of_gt (Nat.lt_of_le_of_lt (Nat.zero_le _) hn))
    obtain ⟨h8, hw, hrest⟩ := wholeBytes_cons hp
    obtain ⟨pos, buf, avail, k1, k2, k3⟩ := pass_ahead (fun v => encSym v >>= fun _ => encodeLoop n) h heof h8
    rw [hw] at k1
    obtain ⟨d, hd⟩ := Option.ne_none_iff_exists'.1 (hall w List.mem_cons_self)
    have hcodes : codesOf s.code (w :: pre) = d ++ codesOf s.code pre := by simp [codesOf, hd]
    rw [hcodes, List.length_append] at hfit hstop
    have hroom : s.enc.length + d.length ≤ s.cfg.encCap.toNat := by omega
    have he : encSym w (readTo s pos buf avail) = .ok () { readTo s pos buf avail with enc := s.enc ++ d } := by
      have hcode : slotGet (readTo s pos buf avail).code w = slotGet s.code w := rfl
      rcases encSym_cases w (readTo s pos buf avail) with ⟨a, _⟩ | ⟨d', a, b, _⟩ | ⟨d', a, _, e⟩ <;>
        rw [hcode, hd] at a <;> cases a
      · have : s.cfg.encCap.toNat < s.enc.length + d.length := b
        omega
      · exact e
    have hlen : (s.enc ++ d).length = s.enc.length + d.length := List.length_append
    obtain ⟨pos', buf', avail', j1, j2⟩ := ih (n := n) (s := { readTo s pos buf avail with enc := s.enc ++ d })
      ⟨h.isOpen, h.steady, k3, h.short⟩ heof (by simpa using hn)
      (by
        change wholeBytes (bitsAhead (readTo s pos buf avail)) = _
        rw [k2]
        exact hrest)
      (fun b hb => hall b (List.mem_cons_of_mem _ hb))
      (by
        change (s.enc ++ d).length + (codesOf s.code pre).length ≤ s.cfg.encCap.toNat
        omega)
      (by
        refine hstop.imp id ?_
        rintro ⟨x, hx, hbig, hc⟩
        refine ⟨x, hx, ?_, hc⟩
        change s.cfg.encCap.toNat < (s.enc ++ d).length + (codesOf s.code pre).length + x.length
        omega)
    refine ⟨pos', buf', avail', ?_, ?_⟩
    · rw [hcodes, ← List.append_assoc]
      exact k1.trans ((Micro.bind_ok he).trans j1)
    · refine Eq.trans j2 ?_
      change (bitsAhead (readTo s pos buf avail)).drop _ = _
      rw [k2, drop_pass]
      rfl

/-! ## Codeword registers (R23) -/

/-- `V[255 - i] = c[i]`, every other bit 0 (R23). -/
theorem getLsbD_codewordValue (c : Bits) (hc : c.length ≤ 256) (i : Nat) (hi : i < 256) :
    (codewordValue c).getLsbD (255 - i) = c.getD i false := by
  have htest : ∀ (c : Bits) (j : Nat), (bitsNat c).testBit j = c.reverse.getD j false := by
    intro c
    induction c using List.reverseRecOn with
    | nil => intro j; simp [bitsNat]
    | append_singleton bs b ih =>
      intro j
      have hb : bitsNat (bs ++ [b]) = 2 * bitsNat bs + b.toNat := by simp [bitsNat]
      rw [hb]
      cases j with
      | zero => cases b <;> simp [Nat.testBit_zero]
      | succ j =>
        have : (2 * bitsNat bs + b.toNat) / 2 = bitsNat bs := by
          have := Bool.toNat_lt b
          omega
        rw [Nat.testBit_succ, this, ih]
        simp
  rw [codewordValue, BitVec.getLsbD_ofNat]
  have h255 : 255 - i < 256 := by omega
  simp only [h255, decide_true, Bool.true_and]
  rw [Nat.testBit_mul_two_pow]
  by_cases hlt : i < c.length
  · have hle : 256 - c.length ≤ 255 - i := by omega
    simp only [hle, decide_true, Bool.true_and, htest]
    rw [List.getD_eq_getElem?_getD, List.getElem?_reverse (by omega), List.getD_eq_getElem?_getD]
    congr 2
    omega
  · have hle : ¬ (256 - c.length ≤ 255 - i) := by omega
    simp [hle, List.getD_eq_getElem?_getD, List.getElem?_eq_none (Nat.not_lt.1 hlt)]

end Sys2Proof.Machine
end

