-- ==== Sys2Proof/Laws/TrieBuilder.lean ====
section
/-! SUPPORT. The trie builder (R156 to R161): what `RemoveMin` takes, what one merge and the whole loop keep, and
what `Build` ends with. -/

namespace Sys2Proof.Machine

/-! ## RemoveMin (R157) -/

theorem leastFreq_spec (e : PQEntry) (es : List PQEntry) :
    (∃ x ∈ e :: es, x.freq = leastFreq e es) ∧ ∀ x ∈ e :: es, leastFreq e es ≤ x.freq := by
  have key : ∀ (es : List PQEntry) (m : BitVec 40),
      let r := es.foldl (fun m x => if x.freq < m then x.freq else m) m
      (r = m ∨ ∃ x ∈ es, x.freq = r) ∧ r ≤ m ∧ ∀ x ∈ es, r ≤ x.freq := by
    intro es
    induction es with
    | nil => intro m; simp
    | cons y ys ih =>
      intro m
      simp only [List.foldl_cons]
      obtain ⟨h1, h2, h3⟩ := ih (if y.freq < m then y.freq else m)
      by_cases hy : y.freq < m
      · simp only [hy, if_true] at h1 h2 h3 ⊢
        refine ⟨.inr ?_, ?_, ?_⟩
        · rcases h1 with h1 | ⟨x, hx, h1⟩
          · exact ⟨y, by simp, h1.symm⟩
          · exact ⟨x, by simp [hx], h1⟩
        · exact BitVec.le_trans h2 (BitVec.le_of_lt hy)
        · intro x hx
          rcases List.mem_cons.1 hx with rfl | hx
          · exact h2
          · exact h3 x hx
      · simp only [hy, if_false] at h1 h2 h3 ⊢
        refine ⟨?_, h2, ?_⟩
        · rcases h1 with h1 | ⟨x, hx, h1⟩
          · exact .inl h1
          · exact .inr ⟨x, by simp [hx], h1⟩
        · intro x hx
          rcases List.mem_cons.1 hx with rfl | hx
          · exact BitVec.le_trans h2 (BitVec.not_lt.1 hy)
          · exact h3 x hx
  obtain ⟨h1, h2, h3⟩ := key es e.freq
  refine ⟨?_, ?_⟩
  · rcases h1 with h1 | ⟨x, hx, h1⟩
    · exact ⟨e, by simp, h1.symm⟩
    · exact ⟨x, by simp [hx], h1⟩
  · intro x hx
    rcases List.mem_cons.1 hx with rfl | hx
    · exact h2
    · exact h3 x hx

theorem mem_leastEntries {q : List PQEntry} {x : PQEntry} (h : x ∈ leastEntries q) :
    x ∈ q ∧ ∀ y ∈ q, x.freq ≤ y.freq := by
  cases q with
  | nil => cases h
  | cons e es =>
    simp only [leastEntries, List.mem_filter, beq_iff_eq] at h
    exact ⟨h.1, fun y hy => h.2 ▸ (leastFreq_spec e es).2 y hy⟩

theorem leastEntries_ne_nil {q : List PQEntry} (h : q ≠ []) : leastEntries q ≠ [] := by
  cases q with
  | nil => exact absurd rfl h
  | cons e es =>
    obtain ⟨x, hx, hf⟩ := (leastFreq_spec e es).1
    exact List.ne_nil_of_mem (List.mem_filter.2 ⟨hx, by simpa using hf⟩)

theorem oldestEntry_mem (e : PQEntry) (es : List PQEntry) : oldestEntry e es ∈ e :: es := by
  have key : ∀ (es : List PQEntry) (m : PQEntry),
      es.foldl (fun m x => if x.seq < m.seq then x else m) m ∈ m :: es := by
    intro es
    induction es with
    | nil => intro m; simp
    | cons y ys ih =>
      intro m
      simp only [List.foldl_cons]
      have := ih (if y.seq < m.seq then y else m)
      rcases List.mem_cons.1 this with h | h
      · rw [h]; split <;> simp
      · simp [h]
  exact key es e

/-- `RemoveMin` takes an entry of the queue whose frequency is the smallest (R157). -/
theorem pickMin_spec {policy : Config.TiePolicy} {d d' : Nat} {q : List PQEntry} {x : PQEntry}
    (h : pickMin policy d q = some (x, d')) : x ∈ q ∧ ∀ y ∈ q, x.freq ≤ y.freq := by
  apply mem_leastEntries
  unfold pickMin at h
  split at h
  · cases h
  · rename_i e he
    cases h
    rw [he]
    simp
  · rename_i e e' es he
    rw [he]
    split at h
    · cases h
      exact oldestEntry_mem _ _
    · cases h
      have hlt : Config.tieChoice d % (es.length + 2) < (e :: e' :: es).length := by
        simp only [List.length_cons]
        exact Nat.mod_lt _ (by omega)
      rw [List.getD_eq_getElem?_getD, List.getElem?_eq_getElem hlt]
      exact List.getElem_mem hlt

theorem pickMin_isSome {policy : Config.TiePolicy} {d : Nat} {q : List PQEntry} (h : q ≠ []) :
    ∃ x d', pickMin policy d q = some (x, d') := by
  have := leastEntries_ne_nil h
  unfold pickMin
  split
  · rename_i h'; exact absurd h' this
  · exact ⟨_, _, rfl⟩
  · cases policy <;> exact ⟨_, _, rfl⟩

theorem removeMin_spec {s s' : State} {x : PQEntry} (h : removeMin s = some (x, s')) :
    x ∈ s.pq ∧ (∀ y ∈ s.pq, x.freq ≤ y.freq) ∧ ∃ d, s' = { s with pq := s.pq.erase x, draws := d } := by
  unfold removeMin at h
  split at h
  · cases h
  · rename_i e d he
    cases h
    exact ⟨(pickMin_spec he).1, (pickMin_spec he).2, d, rfl⟩

theorem removeMin_isSome {s : State} (h : s.pq ≠ []) : ∃ x s', removeMin s = some (x, s') := by
  obtain ⟨x, d, hx⟩ := pickMin_isSome (policy := s.cfg.tiePolicy) (d := s.draws) h
  exact ⟨x, { s with pq := s.pq.erase x, draws := d }, by simp [removeMin, hx]⟩

/-! ## The merge loop (R156) -/

/-- The leaf values of a queue. -/
def queueLeaves (q : List PQEntry) : List Byte := q.flatMap (fun e => leafBytes e.node)

/-- One turn of the loop: two entries of least frequency, in the order removed, become the children of one node
that goes back with the sum of their frequencies; nothing but `PQ` and the draws changes (R156). -/
theorem mergeOnce_spec {q : Nat} {s s' : State} (h : mergeOnce q s = some s') :
    ∃ x y d,
      x ∈ s.pq ∧ (∀ z ∈ s.pq, x.freq ≤ z.freq) ∧
      y ∈ s.pq.erase x ∧ (∀ z ∈ s.pq.erase x, y.freq ≤ z.freq) ∧
      s' = { s with
        pq := (s.pq.erase x).erase y ++
          [{ freq := x.freq + y.freq, seq := BitVec.ofNat 9 q, node := .internal x.node y.node }]
        draws := d } := by
  unfold mergeOnce at h
  split at h
  · split at h
    · cases h
    · rename_i x s1 h1
      split at h
      · cases h
      · rename_i y s2 h2
        cases h
        obtain ⟨hx, hx', d1, rfl⟩ := removeMin_spec h1
        obtain ⟨hy, hy', d2, rfl⟩ := removeMin_spec h2
        exact ⟨x, y, d2, hx, hx', hy, hy', rfl⟩
  · cases h

theorem mergeOnce_none {q : Nat} {s : State} (h : mergeOnce q s = none) : s.pq.length ≤ 1 := by
  by_contra hlt
  unfold mergeOnce at h
  rw [if_pos (by omega)] at h
  have hne : s.pq ≠ [] := by
    intro h0
    rw [h0] at hlt
    simp at hlt
  obtain ⟨x, s1, h1⟩ := removeMin_isSome hne
  rw [h1] at h
  obtain ⟨hx, _, d, rfl⟩ := removeMin_spec h1
  have hlen := List.length_erase_of_mem hx
  have hne' : (s.pq.erase x) ≠ [] := by
    intro h0
    rw [h0] at hlen
    simp at hlen
    omega
  obtain ⟨y, s2, h2⟩ := removeMin_isSome (s := { s with pq := s.pq.erase x, draws := d }) hne'
  simp only [h2] at h
  cases h

theorem mergeOnce_length {q : Nat} {s s' : State} (h : mergeOnce q s = some s') :
    s'.pq.length + 1 = s.pq.length := by
  obtain ⟨x, y, d, hx, _, hy, _, rfl⟩ := mergeOnce_spec h
  have h1 := List.length_erase_of_mem hx
  have h2 := List.length_erase_of_mem hy
  have h3 := List.length_pos_of_mem hx
  have h4 := List.length_pos_of_mem hy
  simp only [List.length_append, List.length_singleton]
  omega

theorem mergeOnce_leaves {q : Nat} {s s' : State} (h : mergeOnce q s = some s') :
    (queueLeaves s'.pq).Perm (queueLeaves s.pq) := by
  obtain ⟨x, y, d, hx, _, hy, _, rfl⟩ := mergeOnce_spec h
  have hp : (s.pq).Perm (x :: y :: (s.pq.erase x).erase y) :=
    (List.perm_cons_erase hx).trans ((List.perm_cons_erase hy).cons x)
  have := hp.flatMap_right (fun e => leafBytes e.node)
  refine List.Perm.trans ?_ this.symm
  simp only [queueLeaves, List.flatMap_append, List.flatMap_cons, List.flatMap_nil, List.append_nil, leafBytes]
  refine List.perm_append_comm.trans ?_
  rw [List.append_assoc]

/-- The whole loop: only `PQ` and the draws change; the leaf values stay; at most one entry is left, and one is if
there was any (R156, R161). -/
theorem mergeLoop_spec (n q : Nat) (s : State) (hn : s.pq.length ≤ n + 1) :
    ∃ pq d, mergeLoop n q s = { s with pq := pq, draws := d } ∧ (queueLeaves pq).Perm (queueLeaves s.pq) ∧
      pq.length ≤ 1 ∧ (s.pq ≠ [] → pq ≠ []) ∧
      (2 ≤ s.pq.length → ∀ e ∈ pq, isInternal e.node = true) := by
  induction n generalizing q s with
  | zero => exact ⟨s.pq, s.draws, rfl, List.Perm.refl _, by omega, id, fun h => by omega⟩
  | succ n ih =>
    unfold mergeLoop
    cases h : mergeOnce q s with
    | none =>
      have := mergeOnce_none h
      exact ⟨s.pq, s.draws, rfl, List.Perm.refl _, this, id, fun h => by omega⟩
    | some s' =>
      have hl := mergeOnce_length h
      have hp := mergeOnce_leaves h
      obtain ⟨pq, d, h1, h2, h3, h4, h5⟩ := ih (q + 1) s' (by omega)
      obtain ⟨x, y, d', _, _, _, _, hs'⟩ := mergeOnce_spec h
      refine ⟨pq, d, ?_, h2.trans hp, h3, fun _ => h4 (by rw [hs']; simp), ?_⟩
      · change mergeLoop n (q + 1) s' = _
        rw [h1, hs']
      · intro _
        by_cases h2' : 2 ≤ s'.pq.length
        · exact h5 h2'
        · have hn1 : mergeOnce (q + 1) s' = none := by
            cases hm : mergeOnce (q + 1) s' with
            | none => rfl
            | some s'' =>
              have := mergeOnce_length hm
              have hne : s''.pq ≠ [] := by
                obtain ⟨_, _, _, _, _, _, _, rfl⟩ := mergeOnce_spec hm
                simp
              have := List.length_pos_iff.2 hne
              omega
          have hloop : mergeLoop n (q + 1) s' = s' := by
            cases n with
            | zero => rfl
            | succ n => simp [mergeLoop, hn1]
          have : pq = s'.pq := by
            have := congrArg State.pq (h1.symm.trans hloop)
            simpa using this
          rw [this]
          intro e he
          rw [hs'] at he h2'
          simp only [List.length_append, List.length_singleton] at h2'
          have h0 : (s.pq.erase x).erase y = [] := List.length_eq_zero_iff.1 (by omega)
          rw [h0] at he
          simp only [List.nil_append, List.mem_singleton] at he
          rw [he]
          rfl

/-! ## The start queue -/

theorem queueLeaves_leafEntries (fs : List Word) (b q : Nat) :
    queueLeaves (leafEntries fs b q) =
      ((List.range fs.length).filter (fun i => fs.getD i 0#32 != 0#32)).map (fun i => BitVec.ofNat 8 (b + i)) := by
  induction fs generalizing b q with
  | nil => rfl
  | cons f fs ih =>
    have hr : List.range (f :: fs).length = 0 :: (List.range fs.length).map (· + 1) := by
      rw [List.length_cons, List.range_succ_eq_map]
    rw [hr, List.filter_cons, List.filter_map]
    have hshift : ((fun i => (f :: fs).getD i 0#32 != 0#32) ∘ fun x => x + 1) = fun i => fs.getD i 0#32 != 0#32 := by
      funext i; simp
    rw [hshift]
    by_cases hf : f = 0#32
    · simp only [leafEntries, hf, if_true, List.getD_cons_zero, bne_self_eq_false, Bool.false_eq_true, if_false, ih,
        List.map_map]
      apply List.map_congr_left
      intro i _
      simp only [Function.comp]
      congr 1
      omega
    · have : ((f :: fs).getD 0 0#32 != 0#32) = true := by simpa using hf
      rw [this]
      simp only [leafEntries, hf, if_false, if_true, queueLeaves, List.flatMap_cons, leafBytes, List.map_cons,
        List.map_map, Nat.add_zero, List.cons_append, List.nil_append]
      congr 1
      have := ih (b + 1) (q + 1)
      rw [queueLeaves] at this
      rw [this]
      apply List.map_congr_left
      intro i _
      simp only [Function.comp]
      congr 1
      omega

/-- The queue starts with one leaf for each non-zero slot, ascending (R156). -/
theorem queueLeaves_startQueue (s : State) : queueLeaves (startQueue s) = nonZeroSlots s.freq := by
  rw [startQueue, queueLeaves_leafEntries, nonZeroSlots, List.filter_map]
  have hl : s.freq.toList.length = 256 := by simp
  rw [hl]
  have hf : (List.range 256).filter ((fun b => slotGet s.freq b != 0#32) ∘ BitVec.ofNat 8) =
      (List.range 256).filter (fun i => s.freq.toList.getD i 0#32 != 0#32) := by
    apply List.filter_congr
    intro i hi
    have hi' : i < 256 := List.mem_range.1 hi
    have hn : (BitVec.ofNat 8 i).toNat = i := by simp; omega
    simp only [Function.comp, slotGet, hn, List.getD_eq_getElem?_getD]
    rw [List.getElem?_eq_getElem (by simpa using hi')]
    simp
  rw [hf]
  simp

theorem leafEntries_leaf (fs : List Word) (b q : Nat) : ∀ e ∈ leafEntries fs b q, ∃ v, e.node = .leaf v := by
  induction fs generalizing b q with
  | nil => intro e he; cases he
  | cons f fs ih =>
    intro e he
    unfold leafEntries at he
    split at he
    · exact ih _ _ e he
    · rcases List.mem_cons.1 he with rfl | he
      · exact ⟨_, rfl⟩
      · exact ih _ _ e he

theorem queueLeaves_length_of_leaves {q : List PQEntry} (h : ∀ e ∈ q, ∃ v, e.node = .leaf v) :
    (queueLeaves q).length = q.length := by
  induction q with
  | nil => rfl
  | cons e q ih =>
    obtain ⟨v, hv⟩ := h e (by simp)
    have := ih (fun e he => h e (by simp [he]))
    simp only [queueLeaves, List.flatMap_cons, List.length_append, hv, leafBytes,
      List.length_cons] at this ⊢
    rw [this]
    simp
    omega

theorem startQueue_length (s : State) : (startQueue s).length = (nonZeroSlots s.freq).length := by
  rw [← queueLeaves_startQueue]
  exact (queueLeaves_length_of_leaves (leafEntries_leaf s.freq.toList 0 0)).symm

theorem nonZeroSlots_length_le (f : FreqTable) : (nonZeroSlots f).length ≤ 256 := by
  have := List.length_filter_le (fun b => slotGet f b != 0#32) ((List.range 256).map (BitVec.ofNat 8))
  simpa [nonZeroSlots] using this

theorem mem_nonZeroSlots (f : FreqTable) (b : Byte) : b ∈ nonZeroSlots f ↔ slotGet f b ≠ 0#32 := by
  simp only [nonZeroSlots, List.mem_filter, List.mem_map, List.mem_range, bne_iff_ne, ne_eq, and_iff_right_iff_imp]
  intro _
  exact ⟨b.toNat, b.isLt, by simp⟩

theorem nonZeroSlots_nodup (f : FreqTable) : (nonZeroSlots f).Nodup := by
  apply List.Nodup.filter
  apply (List.nodup_range).map_on
  intro i hi j hj h
  have hi' := List.mem_range.1 hi
  have hj' := List.mem_range.1 hj
  have := congrArg BitVec.toNat h
  simp at this
  omega

/-! ## Build (R156, R158, R159, R161) -/

/-- What `Build` leaves when it makes the tree `t`. -/
def built (s : State) (t : HuffTree) (d : Nat) : State :=
  { s with
    tree := some t, ptr := some [], nnodes := BitVec.ofNat 9 (treeNodes t), code := emptyCode, tabValid := false
    pq := [], draws := d }

/-- What `Build` leaves when it finds no symbol. -/
def notBuilt (s : State) (d : Nat) : State :=
  { s with tree := none, ptr := none, nnodes := 0#9, code := emptyCode, tabValid := false, pq := [], draws := d }

/-- Everything `Build` can do: no symbol; one symbol and R158's tree; or a tree with one leaf for each non-zero
slot (R161). -/
theorem buildTree_cases (s : State) :
    (nonZeroSlots s.freq = [] ∧ ∃ d, buildTree s = .error ⟨.noSymbol, 0#8⟩ (notBuilt s d)) ∨
    (∃ b d, nonZeroSlots s.freq = [b] ∧
      buildTree s = .ok () (built s (.internal (.leaf b) (.leaf (b + 1#8))) d)) ∨
    (2 ≤ (nonZeroSlots s.freq).length ∧ ∃ t d, isInternal t = true ∧ (leafBytes t).Perm (nonZeroSlots s.freq) ∧
      buildTree s = .ok () (built s t d)) := by
  have hl := startQueue_length s
  have hq := queueLeaves_startQueue s
  obtain ⟨pq, d, h1, h2, h3, h4, h5⟩ := mergeLoop_spec (startQueue s).length (startQueue s).length
    (setQueue (startQueue s) (dropTree s)) (by simp [setQueue])
  have hpq : (setQueue (startQueue s) (dropTree s)).pq = startQueue s := rfl
  rw [hpq] at h2 h4 h5
  rw [hq] at h2
  have hb : buildTree s = match (generalizing := false) pq with
      | [] => .error ⟨.noSymbol, 0#8⟩ (notBuilt s d)
      | e :: _ => .ok () (built s (rootOf e.node) d) := by
    unfold buildTree
    simp only [h1]
    cases pq <;> rfl
  match pq, h2, h3, h4, h5, hb with
  | [], h2, _, h4, _, hb =>
    left
    have h0 : startQueue s = [] := by
      by_contra hne
      exact h4 hne rfl
    exact ⟨List.length_eq_zero_iff.1 (by rw [← hl, h0]; rfl), d, hb⟩
  | [e], h2, _, _, h5, hb =>
    right
    change buildTree s = .ok () (built s (rootOf e.node) d) at hb
    have hleaf : (leafBytes e.node).Perm (nonZeroSlots s.freq) := by simpa [queueLeaves] using h2
    by_cases hlen : 2 ≤ (nonZeroSlots s.freq).length
    · right
      have hi := h5 (by simpa [hl] using hlen) e (by simp)
      refine ⟨hlen, e.node, d, hi, hleaf, ?_⟩
      rw [hb]
      cases he : e.node with
      | leaf v => rw [he] at hi; cases hi
      | internal l r => rfl
    · left
      have hlen' := hleaf.length_eq
      have hpos := treeLeaves_pos e.node
      rw [leafBytes_length] at hlen'
      have h1' : treeLeaves e.node = 1 := by omega
      cases he : e.node with
      | leaf v =>
        rw [he] at hleaf hb
        refine ⟨v, d, ?_, hb⟩
        exact (List.perm_singleton.1 hleaf.symm)
      | internal l r =>
        rw [he] at h1'
        have := treeLeaves_pos l
        have := treeLeaves_pos r
        simp only [treeLeaves] at h1'
        omega
  | _ :: _ :: _, _, h3, _, _, _ => simp at h3

/-! ## Greedy merging (R156, R157) -/

/-- The queue has no order. -/
theorem GreedyMerge.perm {q q' : List (Nat × HuffTree)} {t : HuffTree} (h : GreedyMerge q t) (hp : q.Perm q') :
    GreedyMerge q' t := by
  cases h with
  | done n t =>
    rw [List.perm_singleton.1 hp.symm]
    exact .done n t
  | merge removed first second next =>
    exact .merge (hp.symm.trans removed) (fun z hz => first z (hp.mem_iff.2 hz)) second next

/-- Merging neither adds a leaf nor loses one. -/
theorem GreedyMerge.leafBytes_perm {q : List (Nat × HuffTree)} {t : HuffTree} (h : GreedyMerge q t) :
    (leafBytes t).Perm (q.flatMap fun e => leafBytes e.2) := by
  induction h with
  | done n t => simp
  | @merge _ rest x y _ removed _ _ _ ih =>
    have hstep : (x :: y :: rest).flatMap (fun e => leafBytes e.2) =
        ((x.1 + y.1, HuffTree.internal x.2 y.2) :: rest).flatMap (fun e => leafBytes e.2) := by simp [leafBytes]
    exact ih.trans ((List.Perm.of_eq hstep.symm).trans (removed.flatMap_right _).symm)

/-- A merge makes the root `Internal`. -/
theorem GreedyMerge.internal {q : List (Nat × HuffTree)} {t : HuffTree} (h : GreedyMerge q t)
    (hq : 2 ≤ q.length ∨ ∃ e ∈ q, isInternal e.2 = true) : isInternal t = true := by
  induction h with
  | done n t =>
    rcases hq with h | ⟨e, he, hi⟩
    · simp at h
    · rw [List.mem_singleton.1 he] at hi
      exact hi
  | merge _ _ _ _ ih => exact ih (.inr ⟨_, List.mem_cons_self, rfl⟩)

/-- A queue with its frequencies as numbers. -/
def plainQueue (q : List PQEntry) : List (Nat × HuffTree) := q.map (fun e => (e.freq.toNat, e.node))

/-- The loop of R156 is a greedy merge as long as the sum of all frequencies fits 40 bits. -/
theorem mergeLoop_greedy (n q : Nat) (s : State) (hn : s.pq.length ≤ n + 1) (hne : s.pq ≠ [])
    (hsum : (s.pq.map (fun e => e.freq.toNat)).sum < 2 ^ 40) :
    ∃ e d, mergeLoop n q s = { s with pq := [e], draws := d } ∧ GreedyMerge (plainQueue s.pq) e.node := by
  induction n generalizing q s with
  | zero =>
    obtain ⟨e, he⟩ := List.length_eq_one_iff.1 (Nat.le_antisymm hn (List.length_pos_iff.2 hne))
    exact ⟨e, s.draws, by rw [← he]; rfl, by rw [he]; exact .done _ _⟩
  | succ n ih =>
    unfold mergeLoop
    cases h : mergeOnce q s with
    | none =>
      obtain ⟨e, he⟩ := List.length_eq_one_iff.1 (Nat.le_antisymm (mergeOnce_none h) (List.length_pos_iff.2 hne))
      exact ⟨e, s.draws, by rw [← he], by rw [he]; exact .done _ _⟩
    | some s' =>
      have hl := mergeOnce_length h
      obtain ⟨x, y, d', hx, hx', hy, hy', hs'⟩ := mergeOnce_spec h
      have hp : s.pq.Perm (x :: y :: (s.pq.erase x).erase y) :=
        (List.perm_cons_erase hx).trans ((List.perm_cons_erase hy).cons x)
      have hs := (hp.map (fun e => e.freq.toNat)).sum_eq
      simp only [List.map_cons, List.sum_cons] at hs
      have hadd : (x.freq + y.freq).toNat = x.freq.toNat + y.freq.toNat := by
        rw [BitVec.toNat_add, Nat.mod_eq_of_lt]
        omega
      obtain ⟨e, d, h1, h2⟩ := ih (q + 1) s' (by omega) (by rw [hs']; simp) (by
        rw [hs']
        simp only [List.map_append, List.sum_append, List.map_cons, List.map_nil, List.sum_cons, List.sum_nil, hadd]
        omega)
      refine ⟨e, d, ?_, ?_⟩
      · change mergeLoop n (q + 1) s' = _
        rw [h1, hs']
      · rw [hs'] at h2
        refine .merge (rest := plainQueue ((s.pq.erase x).erase y)) (x := (x.freq.toNat, x.node))
          (y := (y.freq.toNat, y.node)) (hp.map _) ?_ ?_ ?_
        · intro z hz
          obtain ⟨e, he, rfl⟩ := List.mem_map.1 hz
          exact hx' e he
        · intro z hz
          obtain ⟨e, he, rfl⟩ := List.mem_map.1 hz
          exact hy' e (List.mem_of_mem_erase he)
        · refine h2.perm ?_
          simp only [plainQueue, List.map_append, List.map_cons, List.map_nil, hadd]
          exact List.perm_append_comm

/-- The start queue: each entry is a leaf with its slot's count. -/
theorem leafEntries_count (f : FreqTable) (fs : List Word) (b q : Nat) (hb : b + fs.length ≤ 256)
    (hf : ∀ k (hk : k < fs.length), slotGet f (BitVec.ofNat 8 (b + k)) = fs[k]) :
    ∀ e ∈ leafEntries fs b q, ∃ v, e.node = .leaf v ∧ e.freq = (slotGet f v).setWidth 40 := by
  induction fs generalizing b q with
  | nil => intro e he; cases he
  | cons w fs ih =>
    simp only [List.length_cons] at hb
    have hf' : ∀ k (hk : k < fs.length), slotGet f (BitVec.ofNat 8 (b + 1 + k)) = fs[k] := by
      intro k hk
      have := hf (k + 1) (by simpa using hk)
      rwa [← Nat.add_assoc, Nat.add_right_comm] at this
    intro e he
    rw [leafEntries] at he
    split at he
    · exact ih (b + 1) q (by omega) hf' e he
    · rcases List.mem_cons.1 he with rfl | he
      · exact ⟨BitVec.ofNat 8 b, rfl, by rw [show slotGet f (BitVec.ofNat 8 b) = w from hf 0 (by simp)]⟩
      · exact ih (b + 1) (q + 1) (by omega) hf' e he

theorem plainQueue_startQueue (s : State) : plainQueue (startQueue s) = leafQueue s.freq := by
  have hs : ∀ e ∈ startQueue s, ∃ v, e.node = .leaf v ∧ e.freq = (slotGet s.freq v).setWidth 40 := by
    refine leafEntries_count s.freq _ 0 0 (by simp) fun k hk => ?_
    have : k < 256 := by simpa using hk
    simp [slotGet, Nat.mod_eq_of_lt this]
  rw [leafQueue, ← queueLeaves_startQueue]
  revert hs
  generalize startQueue s = q
  induction q with
  | nil => intro; rfl
  | cons e q ih =>
    intro hs
    obtain ⟨v, h1, h2⟩ := hs e List.mem_cons_self
    have hq := ih fun e he => hs e (List.mem_cons_of_mem _ he)
    have hw : ((slotGet s.freq v).setWidth 40).toNat = (slotGet s.freq v).toNat := by
      rw [BitVec.toNat_setWidth, Nat.mod_eq_of_lt]
      have := (slotGet s.freq v).isLt
      omega
    simp only [plainQueue, queueLeaves, List.map_cons, List.flatMap_cons, h1, h2, hw, leafBytes, List.singleton_append]
    congr 1

/-- With a symbol, `Build` leaves what greedy merging leaves, made a root (R156, R157, R158). -/
theorem buildTree_greedy {s : State} (hne : nonZeroSlots s.freq ≠ []) :
    ∃ t d, GreedyMerge (leafQueue s.freq) t ∧ buildTree s = .ok () (built s (rootOf t) d) := by
  have hlen := startQueue_length s
  have hq := plainQueue_startQueue s
  have hsum : ((startQueue s).map (fun e => e.freq.toNat)).sum < 2 ^ 40 := by
    have h1 : (startQueue s).map (fun e => e.freq.toNat) = (plainQueue (startQueue s)).map Prod.fst := by
      simp [plainQueue]
    have h2 : ∀ l : List Byte, ((l.map (fun b => ((slotGet s.freq b).toNat, HuffTree.leaf b))).map Prod.fst).sum ≤
        l.length * (2 ^ 32 - 1) := by
      intro l
      induction l with
      | nil => simp
      | cons b l ih =>
        have := (slotGet s.freq b).isLt
        simp only [List.map_cons, List.sum_cons, List.length_cons, Nat.succ_mul]
        omega
    rw [h1, hq]
    have := h2 (nonZeroSlots s.freq)
    have := nonZeroSlots_length_le s.freq
    rw [leafQueue]
    omega
  have hne' : startQueue s ≠ [] := by
    intro h0
    rw [h0] at hlen
    exact hne (List.length_eq_zero_iff.1 hlen.symm)
  obtain ⟨e, d, h1, h2⟩ := mergeLoop_greedy (startQueue s).length (startQueue s).length
    (setQueue (startQueue s) (dropTree s)) (by simp [setQueue]) hne' hsum
  refine ⟨e.node, d, hq ▸ h2, ?_⟩
  unfold buildTree
  simp only [h1]
  rfl

end Sys2Proof.Machine
end

