-- ==== Sys2Proof/Laws/Frames.lean ====
section
/-! SUPPORT. Frames: what each micro-operation leaves alone, however it ends. A view `f` of the state is kept by an
operation when it does not see what the operation writes. -/

namespace Sys2Proof.Machine

variable {α β γ : Type}

/-- Whatever way `x` ends, the view `f` of the state is as before. -/
def Keeps (f : State → γ) (x : Micro α) : Prop := Always (fun s s' => f s' = f s) x

/-- The view does not see the reader nor what the environment does to `IN`. -/
def ReaderBlind (f : State → γ) : Prop := ∀ s s', ReaderOnly s s' → f s' = f s

/-- The view does not see the writer's buffer nor `OUT`. -/
def WriterBlind (f : State → γ) : Prop := ∀ s s', WriterOnly s s' → f s' = f s

theorem Keeps.bind {f : State → γ} {x : Micro α} {g : α → Micro β} (hx : Keeps f x) (hg : ∀ a, Keeps f (g a)) :
    Keeps f (x >>= g) :=
  Always.bind (R := fun s s' => f s' = f s) (fun _ _ _ h1 h2 => h2.trans h1) hx hg

theorem Keeps.pure (f : State → γ) (a : α) : Keeps f (pure a : Micro α) := fun _ => rfl

theorem Keeps.look (f : State → γ) (g : State → α) : Keeps f (look g) := fun _ => rfl

theorem Keeps.raise (f : State → γ) (sub : Sub) (d : Byte) : Keeps f (raiseErr sub d : Micro α) := fun _ => rfl

theorem Keeps.change {f : State → γ} {g : State → State} (h : ∀ s, f (g s) = f s) : Keeps f (change g) := h

theorem Keeps.iteB {f : State → γ} {b : Bool} {x y : Micro α} (hx : Keeps f x) (hy : Keeps f y) :
    Keeps f (if b then x else y) := by
  cases b
  · exact hy
  · exact hx

theorem Keeps.iteP {f : State → γ} {p : Prop} [Decidable p] {x y : Micro α} (hx : Keeps f x) (hy : Keeps f y) :
    Keeps f (if p then x else y) := by
  by_cases hp : p
  · rw [if_pos hp]; exact hx
  · rw [if_neg hp]; exact hy

variable {f : State → γ}

/-! ## Writer, reader -/

theorem writeBit_keeps (hw : WriterBlind f) (b : Bool) : Keeps f (writeBit b) := fun s => hw _ _ (writeBit_always b s)

theorem writeBits_keeps (hw : WriterBlind f) (bs : Bits) : Keeps f (writeBits bs) :=
  fun s => hw _ _ (writeBits_always bs s)

theorem writeByte_keeps (hw : WriterBlind f) (v : Byte) : Keeps f (writeByte v) := writeBits_keeps hw _

theorem flushW_keeps (hw : WriterBlind f) : Keeps f flushW := fun s => hw _ _ (flushW_always s)

theorem readBit_keeps (hr : ReaderBlind f) : Keeps f readBit := fun s => hr _ _ (readBit_always s)

theorem readByte_keeps (hr : ReaderBlind f) : Keeps f readByte := fun s => hr _ _ (readByte_always s)

/-- Everything `OPENW`'s body can do (R133). -/
theorem openW_cases (s : State) :
    (s.outOpen = true ∧ openW s = .error ⟨.alreadyOpen, 0#8⟩ s) ∨
    (s.outOpen = false ∧ s.outStore.creatable = false ∧ openW s = .error ⟨.outOpenFail, 0#8⟩ s) ∨
    (s.outOpen = false ∧ s.outStore.creatable = true ∧
      openW s = .ok () { s with
        outStore := { s.outStore with data := [] }, outOpen := true, bwBuf := 0#8, bwCnt := 0#3 }) := by
  unfold openW
  cases ho : s.outOpen
  · cases hc : s.outStore.creatable
    · exact .inr (.inl ⟨rfl, rfl, by simp⟩)
    · exact .inr (.inr ⟨rfl, rfl, by simp [clearWriter]⟩)
  · exact .inl ⟨rfl, by simp⟩

/-- Everything `OPENR`'s body can do (R140). -/
theorem openR_cases (s : State) :
    (s.inOpen = true ∧ openR s = .error ⟨.alreadyOpen, 0#8⟩ s) ∨
    (s.inOpen = false ∧ s.inStore.present = false ∧ openR s = .error ⟨.inOpenFail, 0#8⟩ s) ∨
    (s.inOpen = false ∧ s.inStore.present = true ∧ Config.lenMax < inLen s ∧
      openR s = .error ⟨.inTooLong, 0#8⟩ s) ∨
    (s.inOpen = false ∧ s.inStore.present = true ∧ inLen s ≤ Config.lenMax ∧
      openR s = .ok () (restartReader { s with inOpen := true })) := by
  unfold openR
  cases ho : s.inOpen
  · cases hc : s.inStore.present
    · exact .inr (.inl ⟨rfl, rfl, by simp⟩)
    · by_cases hl : Config.lenMax < inLen s
      · exact .inr (.inr (.inl ⟨rfl, rfl, hl, by simp [hl]⟩))
      · exact .inr (.inr (.inr ⟨rfl, rfl, by omega, by simp [hl]⟩))
  · exact .inl ⟨rfl, by simp⟩

/-- Everything `CLOSEW`'s body can do (R139). -/
theorem closeW_cases (s : State) :
    (s.outOpen = false ∧ closeW s = .error ⟨.outClosed, 0#8⟩ s) ∨
    (∃ s1, s.outOpen = true ∧ flushW s = .ok () s1 ∧ closeW s = .ok () { s1 with outOpen := false }) ∨
    (∃ c s1, s.outOpen = true ∧ flushW s = .error c s1 ∧ closeW s = .error c s1) := by
  unfold closeW
  cases ho : s.outOpen
  · exact .inl ⟨rfl, by simp⟩
  · right
    cases hf : flushW s with
    | ok u s1 => exact .inl ⟨s1, rfl, rfl, by simp⟩
    | error c s1 => exact .inr ⟨c, s1, rfl, rfl, by simp⟩

theorem closeR_cases (s : State) :
    (s.inOpen = false ∧ closeR s = .error ⟨.inClosed, 0#8⟩ s) ∨
    (s.inOpen = true ∧ closeR s = .ok () { s with inOpen := false }) := by
  unfold closeR
  cases ho : s.inOpen
  · exact .inl ⟨rfl, by simp⟩
  · exact .inr ⟨rfl, by simp⟩

theorem rewindR_cases (s : State) :
    (s.inOpen = false ∧ rewindR s = .error ⟨.inClosed, 0#8⟩ s) ∨
    (s.inOpen = true ∧ rewindR s = .ok () (restartReader s)) := by
  unfold rewindR
  cases ho : s.inOpen
  · exact .inl ⟨rfl, by simp⟩
  · exact .inr ⟨rfl, by simp⟩

theorem openW_keeps (h : ∀ s o b w c, f { s with outStore := o, outOpen := b, bwBuf := w, bwCnt := c } = f s) :
    Keeps f openW := by
  intro s
  rcases openW_cases s with ⟨_, e⟩ | ⟨_, _, e⟩ | ⟨_, _, e⟩ <;> rw [e]
  · rfl
  · rfl
  · exact h s _ _ _ _

theorem openR_keeps (h : ∀ s b, f (restartReader { s with inOpen := b }) = f s) : Keeps f openR := by
  intro s
  rcases openR_cases s with ⟨_, e⟩ | ⟨_, _, e⟩ | ⟨_, _, _, e⟩ | ⟨_, _, _, e⟩ <;> rw [e]
  · rfl
  · rfl
  · rfl
  · exact h s _

theorem closeW_keeps (hw : WriterBlind f) (h : ∀ s b, f { s with outOpen := b } = f s) : Keeps f closeW := by
  intro s
  rcases closeW_cases s with ⟨_, e⟩ | ⟨s1, _, hf, e⟩ | ⟨c, s1, _, hf, e⟩ <;> rw [e]
  · rfl
  · have := flushW_keeps hw s
    rw [hf] at this
    exact (h s1 _).trans this
  · have := flushW_keeps hw s
    rw [hf] at this
    exact this

theorem closeR_keeps (h : ∀ s b, f { s with inOpen := b } = f s) : Keeps f closeR := by
  intro s
  rcases closeR_cases s with ⟨_, e⟩ | ⟨_, e⟩ <;> rw [e]
  · rfl
  · exact h s _

theorem rewindR_keeps (h : ∀ s, f (restartReader s) = f s) : Keeps f rewindR := by
  intro s
  rcases rewindR_cases s with ⟨_, e⟩ | ⟨_, e⟩ <;> rw [e]
  · rfl
  · exact h s

/-! ## Trie builder, table -/

theorem freqAdd_keeps (h : ∀ s q, f { s with freq := q } = f s) (b : Byte) (n : Word) : Keeps f (freqAdd b n) := by
  intro s
  rcases freqAdd_cases b n s with ⟨_, e, _⟩ | ⟨_, e⟩ <;> rw [e]
  · exact h s _
  · rfl

theorem tallyLoop_keeps (hr : ReaderBlind f) (h : ∀ s q, f { s with freq := q } = f s) (n : Nat) :
    Keeps f (tallyLoop n) := by
  induction n with
  | zero => exact Keeps.pure f ()
  | succ n ih =>
    exact (readByte_keeps hr).bind fun v => (Keeps.look f _).bind fun eof =>
      Keeps.iteB (Keeps.pure f ()) ((freqAdd_keeps h v 1#32).bind fun _ => ih)

theorem tally_keeps (hr : ReaderBlind f) (h : ∀ s q, f { s with freq := q } = f s) : Keeps f tally :=
  fun s => tallyLoop_keeps hr h (readTurns s) s

theorem buildTree_keeps
    (h : ∀ s t p n c v q d,
      f { s with tree := t, ptr := p, nnodes := n, code := c, tabValid := v, pq := q, draws := d } = f s) :
    Keeps f buildTree := by
  intro s
  rcases buildTree_cases s with ⟨_, d, e⟩ | ⟨b, d, _, e⟩ | ⟨_, t, d, _, _, e⟩ <;> rw [e] <;> exact h s _ _ _ _ _ _ _

theorem mkTab_keeps (h : ∀ s c v, f { s with code := c, tabValid := v } = f s) : Keeps f mkTab := by
  intro s
  rcases mkTab_cases s with ⟨_, e⟩ | ⟨_, _, _, _, _, e⟩ | ⟨_, _, _, _, _, e⟩ <;> rw [e]
  · rfl
  · exact h s _ _
  · exact h s _ _

theorem lookupCode_keeps (v : Byte) : Keeps f (lookupCode v) := by
  intro s
  rcases lookupCode_cases v s with ⟨_, e⟩ | ⟨_, _, e⟩ <;> rw [e] <;> rfl

theorem encSym_keeps (h : ∀ s c, f { s with enc := c } = f s) (v : Byte) : Keeps f (encSym v) := by
  intro s
  rcases encSym_cases v s with ⟨_, e⟩ | ⟨_, _, _, e⟩ | ⟨_, _, _, e⟩ <;> rw [e]
  · rfl
  · rfl
  · exact h s _

theorem encodeLoop_keeps (hr : ReaderBlind f) (h : ∀ s c, f { s with enc := c } = f s) (n : Nat) :
    Keeps f (encodeLoop n) := by
  induction n with
  | zero => exact Keeps.pure f ()
  | succ n ih =>
    exact (readByte_keeps hr).bind fun v => (Keeps.look f _).bind fun eof =>
      Keeps.iteB (Keeps.pure f ()) ((encSym_keeps h v).bind fun _ => ih)

theorem encodeInput_keeps (hr : ReaderBlind f) (h : ∀ s c, f { s with enc := c } = f s) : Keeps f encodeInput :=
  fun s => encodeLoop_keeps hr h (readTurns s) s

/-! ## Serializer -/

theorem putTree_keeps (hw : WriterBlind f) (t : HuffTree) : Keeps f (putTree t) := fun s => hw _ _ (putTree_always t s)

/-- Everything `SerTree` can do (R191). -/
theorem serTree_cases (s : State) :
    (s.tree = none ∧ serTree s = .error ⟨.noTree, 0#8⟩ s) ∨
    (∃ t s1, s.tree = some t ∧ writeBits (ser t) s = .ok () s1 ∧
      serTree s = .ok () { s1 with treebits := BitVec.ofNat 12 (10 * treeLeaves t - 1) }) ∨
    (∃ t c s1, s.tree = some t ∧ writeBits (ser t) s = .error c s1 ∧ serTree s = .error c s1) := by
  unfold serTree
  cases ht : s.tree with
  | none => exact .inl ⟨rfl, rfl⟩
  | some t =>
    right
    cases hw : writeBits (ser t) s with
    | ok u s1 =>
      refine .inl ⟨t, s1, rfl, hw, ?_⟩
      exact Micro.bind_ok ((putTree_eq t s).trans hw)
    | error c s1 =>
      refine .inr ⟨t, c, s1, rfl, hw, ?_⟩
      exact Micro.bind_error ((putTree_eq t s).trans hw)

theorem serTree_keeps (hw : WriterBlind f) (h : ∀ s n, f { s with treebits := n } = f s) : Keeps f serTree := by
  intro s
  rcases serTree_cases s with ⟨_, e⟩ | ⟨t, s1, _, hk, e⟩ | ⟨t, c, s1, _, hk, e⟩ <;> rw [e]
  · rfl
  · have := writeBits_keeps hw (ser t) s
    rw [hk] at this
    exact (h s1 _).trans this
  · have := writeBits_keeps hw (ser t) s
    rw [hk] at this
    exact this

theorem countNode_keeps (h : ∀ s n, f { s with nnodes := n } = f s) : Keeps f countNode := by
  intro s
  rcases countNode_cases s with ⟨_, e⟩ | ⟨_, e, _⟩ <;> rw [e]
  · rfl
  · exact h s _

theorem getTree_keeps (hr : ReaderBlind f) (h : ∀ s n, f { s with nnodes := n } = f s) (n : Nat) :
    Keeps f (getTree n) := by
  induction n with
  | zero => exact Keeps.raise f .treeTooBig 0#8
  | succ n ih =>
    intro s
    rw [getTree_succ]
    exact ((readBit_keeps hr).bind fun t => (Keeps.look f _).bind fun eof =>
      Keeps.iteB (Keeps.raise f _ _) ((countNode_keeps h).bind fun _ =>
        Keeps.iteB
          ((readByte_keeps hr).bind fun v => (Keeps.look f _).bind fun eof' =>
            Keeps.iteB (Keeps.raise f _ _) (Keeps.pure f _))
          (ih.bind fun l => ih.bind fun r => Keeps.pure f _))) s

theorem desTree_keeps (hr : ReaderBlind f)
    (h : ∀ s t p n c v, f { s with tree := t, ptr := p, nnodes := n, code := c, tabValid := v } = f s) :
    Keeps f desTree := by
  refine Keeps.bind (Keeps.change fun s => h s none none 0#9 emptyCode false) fun _ => ?_
  refine Keeps.bind (getTree_keeps hr (fun s n => h s s.tree s.ptr n s.code s.tabValid) _) fun r => ?_
  exact Keeps.iteB (Keeps.change fun s => h s (some r) (some []) s.nnodes s.code s.tabValid) (Keeps.raise f _ _)

/-! ## Compressor, decompressor -/

theorem wrPad_keeps (hw : WriterBlind f) (h : ∀ s p, f { s with pad := p } = f s) : Keeps f wrPad :=
  (Keeps.look f _).bind fun _ => (Keeps.change fun s => h s _).bind fun _ => writeByte_keeps hw _

theorem wrEnc_keeps (hw : WriterBlind f) : Keeps f wrEnc := fun s => writeBits_keeps hw s.enc s

theorem rdPad_keeps (hr : ReaderBlind f) (h : ∀ s p, f { s with pad := p } = f s) : Keeps f rdPad :=
  (readByte_keeps hr).bind fun _ => (Keeps.look f _).bind fun _ =>
    Keeps.iteB (Keeps.raise f _ _) (Keeps.iteP (Keeps.raise f _ _) (Keeps.change fun s => h s _))

theorem decBit_keeps (hw : WriterBlind f) (h : ∀ s p, f { s with ptr := p } = f s) (b : Bool) :
    Keeps f (decBit b) := by
  intro s
  rcases decBit_cases b s with ⟨_, e⟩ | ⟨_, _, _, e⟩ | ⟨_, v, s1, _, _, hk, e⟩ | ⟨_, v, c, s1, _, _, hk, e⟩ |
    ⟨_, _, _, _, _, e⟩ <;> rw [e]
  · rfl
  · rfl
  · have := writeByte_keeps hw v s
    rw [hk] at this
    exact (h s1 _).trans this
  · have := writeByte_keeps hw v s
    rw [hk] at this
    exact this
  · exact h s _

theorem decodeLoop_keeps (hr : ReaderBlind f) (hw : WriterBlind f) (h : ∀ s p, f { s with ptr := p } = f s)
    (n : Nat) : Keeps f (decodeLoop n) := by
  induction n with
  | zero => exact Keeps.pure f ()
  | succ n ih => exact (readBit_keeps hr).bind fun b => (decBit_keeps hw h b).bind fun _ => ih

/-- Everything `Decode` does before its loop (R235). -/
theorem decodePayload_cases (s : State) :
    (s.tree = none ∧ decodePayload s = .error ⟨.noTree, 0#8⟩ s) ∨
    (s.tree ≠ none ∧ s.inOpen = false ∧ decodePayload s = .error ⟨.inClosed, 0#8⟩ s) ∨
    (s.tree ≠ none ∧ s.inOpen = true ∧
      decodePayload s = decodeLoop (bitsLeft s - s.pad.toNat) { s with ptr := some [] }) := by
  unfold decodePayload
  by_cases ht : s.tree = none
  · exact .inl ⟨ht, by simp [ht]⟩
  · cases ho : s.inOpen
    · exact .inr (.inl ⟨ht, rfl, by simp [ht]⟩)
    · exact .inr (.inr ⟨ht, rfl, by simp [ht]⟩)

theorem decodePayload_keeps (hr : ReaderBlind f) (hw : WriterBlind f) (h : ∀ s p, f { s with ptr := p } = f s) :
    Keeps f decodePayload := by
  intro s
  rcases decodePayload_cases s with ⟨_, e⟩ | ⟨_, _, e⟩ | ⟨_, _, e⟩ <;> rw [e]
  · rfl
  · rfl
  · exact (decodeLoop_keeps hr hw h _ { s with ptr := some [] }).trans (h s _)

theorem requireClosed_cases (s : State) :
    ((s.inOpen = true ∨ s.outOpen = true) ∧ requireClosed s = .error ⟨.alreadyOpen, 0#8⟩ s) ∨
    (s.inOpen = false ∧ s.outOpen = false ∧ requireClosed s = .ok () s) := by
  unfold requireClosed
  cases hi : s.inOpen <;> cases ho : s.outOpen <;> simp

theorem requireClosed_keeps : Keeps f requireClosed := by
  intro s
  rcases requireClosed_cases s with ⟨_, e⟩ | ⟨_, _, e⟩ <;> rw [e] <;> rfl

/-! ## The macro commands -/

/-- A relation that every part of `COMPRESS` satisfies, and that composes, holds of the whole call (R215). -/
theorem compressCall_always {R : State → State → Prop} (ht : ∀ a b c, R a b → R b c → R a c)
    (h0 : Always R requireClosed) (h1 : ∀ s, R s (resetBlock s)) (hp : ∀ s p, R s (setPhase p s))
    (h2 : Always R openR) (h3 : Always R openW) (h4 : Always R tally) (h5 : Always R buildTree)
    (h6 : Always R mkTab) (h7 : Always R rewindR) (h8 : Always R encodeInput) (h9 : Always R serTree)
    (h10 : Always R wrPad) (h11 : Always R wrEnc) (h12 : Always R flushW) (h13 : ∀ s, R s (closeBoth s))
    (h14 : ∀ s, R s (discardCall s)) : Always R compressCall := by
  have b : ∀ {x y : Micro Unit}, Always R x → Always R y → Always R (x >>= fun _ => y) :=
    fun hx hy => Always.bind ht hx fun _ => hy
  have c : ∀ p, Always R (change (setPhase p)) := fun p s => hp s p
  exact b h0 (b h1 (b (c _) (b h2 (b h3 (b (c _) (b h4 (b (c _) (b h5 (b (c _) (b h6 (b (c _) (b h7 (b h8 (b (c _)
    (b h9 (b (c _) (b h10 (b (c _) (b h11 (b (c _) (b h12 (b h13 h14))))))))))))))))))))))

/-- The same for `DECOMPRESS` (R237). -/
theorem decompressCall_always {R : State → State → Prop} (ht : ∀ a b c, R a b → R b c → R a c)
    (h0 : Always R requireClosed) (h1 : ∀ s, R s (resetBlock s)) (hp : ∀ s p, R s (setPhase p s))
    (h2 : Always R openR) (h3 : Always R openW) (h4 : Always R desTree) (h5 : Always R rdPad)
    (h6 : Always R decodePayload) (h7 : Always R flushW) (h8 : ∀ s, R s (closeBoth s))
    (h9 : ∀ s, R s (discardTree s)) : Always R decompressCall := by
  have b : ∀ {x y : Micro Unit}, Always R x → Always R y → Always R (x >>= fun _ => y) :=
    fun hx hy => Always.bind ht hx fun _ => hy
  have c : ∀ p, Always R (change (setPhase p)) := fun p s => hp s p
  exact b h0 (b h1 (b (c _) (b h2 (b h3 (b (c _) (b h4 (b (c _) (b h5 (b (c _) (b h6 (b (c _) (b h7
    (b h8 h9)))))))))))))

/-! ## A command -/

/-- A view that fault entry and `PHASE` cannot touch is kept by a command whose body keeps it. -/
theorem runCommand_keeps (hp : ∀ s p, f (setPhase p s) = f s) (hf : ∀ o c s, f (faultEntry o c s) = f s) {i : Instr}
    {body : Micro Unit} (hb : Keeps f body) {s t : State} (h : runCommand i body s = .next t) : f t = f s := by
  have hk := hb (setPhase (phaseOf i) s)
  rcases runCommand_cases i body s with ⟨s', e, e'⟩ | ⟨c, s', e, e'⟩ <;> rw [e'] at h <;> cases h <;> rw [e] at hk
  · exact (hp _ _).trans (hk.trans (hp _ _))
  · exact (hf _ _ _).trans (hk.trans (hp _ _))

end Sys2Proof.Machine
end

