-- ==== Sys2Proof/Laws/Invariant.lean ====
section
/-! SUPPORT. The invariants of R44 through a command: what holds while it runs without a fault, what still holds where
it raises, and that each micro-operation keeps them. -/

namespace Sys2Proof.Machine

variable {α β : Type}

/-- What every state inside a command satisfies, also one where the command raises. -/
structure Hurt (s : State) : Prop where
  rootInternal : ∀ t, s.tree = some t → isInternal t = true
  nodesCounted : ∀ t, s.tree = some t → treeNodes t ≤ 511 ∧ treeNodes t % 2 = 1 ∧ s.nnodes.toNat = treeNodes t
  cursorInside : s.inOpen = true → s.inPos.toNat ≤ inLen s ∧ inLen s ≤ Config.lenMax
  encFits : s.enc.length ≤ s.cfg.encCap.toNat
  tableOfTree : s.tabValid = true → ∃ t, s.tree = some t ∧ ∀ b, slotGet s.code b = codewordOf t b
  tableEmpty : s.tabValid = false → ∀ b, slotGet s.code b = none
  ptrNone : s.ptr = none ↔ s.tree = none
  ptrInternal : ∀ t p, s.tree = some t → s.ptr = some p → ∃ l r, nodeAt t p = some (.internal l r)
  closedWriterEmpty : s.outOpen = false → s.bwCnt = 0#3 ∧ s.bwBuf = 0#8

/-- What every state inside a command that has not raised satisfies beside. -/
structure Live (s : State) : Prop extends Hurt s where
  lowZero : LowZero s
  noFault : s.err = 0#4 ∧ s.errinfo = 0#32
  noQueue : s.pq = []

theorem Inv.live {s : State} (h : Inv s) (h0 : s.err = 0#4) (p : Phase) : Live (setPhase p s) where
  rootInternal := h.rootInternal
  nodesCounted := h.nodesCounted
  cursorInside := h.cursorInside
  encFits := h.encFits
  tableOfTree := h.tableOfTree
  tableEmpty := h.tableEmpty
  ptrNone := h.ptrNone
  ptrInternal := h.ptrInternal
  closedWriterEmpty := h.closedWriterEmpty
  lowZero := h.pendingLowZero
  noFault := ⟨h0, h.infoClear h0⟩
  noQueue := h.idle.2

theorem Live.inv {s : State} (h : Live s) : Inv (setPhase .idle s) where
  rootInternal := h.rootInternal
  nodesCounted := h.nodesCounted
  pendingLowZero := h.lowZero
  cursorInside := h.cursorInside
  encFits := h.encFits
  tableOfTree := h.tableOfTree
  tableEmpty := h.tableEmpty
  ptrNone := h.ptrNone
  ptrInternal := h.ptrInternal
  idle := ⟨rfl, h.noQueue⟩
  faultReleased := fun hne => absurd h.noFault.1 hne
  closedWriterEmpty := h.closedWriterEmpty
  errLegal := by rw [setPhase_err, h.noFault.1]; decide
  infoClear := fun _ => h.noFault.2

theorem errCode_legal (e : Err) : (errCode e).toNat ≤ 6 ∧ errCode e ≠ 0#4 := by
  cases e <;> decide

/-- What fault entry changes, in one record (R256). -/
theorem faultEntry_eq (op : Byte) (c : Cause) (s : State) :
    faultEntry op c s = { s with
      err := errCode (subErr c.sub)
      errinfo := c.datum ++ op ++ (phaseCode s.phase).setWidth 8 ++ subCode c.sub
      bwBuf := if s.outOpen then 0#8 else s.bwBuf
      bwCnt := if s.outOpen then 0#3 else s.bwCnt
      outOpen := false
      outStore :=
        if s.outOpen then
          if s.bwCnt ≠ 0#3 ∧ c.sub ≠ .outBroken then
            if (outAsk s.outStore).ok then memAppend (outAsk s.outStore) s.bwBuf else outAsk s.outStore
          else s.outStore
        else s.outStore
      inOpen := false, pq := [], phase := .idle } := by
  have hoo : s.outOpen = true ∨ s.outOpen = false := by cases s.outOpen <;> simp
  rcases hoo with ho | ho
  · by_cases hc : s.bwCnt ≠ 0#3 ∧ c.sub ≠ .outBroken
    · simp only [faultEntry, ho, if_true, releaseFlush, if_pos hc, closeWriter, endFault]
    · simp only [faultEntry, ho, if_true, releaseFlush, if_neg hc, closeWriter, endFault]
  · simp only [faultEntry, ho, Bool.false_eq_true, if_false, endFault]

/-- Fault entry for `OUT_BROKEN` empties the buffer unread (R256). -/
theorem faultEntry_broken (op d : Byte) {s : State} (ho : s.outOpen = true) (buf : BitVec 8) (cnt : BitVec 3) :
    faultEntry op ⟨.outBroken, d⟩ { s with bwBuf := buf, bwCnt := cnt } = faultEntry op ⟨.outBroken, d⟩ s := by
  rw [faultEntry_eq, faultEntry_eq]
  simp [ho]

theorem Hurt.inv {s : State} (h : Hurt s) (op : Byte) (c : Cause) : Inv (faultEntry op c s) := by
  rw [faultEntry_eq]
  have hbw : (if s.outOpen then 0#8 else s.bwBuf) = 0#8 ∧ (if s.outOpen then 0#3 else s.bwCnt) = 0#3 := by
    cases ho : s.outOpen
    · exact ⟨(h.closedWriterEmpty ho).2, (h.closedWriterEmpty ho).1⟩
    · exact ⟨rfl, rfl⟩
  exact
    { rootInternal := h.rootInternal
      nodesCounted := h.nodesCounted
      pendingLowZero := by
        intro k _
        change (if s.outOpen then 0#8 else s.bwBuf).getLsbD k = false
        rw [hbw.1]
        simp
      cursorInside := fun hf => by cases hf
      encFits := h.encFits
      tableOfTree := h.tableOfTree
      tableEmpty := h.tableEmpty
      ptrNone := h.ptrNone
      ptrInternal := h.ptrInternal
      idle := ⟨rfl, rfl⟩
      faultReleased := fun _ => ⟨rfl, rfl⟩
      closedWriterEmpty := fun _ => ⟨hbw.2, hbw.1⟩
      errLegal := (errCode_legal _).1
      infoClear := fun h0 => absurd h0 (errCode_legal _).2 }

/-! ## Triples -/

/-- From a live state `x` ends in a live state, or raises in one that fault entry can take. -/
def Sound (x : Micro α) : Prop :=
  ∀ s, Live s → (∀ a s', x s = .ok a s' → Live s') ∧ (∀ c s', x s = .error c s' → Hurt s')

theorem Sound.bind {x : Micro α} {g : α → Micro β} (hx : Sound x) (hg : ∀ a, Sound (g a)) : Sound (x >>= g) := by
  intro s h
  refine ⟨fun b s'' e => ?_, fun c s'' e => ?_⟩
  · obtain ⟨a, s', h1, h2⟩ := Micro.bind_ok_inv e
    exact (hg a s' ((hx s h).1 a s' h1)).1 b s'' h2
  · rcases Micro.bind_error_inv e with h1 | ⟨a, s', h1, h2⟩
    · exact (hx s h).2 c s'' h1
    · exact (hg a s' ((hx s h).1 a s' h1)).2 c s'' h2

/-- An operation that ends in one known way. -/
theorem Sound.ofOk {x : Micro α} {s s1 : State} {a : α} (e : x s = .ok a s1) (h : Live s1) :
    (∀ a s', x s = .ok a s' → Live s') ∧ (∀ c s', x s = .error c s' → Hurt s') := by
  rw [e]
  exact ⟨fun _ _ e' => by cases e'; exact h, fun _ _ e' => by cases e'⟩

theorem Sound.ofError {x : Micro α} {s s1 : State} {c : Cause} (e : x s = .error c s1) (h : Hurt s1) :
    (∀ a s', x s = .ok a s' → Live s') ∧ (∀ c s', x s = .error c s' → Hurt s') := by
  rw [e]
  exact ⟨fun _ _ e' => (nomatch e'), fun _ _ e' => by cases e'; exact h⟩

theorem Sound.pure (a : α) : Sound (pure a : Micro α) := fun _ h => Sound.ofOk rfl h

theorem Sound.look (g : State → α) : Sound (look g) := fun _ h => Sound.ofOk rfl h

theorem Sound.raise (sub : Sub) (d : Byte) : Sound (raiseErr sub d : Micro α) := fun _ h => Sound.ofError rfl h.toHurt

theorem Sound.change {g : State → State} (hg : ∀ s, Live s → Live (g s)) : Sound (change g) :=
  fun s h => Sound.ofOk rfl (hg s h)

theorem Sound.iteB {b : Bool} {x y : Micro α} (hx : Sound x) (hy : Sound y) : Sound (if b then x else y) := by
  cases b
  · exact hy
  · exact hx

theorem Sound.iteP {p : Prop} [Decidable p] {x y : Micro α} (hx : Sound x) (hy : Sound y) :
    Sound (if p then x else y) := by
  by_cases hp : p
  · rw [if_pos hp]; exact hx
  · rw [if_neg hp]; exact hy

/-! ## Writer -/

theorem writerOnly_live {s s' : State} (h : Live s) (ho : s.outOpen = true) (hw : WriterOnly s s') : Hurt s' := by
  obtain ⟨buf, cnt, ok, plan, ext, rfl, _⟩ := hw
  exact
    { rootInternal := h.rootInternal, nodesCounted := h.nodesCounted, cursorInside := h.cursorInside
      encFits := h.encFits, tableOfTree := h.tableOfTree, tableEmpty := h.tableEmpty, ptrNone := h.ptrNone
      ptrInternal := h.ptrInternal
      closedWriterEmpty := fun hc => by
        have : s.outOpen = false := hc
        rw [ho] at this
        cases this }

/-- Setting the writer's buffer keeps a live state live, where its unwritten bits are 0 and a closed writer is empty. -/
theorem live_writer {s : State} (h : Live s) (buf : BitVec 8) (cnt : BitVec 3) (o : OutStore) (b : Bool)
    (hz : ∀ k, k < 8 - cnt.toNat → buf.getLsbD k = false) (hc : b = false → cnt = 0#3 ∧ buf = 0#8) :
    Live { s with bwBuf := buf, bwCnt := cnt, outStore := o, outOpen := b } :=
  { rootInternal := h.rootInternal, nodesCounted := h.nodesCounted, cursorInside := h.cursorInside
    encFits := h.encFits, tableOfTree := h.tableOfTree, tableEmpty := h.tableEmpty, ptrNone := h.ptrNone
    ptrInternal := h.ptrInternal, closedWriterEmpty := hc, lowZero := hz, noFault := h.noFault
    noQueue := h.noQueue }

theorem writeBit_sound (b : Bool) : Sound (writeBit b) := by
  intro s h
  have hlt := s.bwCnt.isLt
  rcases writeBit_cases b s with ⟨_, e⟩ | ⟨ho, hc, e⟩ | ⟨ho, hc, _, e⟩ | ⟨ho, hc, _, e⟩
  · exact Sound.ofError e h.toHurt
  · refine Sound.ofOk e (live_writer h _ _ s.outStore s.outOpen ?_ (fun hf => ?_))
    · have hn : (s.bwCnt + 1#3).toNat = s.bwCnt.toNat + 1 := by
        rw [BitVec.toNat_add]
        simp
        omega
      intro k hk
      rw [hn] at hk
      rw [getLsbD_setBit_low _ _ _ (by omega) (by omega)]
      exact h.lowZero k (by omega)
    · rw [ho] at hf; cases hf
  · exact Sound.ofOk e (live_writer h 0#8 0#3 _ s.outOpen (fun k _ => by simp) (fun _ => ⟨rfl, rfl⟩))
  · have := writeBit_always b s
    rw [e] at this
    exact Sound.ofError e (writerOnly_live h ho this)

theorem writeBits_sound (bs : Bits) : Sound (writeBits bs) := by
  induction bs with
  | nil => exact Sound.pure ()
  | cons b bs ih => exact (writeBit_sound b).bind fun _ => ih

theorem writeByte_sound (v : Byte) : Sound (writeByte v) := writeBits_sound _

theorem flushW_sound : Sound flushW := by
  intro s h
  rcases flushW_cases s with ⟨_, e⟩ | ⟨_, _, e⟩ | ⟨hc, _, e⟩
  · exact Sound.ofOk e h
  · exact Sound.ofOk e (live_writer h 0#8 0#3 _ s.outOpen (fun k _ => by simp) (fun _ => ⟨rfl, rfl⟩))
  · exact Sound.ofError e
      { rootInternal := h.rootInternal, nodesCounted := h.nodesCounted, cursorInside := h.cursorInside
        encFits := h.encFits, tableOfTree := h.tableOfTree, tableEmpty := h.tableEmpty, ptrNone := h.ptrNone
        ptrInternal := h.ptrInternal, closedWriterEmpty := h.closedWriterEmpty }

theorem low_zero_empty (v : BitVec 8) (h : ∀ k, k < 8 → v.getLsbD k = false) : v = 0#8 := by
  apply BitVec.eq_of_getLsbD_eq
  intro i hi
  rw [h i hi]
  simp

/-- After a flush the writer holds nothing. -/
theorem flushW_empty {s s1 : State} {u : Unit} (h : Live s) (e : flushW s = .ok u s1) :
    s1.bwCnt = 0#3 ∧ s1.bwBuf = 0#8 := by
  rcases flushW_cases s with ⟨hc, e'⟩ | ⟨_, _, e'⟩ | ⟨_, _, e'⟩ <;> rw [e'] at e <;> cases e
  · refine ⟨hc, low_zero_empty _ fun k hk => h.lowZero k ?_⟩
    rw [hc]
    simpa using hk
  · exact ⟨rfl, rfl⟩

/-- Closing the writer after a flush keeps a live state live. -/
theorem flushW_close_sound {g : State → State}
    (hg : ∀ s, Live s → s.bwCnt = 0#3 → s.bwBuf = 0#8 → Live (g s)) :
    Sound (flushW >>= fun _ => change g) := by
  intro s h
  refine ⟨fun b s'' e => ?_, fun c s'' e => ?_⟩
  · obtain ⟨a, s', h1, h2⟩ := Micro.bind_ok_inv e
    cases h2
    have he := flushW_empty h h1
    exact hg s' ((flushW_sound s h).1 a s' h1) he.1 he.2
  · rcases Micro.bind_error_inv e with h1 | ⟨a, s', h1, h2⟩
    · exact (flushW_sound s h).2 c s'' h1
    · cases h2

theorem live_close {s : State} (h : Live s) (hc : s.bwCnt = 0#3) (hb : s.bwBuf = 0#8) :
    Live { s with outOpen := false } :=
  live_writer h s.bwBuf s.bwCnt s.outStore false h.lowZero fun _ => ⟨hc, hb⟩

theorem closeW_eq (s : State) (ho : s.outOpen = true) :
    closeW s = (flushW >>= fun _ => change fun s => { s with outOpen := false }) s := by
  rcases closeW_cases s with ⟨hf, _⟩ | ⟨s1, _, hf, e⟩ | ⟨c, s1, _, hf, e⟩
  · rw [ho] at hf; cases hf
  · rw [e, Micro.bind_ok hf]; rfl
  · rw [e, Micro.bind_error hf]

theorem closeW_sound : Sound closeW := by
  intro s h
  rcases closeW_cases s with ⟨_, e⟩ | ⟨s1, ho, _, _⟩ | ⟨c, s1, ho, _, _⟩
  · exact Sound.ofError e h.toHurt
  all_goals
    rw [closeW_eq s ho]
    exact flushW_close_sound (fun _ => live_close) s h

theorem openW_sound : Sound openW := by
  intro s h
  rcases openW_cases s with ⟨_, e⟩ | ⟨_, _, e⟩ | ⟨_, _, e⟩
  · exact Sound.ofError e h.toHurt
  · exact Sound.ofError e h.toHurt
  · exact Sound.ofOk e (live_writer h 0#8 0#3 _ true (fun k _ => by simp) (fun _ => ⟨rfl, rfl⟩))

/-! ## Reader -/

theorem live_reader {s s' : State} (h : Live s) (hr : ReaderOnly s s') : Live s' := by
  obtain ⟨pos, buf, avail, eof, draws, ok, plan, data, rfl, hl, _, hq⟩ := hr
  exact
    { rootInternal := h.rootInternal, nodesCounted := h.nodesCounted
      cursorInside := fun ho => by
        have := h.cursorInside ho
        refine ⟨?_, ?_⟩
        · change pos.toNat ≤ data.length
          rw [hl]
          exact hq this.1 this.2
        · change data.length ≤ _
          rw [hl]
          exact this.2
      encFits := h.encFits, tableOfTree := h.tableOfTree, tableEmpty := h.tableEmpty, ptrNone := h.ptrNone
      ptrInternal := h.ptrInternal, closedWriterEmpty := h.closedWriterEmpty, lowZero := h.lowZero
      noFault := h.noFault, noQueue := h.noQueue }

theorem Sound.ofReader {x : Micro α} (hx : Always ReaderOnly x) : Sound x := by
  intro s h
  have := hx s
  cases e : x s with
  | ok a s1 => rw [e] at this; exact ⟨fun _ _ e' => by cases e'; exact live_reader h this, fun _ _ e' => by cases e'⟩
  | error c s1 =>
    rw [e] at this
    exact ⟨fun _ _ e' => (nomatch e'), fun _ _ e' => by cases e'; exact (live_reader h this).toHurt⟩

theorem readBit_sound : Sound readBit := Sound.ofReader readBit_always

theorem readByte_sound : Sound readByte := Sound.ofReader readByte_always

theorem live_handle {s : State} (h : Live s) (b e : Bool) (pos : Word) (buf : BitVec 8) (avail : Fin 9)
    (hc : b = true → pos.toNat ≤ inLen s ∧ inLen s ≤ Config.lenMax) :
    Live { s with inOpen := b, inPos := pos, brBuf := buf, brAvail := avail, brEof := e } :=
  { rootInternal := h.rootInternal, nodesCounted := h.nodesCounted, cursorInside := hc, encFits := h.encFits
    tableOfTree := h.tableOfTree, tableEmpty := h.tableEmpty, ptrNone := h.ptrNone, ptrInternal := h.ptrInternal
    closedWriterEmpty := h.closedWriterEmpty, lowZero := h.lowZero, noFault := h.noFault, noQueue := h.noQueue }

theorem openR_sound : Sound openR := by
  intro s h
  rcases openR_cases s with ⟨_, e⟩ | ⟨_, _, e⟩ | ⟨_, _, _, e⟩ | ⟨_, _, hl, e⟩
  · exact Sound.ofError e h.toHurt
  · exact Sound.ofError e h.toHurt
  · exact Sound.ofError e h.toHurt
  · exact Sound.ofOk e (live_handle h true false 0#32 0#8 0 fun _ => ⟨by simp, hl⟩)

theorem closeR_sound : Sound closeR := by
  intro s h
  rcases closeR_cases s with ⟨_, e⟩ | ⟨_, e⟩
  · exact Sound.ofError e h.toHurt
  · exact Sound.ofOk e (live_handle h false s.brEof s.inPos s.brBuf s.brAvail fun hf => by cases hf)

theorem rewindR_sound : Sound rewindR := by
  intro s h
  rcases rewindR_cases s with ⟨_, e⟩ | ⟨ho, e⟩
  · exact Sound.ofError e h.toHurt
  · exact Sound.ofOk e (live_handle h s.inOpen false 0#32 0#8 0 fun hf => ⟨by simp, (h.cursorInside hf).2⟩)

/-! ## Trie builder and table -/

theorem live_data {s : State} (h : Live s) (q : FreqTable) (p : BitVec 3) (t : BitVec 12) (ph : Phase) (r : Word)
    (c : BitVec 8) (v : BitVec 256) :
    Live { s with freq := q, pad := p, treebits := t, phase := ph, result := r, clen := c, cbits := v } :=
  { rootInternal := h.rootInternal, nodesCounted := h.nodesCounted, cursorInside := h.cursorInside
    encFits := h.encFits, tableOfTree := h.tableOfTree, tableEmpty := h.tableEmpty, ptrNone := h.ptrNone
    ptrInternal := h.ptrInternal, closedWriterEmpty := h.closedWriterEmpty, lowZero := h.lowZero
    noFault := h.noFault, noQueue := h.noQueue }

theorem live_setPhase {s : State} (h : Live s) (p : Phase) : Live (setPhase p s) :=
  live_data h s.freq s.pad s.treebits p s.result s.clen s.cbits

theorem live_setResult {s : State} (h : Live s) (v : Word) : Live (setResult v s) :=
  live_data h s.freq s.pad s.treebits s.phase v s.clen s.cbits

theorem freqAdd_sound (b : Byte) (n : Word) : Sound (freqAdd b n) := by
  intro s h
  rcases freqAdd_cases b n s with ⟨_, e, _⟩ | ⟨_, e⟩
  · exact Sound.ofOk e (live_data h _ s.pad s.treebits s.phase s.result s.clen s.cbits)
  · exact Sound.ofError e h.toHurt

theorem tallyLoop_sound (n : Nat) : Sound (tallyLoop n) := by
  induction n with
  | zero => exact Sound.pure ()
  | succ n ih =>
    exact readByte_sound.bind fun v => (Sound.look _).bind fun eof =>
      Sound.iteB (Sound.pure ()) ((freqAdd_sound v 1#32).bind fun _ => ih)

theorem tally_sound : Sound tally := fun s h => tallyLoop_sound (readTurns s) s h

/-- A live state whose tree, traversal pointer, node count and table are replaced together. -/
theorem live_tree {s : State} (h : Live s) (t : Option HuffTree) (p : Option Bits) (n : BitVec 9) (c : CodeTable)
    (v : Bool) (d : Nat)
    (h1 : ∀ u, t = some u → isInternal u = true)
    (h2 : ∀ u, t = some u → treeNodes u ≤ 511 ∧ treeNodes u % 2 = 1 ∧ n.toNat = treeNodes u)
    (h3 : v = true → ∃ u, t = some u ∧ ∀ b, slotGet c b = codewordOf u b)
    (h4 : v = false → ∀ b, slotGet c b = none)
    (h5 : p = none ↔ t = none)
    (h6 : ∀ u q, t = some u → p = some q → ∃ l r, nodeAt u q = some (.internal l r)) :
    Live { s with tree := t, ptr := p, nnodes := n, code := c, tabValid := v, draws := d } :=
  { rootInternal := h1, nodesCounted := h2, cursorInside := h.cursorInside
    encFits := h.encFits, tableOfTree := h3, tableEmpty := h4, ptrNone := h5
    ptrInternal := h6, closedWriterEmpty := h.closedWriterEmpty, lowZero := h.lowZero
    noFault := h.noFault, noQueue := h.noQueue }

theorem live_noTree {s : State} (h : Live s) (n : BitVec 9) (d : Nat) :
    Live { s with tree := none, ptr := none, nnodes := n, code := emptyCode, tabValid := false, draws := d } :=
  live_tree h none none n emptyCode false d (fun _ e => by cases e) (fun _ e => by cases e) (fun e => by cases e)
    (fun _ b => slotGet_emptyCode b) ⟨fun _ => rfl, fun _ => rfl⟩ (fun _ _ e => by cases e)

theorem isInternal_eq {t : HuffTree} (h : isInternal t = true) : ∃ l r, t = .internal l r := by
  cases t with
  | leaf v => cases h
  | internal l r => exact ⟨l, r, rfl⟩

theorem treeNodes_odd (t : HuffTree) : treeNodes t % 2 = 1 := by
  have := treeNodes_eq t
  have := treeLeaves_pos t
  omega

theorem live_newTree {s : State} (h : Live s) (t : HuffTree) (n : BitVec 9) (d : Nat) (hi : isInternal t = true)
    (hn : treeNodes t ≤ 511) (hc : n.toNat = treeNodes t) :
    Live { s with tree := some t, ptr := some [], nnodes := n, code := emptyCode, tabValid := false, draws := d } := by
  obtain ⟨l, r, rfl⟩ := isInternal_eq hi
  exact live_tree h _ _ n emptyCode false d (fun _ e => by cases e; exact hi)
    (fun _ e => by cases e; exact ⟨hn, treeNodes_odd _, hc⟩) (fun e => by cases e)
    (fun _ b => slotGet_emptyCode b) ⟨fun e => (nomatch e), fun e => by cases e⟩
    (fun u q e e' => by cases e; cases e'; exact ⟨l, r, nodeAt_nil _⟩)

theorem buildTree_sound : Sound buildTree := by
  intro s h
  have hpq := h.noQueue
  rcases buildTree_cases s with ⟨_, d, e⟩ | ⟨b, d, _, e⟩ | ⟨_, t, d, hi, hp, e⟩
  · refine Sound.ofError e (Live.toHurt ?_)
    have := live_noTree h 0#9 d
    rw [notBuilt, ← hpq]
    exact this
  · refine Sound.ofOk e ?_
    have := live_newTree h (.internal (.leaf b) (.leaf (b + 1#8))) 3#9 d rfl (by simp [treeNodes]) rfl
    rw [built, ← hpq]
    exact this
  · refine Sound.ofOk e ?_
    have hl := hp.length_eq
    rw [leafBytes_length] at hl
    have h256 := nonZeroSlots_length_le s.freq
    have hn := treeNodes_eq t
    have := live_newTree h t (BitVec.ofNat 9 (treeNodes t)) d hi (by omega) (by
      rw [BitVec.toNat_ofNat]
      apply Nat.mod_eq_of_lt
      omega)
    rw [built, ← hpq]
    exact this

theorem mkTab_sound : Sound mkTab := by
  intro s h
  rcases mkTab_cases s with ⟨_, e⟩ | ⟨t, v, ht, _, _, e⟩ | ⟨t, c, ht, _, hc, e⟩
  · exact Sound.ofError e h.toHurt
  · exact Sound.ofError e (Live.toHurt (live_tree h s.tree s.ptr s.nnodes emptyCode false s.draws h.rootInternal
      h.nodesCounted (fun e => by cases e) (fun _ b => slotGet_emptyCode b) h.ptrNone h.ptrInternal))
  · exact Sound.ofOk e (live_tree h s.tree s.ptr s.nnodes c true s.draws h.rootInternal
      h.nodesCounted (fun _ => ⟨t, ht, hc⟩) (fun e => by cases e) h.ptrNone h.ptrInternal)

theorem lookupCode_sound (v : Byte) : Sound (lookupCode v) := by
  intro s h
  rcases lookupCode_cases v s with ⟨_, e⟩ | ⟨_, _, e⟩
  · exact Sound.ofError e h.toHurt
  · exact Sound.ofOk e h

theorem live_enc {s : State} (h : Live s) (c : Bits) (hc : c.length ≤ s.cfg.encCap.toNat) : Live { s with enc := c } :=
  { rootInternal := h.rootInternal, nodesCounted := h.nodesCounted, cursorInside := h.cursorInside
    encFits := hc, tableOfTree := h.tableOfTree, tableEmpty := h.tableEmpty, ptrNone := h.ptrNone
    ptrInternal := h.ptrInternal, closedWriterEmpty := h.closedWriterEmpty, lowZero := h.lowZero
    noFault := h.noFault, noQueue := h.noQueue }

theorem encSym_sound (v : Byte) : Sound (encSym v) := by
  intro s h
  rcases encSym_cases v s with ⟨_, e⟩ | ⟨_, _, _, e⟩ | ⟨c, _, hl, e⟩
  · exact Sound.ofError e h.toHurt
  · exact Sound.ofError e h.toHurt
  · exact Sound.ofOk e (live_enc h _ (by rw [List.length_append]; exact hl))

theorem encodeLoop_sound (n : Nat) : Sound (encodeLoop n) := by
  induction n with
  | zero => exact Sound.pure ()
  | succ n ih =>
    exact readByte_sound.bind fun v => (Sound.look _).bind fun eof =>
      Sound.iteB (Sound.pure ()) ((encSym_sound v).bind fun _ => ih)

theorem encodeInput_sound : Sound encodeInput := fun s h => encodeLoop_sound (readTurns s) s h

/-! ## Serializer -/

theorem serTree_sound : Sound serTree := by
  intro s h
  rcases serTree_cases s with ⟨_, e⟩ | ⟨t, s1, _, hw, e⟩ | ⟨t, c, s1, _, hw, e⟩
  · exact Sound.ofError e h.toHurt
  · exact Sound.ofOk e (live_data ((writeBits_sound _ s h).1 _ _ hw) s1.freq s1.pad _ s1.phase s1.result s1.clen s1.cbits)
  · exact Sound.ofError e ((writeBits_sound _ s h).2 _ _ hw)

/-- While a tree is read there is none yet, and `NNODES` may count freely. -/
theorem live_nnodes {s : State} (h : Live s) (ht : s.tree = none) (n : BitVec 9) : Live { s with nnodes := n } :=
  { rootInternal := h.rootInternal, nodesCounted := fun t e => by rw [ht] at e; cases e
    cursorInside := h.cursorInside, encFits := h.encFits, tableOfTree := h.tableOfTree, tableEmpty := h.tableEmpty
    ptrNone := h.ptrNone, ptrInternal := h.ptrInternal, closedWriterEmpty := h.closedWriterEmpty
    lowZero := h.lowZero, noFault := h.noFault, noQueue := h.noQueue }

theorem readerBlind_tree : ReaderBlind State.tree := by
  rintro s s' ⟨_, _, _, _, _, _, _, _, rfl, _⟩
  rfl

theorem readerBlind_nnodes : ReaderBlind State.nnodes := by
  rintro s s' ⟨_, _, _, _, _, _, _, _, rfl, _⟩
  rfl

theorem readBit_nnodes {s s' : State} {b : Bool} (h : readBit s = .ok b s') : s'.nnodes = s.nnodes := by
  have := readBit_keeps readerBlind_nnodes s
  rw [h] at this
  exact this

theorem readByte_nnodes {s s' : State} {b : Byte} (h : readByte s = .ok b s') : s'.nnodes = s.nnodes := by
  have := readByte_keeps readerBlind_nnodes s
  rw [h] at this
  exact this

/-- `Get` counts the nodes of the tree it returns, and never more than `NODE_CAP` (R193). -/
theorem getTree_counts (n : Nat) {s s' : State} {t : HuffTree} (h : getTree n s = .ok t s')
    (h0 : s.nnodes.toNat ≤ 511) :
    s'.nnodes.toNat = s.nnodes.toNat + treeNodes t ∧ s'.nnodes.toNat ≤ 511 := by
  induction n generalizing s s' t with
  | zero => cases h
  | succ n ih =>
    rw [getTree_succ] at h
    obtain ⟨b, s1, h1, h2⟩ := Micro.bind_ok_inv h
    have e1 := readBit_nnodes h1
    rw [bind_look] at h2
    cases he : s1.brEof with
    | true => rw [he, if_pos rfl] at h2; cases h2
    | false =>
      rw [he, if_neg (by decide)] at h2
      obtain ⟨u, s2, h3, h4⟩ := Micro.bind_ok_inv h2
      rcases countNode_cases s1 with ⟨_, hk⟩ | ⟨hlt, hk, hn⟩ <;> rw [hk] at h3 <;> cases h3
      rw [e1] at hlt hn
      cases b with
      | true =>
        rw [if_pos rfl] at h4
        obtain ⟨v, s3, h5, h6⟩ := Micro.bind_ok_inv h4
        have e3 := readByte_nnodes h5
        change s3.nnodes = s1.nnodes + 1#9 at e3
        rw [bind_look] at h6
        cases he3 : s3.brEof with
        | true => rw [he3, if_pos rfl] at h6; cases h6
        | false =>
          rw [he3, if_neg (by decide)] at h6
          cases h6
          rw [e3, e1, hn]
          exact ⟨rfl, by omega⟩
      | false =>
        rw [if_neg (by decide)] at h4
        obtain ⟨l, s3, h5, h6⟩ := Micro.bind_ok_inv h4
        obtain ⟨r, s4, h7, h8⟩ := Micro.bind_ok_inv h6
        cases h8
        have hs2 : ({ s1 with nnodes := s1.nnodes + 1#9 } : State).nnodes.toNat = s.nnodes.toNat + 1 := by
          change (s1.nnodes + 1#9).toNat = _
          rw [e1, hn]
        obtain ⟨k1, k2⟩ := ih h5 (by rw [hs2]; omega)
        obtain ⟨k3, k4⟩ := ih h7 k2
        rw [hs2] at k1
        rw [k3, k1]
        simp only [treeNodes]
        rw [k3, k1] at k4
        exact ⟨by omega, by omega⟩

theorem getTree_live (n : Nat) {s : State} (h : Live s) (ht : s.tree = none) :
    (∀ t s', getTree n s = .ok t s' → Live s' ∧ s'.tree = none) ∧ (∀ c s', getTree n s = .error c s' → Hurt s') := by
  induction n generalizing s with
  | zero => exact ⟨fun _ _ e => (nomatch e), fun _ _ e => by cases e; exact h.toHurt⟩
  | succ n ih =>
    rw [getTree_succ]
    have htree : ∀ {b s1}, readBit s = .ok b s1 → s1.tree = none := by
      intro b s1 h1
      have := readBit_keeps readerBlind_tree s
      rw [h1] at this
      exact this.trans ht
    have hcount : ∀ {s1 : State}, Live s1 → s1.tree = none → ∀ {u s2}, countNode s1 = .ok u s2 →
        Live s2 ∧ s2.tree = none := by
      intro s1 l1 t1 u s2 h3
      rcases countNode_cases s1 with ⟨_, hk⟩ | ⟨_, hk, _⟩ <;> rw [hk] at h3 <;> cases h3
      exact ⟨live_nnodes l1 t1 _, t1⟩
    refine ⟨fun t s' e => ?_, fun c s' e => ?_⟩
    · obtain ⟨b, s1, h1, h2⟩ := Micro.bind_ok_inv e
      have l1 := (readBit_sound s h).1 _ _ h1
      have t1 := htree h1
      rw [bind_look] at h2
      split at h2
      · cases h2
      · obtain ⟨u, s2, h3, h4⟩ := Micro.bind_ok_inv h2
        obtain ⟨l2, t2⟩ := hcount l1 t1 h3
        split at h4
        · obtain ⟨v, s3, h5, h6⟩ := Micro.bind_ok_inv h4
          have l3 := (readByte_sound s2 l2).1 _ _ h5
          have t3 := readByte_keeps readerBlind_tree s2
          rw [h5] at t3
          rw [bind_look] at h6
          split at h6
          · cases h6
          · cases h6
            exact ⟨l3, t3.trans t2⟩
        · obtain ⟨l, s3, h5, h6⟩ := Micro.bind_ok_inv h4
          obtain ⟨r, s4, h7, h8⟩ := Micro.bind_ok_inv h6
          cases h8
          obtain ⟨l3, t3⟩ := (ih l2 t2).1 _ _ h5
          exact (ih l3 t3).1 _ _ h7
    · rcases Micro.bind_error_inv e with h1 | ⟨b, s1, h1, h2⟩
      · exact (readBit_sound s h).2 _ _ h1
      · have l1 := (readBit_sound s h).1 _ _ h1
        have t1 := htree h1
        rw [bind_look] at h2
        split at h2
        · cases h2; exact l1.toHurt
        · rcases Micro.bind_error_inv h2 with h3 | ⟨u, s2, h3, h4⟩
          · rcases countNode_cases s1 with ⟨_, hk⟩ | ⟨_, hk, _⟩ <;> rw [hk] at h3 <;> cases h3
            exact l1.toHurt
          · obtain ⟨l2, t2⟩ := hcount l1 t1 h3
            split at h4
            · rcases Micro.bind_error_inv h4 with h5 | ⟨v, s3, h5, h6⟩
              · exact (readByte_sound s2 l2).2 _ _ h5
              · have l3 := (readByte_sound s2 l2).1 _ _ h5
                rw [bind_look] at h6
                split at h6
                · cases h6; exact l3.toHurt
                · cases h6
            · rcases Micro.bind_error_inv h4 with h5 | ⟨l, s3, h5, h6⟩
              · exact (ih l2 t2).2 _ _ h5
              · obtain ⟨l3, t3⟩ := (ih l2 t2).1 _ _ h5
                rcases Micro.bind_error_inv h6 with h7 | ⟨r, s4, h7, h8⟩
                · exact (ih l3 t3).2 _ _ h7
                · cases h8

theorem live_dropTree {s : State} (h : Live s) : Live (dropTree s) := live_noTree h 0#9 s.draws

theorem getTree_empty_table {n : Nat} {s s' : State} {t : HuffTree} (h : getTree n (dropTree s) = .ok t s') :
    s'.code = emptyCode ∧ s'.tabValid = false := by
  have := getTree_keeps (f := fun s => (s.code, s.tabValid))
    (by rintro s s' ⟨_, _, _, _, _, _, _, _, rfl, _⟩; rfl) (fun _ _ => rfl) n (dropTree s)
  rw [h] at this
  exact ⟨congrArg Prod.fst this, congrArg Prod.snd this⟩

theorem desTree_sound : Sound desTree := by
  intro s h
  have h0 := live_dropTree h
  have key := getTree_live (Config.nodeCap + 1) h0 rfl
  change (∀ a s', (getTree (Config.nodeCap + 1) >>= fun r =>
      if isInternal r then change (fun s => { s with tree := some r, ptr := some [] }) else raiseErr .rootLeaf)
      (dropTree s) = .ok a s' → Live s') ∧
    (∀ c s', (getTree (Config.nodeCap + 1) >>= fun r =>
      if isInternal r then change (fun s => { s with tree := some r, ptr := some [] }) else raiseErr .rootLeaf)
      (dropTree s) = .error c s' → Hurt s')
  refine ⟨fun a s' e => ?_, fun c s' e => ?_⟩
  · obtain ⟨t, s1, h1, h2⟩ := Micro.bind_ok_inv e
    obtain ⟨l1, t1⟩ := key.1 t s1 h1
    obtain ⟨c1, v1⟩ := getTree_empty_table h1
    obtain ⟨n1, n2⟩ := getTree_counts _ h1 (by change (0#9 : BitVec 9).toNat ≤ 511; decide)
    have n0 : (dropTree s).nnodes.toNat = 0 := rfl
    rw [n0, Nat.zero_add] at n1
    split at h2
    · rename_i hi
      cases h2
      have := live_newTree l1 t s1.nnodes s1.draws hi (by omega) n1
      rw [← c1, ← v1] at this
      exact this
    · cases h2
  · rcases Micro.bind_error_inv e with h1 | ⟨t, s1, h1, h2⟩
    · exact key.2 c s' h1
    · split at h2
      · cases h2
      · cases h2
        exact (key.1 _ _ h1).1.toHurt

/-! ## Compressor and decompressor -/

theorem wrPad_sound : Sound wrPad :=
  (Sound.look _).bind fun _ =>
    (Sound.change fun s h => live_data h s.freq _ s.treebits s.phase s.result s.clen s.cbits).bind fun _ =>
      writeByte_sound _

theorem wrEnc_sound : Sound wrEnc := fun s h => writeBits_sound s.enc s h

theorem rdPad_sound : Sound rdPad :=
  readByte_sound.bind fun _ => (Sound.look _).bind fun _ =>
    Sound.iteB (Sound.raise _ _) (Sound.iteP (Sound.raise _ _)
      (Sound.change fun s h => live_data h s.freq _ s.treebits s.phase s.result s.clen s.cbits))

theorem live_ptr {s : State} (h : Live s) {t : HuffTree} (ht : s.tree = some t) (p : Bits)
    (hp : ∃ l r, nodeAt t p = some (.internal l r)) : Live { s with ptr := some p } :=
  live_tree h s.tree (some p) s.nnodes s.code s.tabValid s.draws h.rootInternal h.nodesCounted h.tableOfTree
    h.tableEmpty ⟨fun e => (nomatch e), fun e => by rw [ht] at e; cases e⟩
    (fun u q e e' => by rw [ht] at e; cases e; cases e'; exact hp)

theorem live_ptrRoot {s : State} (h : Live s) {t : HuffTree} (ht : s.tree = some t) :
    Live { s with ptr := some [] } := by
  obtain ⟨l, r, rfl⟩ := isInternal_eq (h.rootInternal t ht)
  exact live_ptr h ht [] ⟨l, r, nodeAt_nil _⟩

theorem writerBlind_tree : WriterBlind State.tree := by
  rintro s s' ⟨_, _, _, _, _, rfl, _⟩
  rfl

theorem decBit_sound (b : Bool) : Sound (decBit b) := by
  intro s h
  rcases decBit_cases b s with ⟨_, e⟩ | ⟨_, _, _, e⟩ | ⟨t, v, s1, ht, _, hk, e⟩ | ⟨_, v, c, s1, _, _, hk, e⟩ |
    ⟨t, l, r, ht, hc, e⟩
  · exact Sound.ofError e h.toHurt
  · exact Sound.ofError e h.toHurt
  · have hkt := writeByte_keeps writerBlind_tree v s
    rw [hk] at hkt
    exact Sound.ofOk e (live_ptrRoot ((writeByte_sound v s h).1 _ _ hk) (hkt.trans ht))
  · exact Sound.ofError e ((writeByte_sound v s h).2 _ _ hk)
  · cases hp : s.ptr with
    | none => rw [hp] at hc; cases hc
    | some p =>
      rw [hp] at hc e
      exact Sound.ofOk e (live_ptr h ht (p ++ [b]) ⟨l, r, hc⟩)

theorem decodeLoop_sound (n : Nat) : Sound (decodeLoop n) := by
  induction n with
  | zero => exact Sound.pure ()
  | succ n ih => exact readBit_sound.bind fun b => (decBit_sound b).bind fun _ => ih

theorem decodePayload_sound : Sound decodePayload := by
  intro s h
  rcases decodePayload_cases s with ⟨_, e⟩ | ⟨_, _, e⟩ | ⟨ht, _, e⟩
  · exact Sound.ofError e h.toHurt
  · exact Sound.ofError e h.toHurt
  · obtain ⟨t, ht⟩ := Option.ne_none_iff_exists'.1 ht
    rw [e]
    exact decodeLoop_sound _ _ (live_ptrRoot h ht)

theorem requireClosed_sound : Sound requireClosed := by
  intro s h
  rcases requireClosed_cases s with ⟨_, e⟩ | ⟨_, _, e⟩
  · exact Sound.ofError e h.toHurt
  · exact Sound.ofOk e h

theorem live_resetBlock (s : State) : Live (resetBlock s) :=
  { rootInternal := fun _ e => (nomatch e), nodesCounted := fun _ e => (nomatch e), cursorInside := fun e => by cases e
    encFits := Nat.zero_le _, tableOfTree := fun e => (nomatch e), tableEmpty := fun _ b => slotGet_emptyCode b
    ptrNone := ⟨fun _ => rfl, fun _ => rfl⟩, ptrInternal := fun _ _ e => by cases e
    closedWriterEmpty := fun _ => ⟨rfl, rfl⟩
    lowZero := fun k _ => by change (0#8).getLsbD k = false; simp
    noFault := ⟨rfl, rfl⟩, noQueue := rfl }

theorem live_closeBoth {s : State} (h : Live s) (hc : s.bwCnt = 0#3) (hb : s.bwBuf = 0#8) : Live (closeBoth s) :=
  live_handle (live_close h hc hb) false s.brEof s.inPos s.brBuf s.brAvail fun e => by cases e

theorem live_discardCall {s : State} (h : Live s) : Live (discardCall s) :=
  live_enc (live_noTree (live_data h emptyFreq s.pad s.treebits s.phase s.result s.clen s.cbits) s.nnodes s.draws) []
    (Nat.zero_le _)

theorem live_discardTree {s : State} (h : Live s) : Live (discardTree s) := live_noTree h s.nnodes s.draws

theorem setPhase_sound (p : Phase) : Sound (change (setPhase p)) := Sound.change fun _ h => live_setPhase h p

theorem bind_assoc_close {x : Micro Unit} {g k : State → State} (s : State) :
    (x >>= fun _ => change g >>= fun _ => change k) s = (x >>= fun _ => change fun s => k (g s)) s := by
  cases h : x s with
  | ok u s1 => rw [Micro.bind_ok h, Micro.bind_ok h]; rfl
  | error c s1 => rw [Micro.bind_error h, Micro.bind_error h]

theorem compressCall_sound : Sound compressCall := by
  refine requireClosed_sound.bind fun _ => (Sound.change fun s _ => live_resetBlock s).bind fun _ => ?_
  refine (setPhase_sound _).bind fun _ => openR_sound.bind fun _ => openW_sound.bind fun _ => ?_
  refine (setPhase_sound _).bind fun _ => tally_sound.bind fun _ => ?_
  refine (setPhase_sound _).bind fun _ => buildTree_sound.bind fun _ => ?_
  refine (setPhase_sound _).bind fun _ => mkTab_sound.bind fun _ => ?_
  refine (setPhase_sound _).bind fun _ => rewindR_sound.bind fun _ => encodeInput_sound.bind fun _ => ?_
  refine (setPhase_sound _).bind fun _ => serTree_sound.bind fun _ => ?_
  refine (setPhase_sound _).bind fun _ => wrPad_sound.bind fun _ => ?_
  refine (setPhase_sound _).bind fun _ => wrEnc_sound.bind fun _ => (setPhase_sound _).bind fun _ => ?_
  intro s h
  rw [bind_assoc_close]
  exact flushW_close_sound (fun s h hc hb => live_discardCall (live_closeBoth h hc hb)) s h

theorem decompressCall_sound : Sound decompressCall := by
  refine requireClosed_sound.bind fun _ => (Sound.change fun s _ => live_resetBlock s).bind fun _ => ?_
  refine (setPhase_sound _).bind fun _ => openR_sound.bind fun _ => openW_sound.bind fun _ => ?_
  refine (setPhase_sound _).bind fun _ => desTree_sound.bind fun _ => ?_
  refine (setPhase_sound _).bind fun _ => rdPad_sound.bind fun _ => ?_
  refine (setPhase_sound _).bind fun _ => decodePayload_sound.bind fun _ => (setPhase_sound _).bind fun _ => ?_
  intro s h
  rw [bind_assoc_close]
  exact flushW_close_sound (fun s h hc hb => live_discardTree (live_closeBoth h hc hb)) s h

/-- A command with a sound body keeps the invariants, fault or not (R44). -/
theorem runCommand_inv {i : Instr} {body : Micro Unit} (hb : Sound body) {s t : State} (hi : Inv s) (h0 : s.err = 0#4)
    (h : runCommand i body s = .next t) : Inv t := by
  have hk := hb _ (hi.live h0 (phaseOf i))
  rcases runCommand_cases i body s with ⟨s', e, e'⟩ | ⟨c, s', e, e'⟩ <;> rw [e'] at h <;> cases h
  · exact (hk.1 _ _ e).inv
  · exact (hk.2 _ _ e).inv _ _

end Sys2Proof.Machine
end

