-- ==== Sys2Proof/Laws/Commands.lean ====
section
/-! SUPPORT. Every command is its body run in the one frame of R122; what that gives for all commands at once. -/

namespace Sys2Proof.Machine

/-- The rule of each command, without the frame. -/
def bodyOf : Instr → Micro Unit
  | .nop => pure ()
  | .init => change faultReturn
  | .openw => openW
  | .wrbit a => writeBit (bitOperand a)
  | .wrbyte a => writeByte a
  | .pending => change fun s => setResult (s.bwCnt.setWidth 32) s
  | .closew => closeW
  | .openr => openR
  | .rdbit => readBit >>= fun b => change (setResult (zextBit b))
  | .rdbyte => readByte >>= fun v => change (setResult (v.setWidth 32))
  | .iseof => change fun s => setResult (zextBit s.brEof) s
  | .closer => closeR
  | .rewind => rewindR
  | .fclr => change fun s => { s with freq := emptyFreq }
  | .fadd a n => freqAdd a (countOperand n)
  | .fread a => change fun s => setResult (slotGet s.freq a) s
  | .tally => tally
  | .build => buildTree
  | .mktab => mkTab
  | .lookup a =>
    lookupCode a >>= fun c => change fun s =>
      { s with clen := BitVec.ofNat 8 c.length, cbits := codewordValue c, result := BitVec.ofNat 32 c.length }
  | .encsym a => encSym a
  | .encode => encodeInput
  | .sertree => serTree
  | .destree => desTree
  | .wrpad => wrPad
  | .wrenc => wrEnc
  | .compress => compressCall
  | .rdpad => rdPad
  | .decbit a =>
    decBit (bitOperand a) >>= fun x => change (setResult ((BitVec.ofBool x.1 ++ x.2).setWidth 32))
  | .decode => decodePayload
  | .decompress => decompressCall

theorem exec_eq (i : Instr) (s : State) : exec i s = runCommand i (bodyOf i) s := by
  cases i <;> rfl

theorem exec_ok {i : Instr} {s s' : State} (h : bodyOf i (setPhase (phaseOf i) s) = .ok () s') :
    exec i s = .next (setPhase .idle s') := by
  rw [exec_eq]; exact runCommand_ok h

theorem exec_error {i : Instr} {c : Cause} {s s' : State} (h : bodyOf i (setPhase (phaseOf i) s) = .error c s') :
    exec i s = .next (faultEntry (opcode i) c s') := by
  rw [exec_eq]; exact runCommand_error h

/-- Every body keeps the invariants (R44). -/
theorem bodyOf_sound (i : Instr) : Sound (bodyOf i) := by
  cases i with
  | nop => exact Sound.pure ()
  | init => exact Sound.change fun s _ => live_resetBlock s
  | openw => exact openW_sound
  | wrbit a => exact writeBit_sound _
  | wrbyte a => exact writeByte_sound _
  | pending => exact Sound.change fun s h => live_setResult h _
  | closew => exact closeW_sound
  | openr => exact openR_sound
  | rdbit => exact readBit_sound.bind fun b => Sound.change fun s h => live_setResult h _
  | rdbyte => exact readByte_sound.bind fun b => Sound.change fun s h => live_setResult h _
  | iseof => exact Sound.change fun s h => live_setResult h _
  | closer => exact closeR_sound
  | rewind => exact rewindR_sound
  | fclr => exact Sound.change fun s h => live_data h emptyFreq s.pad s.treebits s.phase s.result s.clen s.cbits
  | fadd a n => exact freqAdd_sound _ _
  | fread a => exact Sound.change fun s h => live_setResult h _
  | tally => exact tally_sound
  | build => exact buildTree_sound
  | mktab => exact mkTab_sound
  | lookup a =>
    exact (lookupCode_sound a).bind fun c => Sound.change fun s h => live_data h s.freq s.pad s.treebits s.phase _ _ _
  | encsym a => exact encSym_sound _
  | encode => exact encodeInput_sound
  | sertree => exact serTree_sound
  | destree => exact desTree_sound
  | wrpad => exact wrPad_sound
  | wrenc => exact wrEnc_sound
  | compress => exact compressCall_sound
  | rdpad => exact rdPad_sound
  | decbit a => exact (decBit_sound _).bind fun x => Sound.change fun s h => live_setResult h _
  | decode => exact decodePayload_sound
  | decompress => exact decompressCall_sound

/-! ## What a command leaves alone -/

/-- A view of the state that does not see what a command's rule lets it write (the lists of Safety.lean) is kept by the
command's body, fault or not. The commands that reset the block are left out: they write everything. -/
theorem bodyOf_keeps {γ : Type} {f : State → γ} (i : Instr) (h0 : opcode i ∉ resetters)
    (hr : opcode i ∈ usersOfReader → ReaderBlind f ∧
      ∀ s o p u a e, f { s with inOpen := o, inPos := p, brBuf := u, brAvail := a, brEof := e } = f s)
    (hw : opcode i ∈ usersOfWriter → WriterBlind f ∧
      ∀ s o st u c, f { s with outOpen := o, outStore := st, bwBuf := u, bwCnt := c } = f s)
    (hres : opcode i ∈ writersOfResult → ∀ s v, f { s with result := v } = f s)
    (hcode : opcode i ∈ writersOfCodeword → ∀ s l v, f { s with clen := l, cbits := v } = f s)
    (hpad : opcode i ∈ writersOfPad → ∀ s p, f { s with pad := p } = f s)
    (hbits : opcode i ∈ writersOfTreebits → ∀ s n, f { s with treebits := n } = f s)
    (htree : opcode i ∈ writersOfTree → ∀ s t n q d, f { s with tree := t, nnodes := n, pq := q, draws := d } = f s)
    (hptr : opcode i ∈ writersOfPtr → ∀ s p, f { s with ptr := p } = f s)
    (hfreq : opcode i ∈ writersOfFreq → ∀ s q, f { s with freq := q } = f s)
    (htab : opcode i ∈ writersOfTable → ∀ s c v, f { s with code := c, tabValid := v } = f s)
    (henc : opcode i ∈ writersOfEnc → ∀ s c, f { s with enc := c } = f s) : Keeps f (bodyOf i) := by
  cases i with
  | nop => exact Keeps.pure f ()
  | init => exact absurd (by decide) h0
  | openw =>
    have h := (hw (by decide)).2
    exact openW_keeps fun s _ _ _ _ => h s _ _ _ _
  | wrbit a => exact writeBit_keeps (hw (by simp [opcode, usersOfWriter])).1 _
  | wrbyte a => exact writeByte_keeps (hw (by simp [opcode, usersOfWriter])).1 _
  | pending => exact Keeps.change fun s => hres (by decide) s _
  | closew =>
    have h := hw (by decide)
    exact closeW_keeps h.1 fun s _ => h.2 s _ s.outStore s.bwBuf s.bwCnt
  | openr =>
    have h := (hr (by decide)).2
    exact openR_keeps fun s _ => h s _ _ _ _ _
  | rdbit => exact (readBit_keeps (hr (by decide)).1).bind fun b => Keeps.change fun s => hres (by decide) s _
  | rdbyte => exact (readByte_keeps (hr (by decide)).1).bind fun v => Keeps.change fun s => hres (by decide) s _
  | iseof => exact Keeps.change fun s => hres (by decide) s _
  | closer =>
    have h := (hr (by decide)).2
    exact closeR_keeps fun s _ => h s _ s.inPos s.brBuf s.brAvail s.brEof
  | rewind =>
    have h := (hr (by decide)).2
    exact rewindR_keeps fun s => h s s.inOpen _ _ _ _
  | fclr => exact Keeps.change fun s => hfreq (by decide) s _
  | fadd a n => exact freqAdd_keeps (hfreq (by simp [opcode, writersOfFreq])) _ _
  | fread a => exact Keeps.change fun s => hres (by simp [opcode, writersOfResult]) s _
  | tally => exact tally_keeps (hr (by decide)).1 (hfreq (by decide))
  | build =>
    refine buildTree_keeps fun s t p n c v q d => ?_
    refine (htab (by decide) { s with tree := t, ptr := p, nnodes := n, pq := q, draws := d } c v).trans ?_
    exact (hptr (by decide) { s with tree := t, nnodes := n, pq := q, draws := d } p).trans
      (htree (by decide) s t n q d)
  | mktab => exact mkTab_keeps (htab (by decide))
  | lookup a =>
    refine (lookupCode_keeps a).bind fun c => Keeps.change fun s => ?_
    have h1 := hcode (by simp [opcode, writersOfCodeword]) s (BitVec.ofNat 8 c.length) (codewordValue c)
    exact (hres (by simp [opcode, writersOfResult]) { s with clen := _, cbits := _ } (BitVec.ofNat 32 c.length)).trans h1
  | encsym a => exact encSym_keeps (henc (by simp [opcode, writersOfEnc])) a
  | encode => exact encodeInput_keeps (hr (by decide)).1 (henc (by decide))
  | sertree => exact serTree_keeps (hw (by decide)).1 (hbits (by decide))
  | destree =>
    refine desTree_keeps (hr (by decide)).1 fun s t p n c v => ?_
    refine (htab (by decide) { s with tree := t, ptr := p, nnodes := n } c v).trans ?_
    exact (hptr (by decide) { s with tree := t, nnodes := n } p).trans (htree (by decide) s t n s.pq s.draws)
  | wrpad => exact wrPad_keeps (hw (by decide)).1 (hpad (by decide))
  | wrenc => exact wrEnc_keeps (hw (by decide)).1
  | compress => exact absurd (by decide) h0
  | rdpad => exact rdPad_keeps (hr (by decide)).1 (hpad (by decide))
  | decbit a =>
    exact (decBit_keeps (hw (by simp [opcode, usersOfWriter])).1 (hptr (by simp [opcode, writersOfPtr])) _).bind
      fun x => Keeps.change fun s => hres (by simp [opcode, writersOfResult]) s _
  | decode => exact decodePayload_keeps (hr (by decide)).1 (hw (by decide)).1 (hptr (by decide))
  | decompress => exact absurd (by decide) h0

/-! ## What a command does to a relation between states -/

/-- The single updates of which every command is made, each within the relation `R`. -/
structure Updates (R : State → State → Prop) : Prop where
  refl : ∀ s, R s s
  trans : ∀ a b c, R a b → R b c → R a c
  reader : ∀ s t, ReaderOnly s t → R s t
  writer : ∀ s t, WriterOnly s t → R s t
  openW : ∀ s, R s { s with
    outStore := { s.outStore with data := [] }, outOpen := true, bwBuf := 0#8, bwCnt := 0#3 }
  openR : ∀ s, R s { s with inOpen := true, inPos := 0#32, brBuf := 0#8, brAvail := 0, brEof := false }
  rewind : ∀ s, R s { s with inPos := 0#32, brBuf := 0#8, brAvail := 0, brEof := false }
  closeR : ∀ s, R s { s with inOpen := false }
  closeW : ∀ s, R s { s with outOpen := false }
  reset : ∀ s, R s (resetBlock s)
  phase : ∀ s p, R s { s with phase := p }
  results : ∀ s r l v, R s { s with result := r, clen := l, cbits := v }
  counters : ∀ s p n, R s { s with pad := p, treebits := n }
  freq : ∀ s q, R s { s with freq := q }
  enc : ∀ s c, R s { s with enc := c }
  table : ∀ s c v, R s { s with code := c, tabValid := v }
  ptr : ∀ s p, R s { s with ptr := p }
  tree : ∀ s t p n c v, R s { s with tree := t, ptr := p, nnodes := n, code := c, tabValid := v }
  build : ∀ s t p n c v d,
    R s { s with tree := t, ptr := p, nnodes := n, code := c, tabValid := v, pq := [], draws := d }

namespace Updates

variable {R : State → State → Prop} {α β : Type}

theorem bind (u : Updates R) {x : Micro α} {g : α → Micro β} (hx : Always R x) (hg : ∀ a, Always R (g a)) :
    Always R (x >>= g) := Always.bind u.trans hx hg

theorem pure (u : Updates R) (a : α) : Always R (pure a : Micro α) := Always.pure u.refl a

theorem look (u : Updates R) (f : State → α) : Always R (look f) := Always.look u.refl f

theorem raise (u : Updates R) (sub : Sub) (d : Byte) : Always R (raiseErr sub d : Micro α) :=
  Always.raiseErr u.refl sub d

theorem iteB (u : Updates R) {b : Bool} {x y : Micro α} (hx : Always R x) (hy : Always R y) :
    Always R (if b then x else y) := by
  have _ := u
  cases b
  · exact hy
  · exact hx

theorem readByte (u : Updates R) : Always R readByte := fun s => u.reader _ _ (readByte_always s)

theorem tally (u : Updates R) : Always R tally := by
  have hf : ∀ b n, Always R (freqAdd b n) := by
    intro b n s
    rcases freqAdd_cases b n s with ⟨_, e, _⟩ | ⟨_, e⟩ <;> rw [e]
    · exact u.freq s _
    · exact u.refl s
  have hl : ∀ n, Always R (tallyLoop n) := by
    intro n
    induction n with
    | zero => exact u.refl
    | succ n ih =>
      exact u.bind u.readByte fun v => u.bind u.refl fun eof => u.iteB u.refl (u.bind (hf v 1#32) fun _ => ih)
  exact fun s => hl _ s

theorem buildTree (u : Updates R) : Always R buildTree := by
  intro s
  rcases buildTree_cases s with ⟨_, d, e⟩ | ⟨b, d, _, e⟩ | ⟨_, t, d, _, _, e⟩ <;> rw [e] <;> exact u.build s _ _ _ _ _ _

theorem mkTab (u : Updates R) : Always R mkTab := by
  intro s
  rcases mkTab_cases s with ⟨_, e⟩ | ⟨_, _, _, _, _, e⟩ | ⟨_, _, _, _, _, e⟩ <;> rw [e]
  · exact u.refl s
  · exact u.table s _ _
  · exact u.table s _ _

theorem encSym (u : Updates R) (v : Byte) : Always R (encSym v) := by
  intro s
  rcases encSym_cases v s with ⟨_, e⟩ | ⟨_, _, _, e⟩ | ⟨_, _, _, e⟩ <;> rw [e]
  · exact u.refl s
  · exact u.refl s
  · exact u.enc s _

theorem encodeInput (u : Updates R) : Always R encodeInput := by
  have hl : ∀ n, Always R (encodeLoop n) := by
    intro n
    induction n with
    | zero => exact u.refl
    | succ n ih =>
      exact u.bind u.readByte fun v => u.bind u.refl fun eof => u.iteB u.refl (u.bind (u.encSym v) fun _ => ih)
  exact fun s => hl _ s

theorem serTree (u : Updates R) : Always R serTree := by
  intro s
  rcases serTree_cases s with ⟨_, e⟩ | ⟨t, s1, _, hk, e⟩ | ⟨t, c, s1, _, hk, e⟩ <;> rw [e]
  · exact u.refl s
  · have := u.writer _ _ (writeBits_always (ser t) s)
    rw [hk] at this
    exact u.trans _ _ _ this (u.counters s1 s1.pad _)
  · have := u.writer _ _ (writeBits_always (ser t) s)
    rw [hk] at this
    exact this

theorem desTree (u : Updates R) : Always R desTree := by
  have hc : Always R countNode := by
    intro s
    rcases countNode_cases s with ⟨_, e⟩ | ⟨_, e, _⟩ <;> rw [e]
    · exact u.refl s
    · exact u.tree s s.tree s.ptr _ s.code s.tabValid
  have hg : ∀ n, Always R (getTree n) := by
    intro n
    induction n with
    | zero => exact u.refl
    | succ n ih =>
      intro s
      rw [getTree_succ]
      exact (u.bind (fun s => u.reader _ _ (readBit_always s)) fun t => u.bind (u.look _) fun eof =>
        u.iteB (u.raise _ _) (u.bind hc fun _ => u.iteB
          (u.bind u.readByte fun v => u.bind (u.look _) fun eof' => u.iteB (u.raise _ _) (u.pure _))
          (u.bind ih fun l => u.bind ih fun r => u.pure _))) s
  refine u.bind (fun s => u.tree s none none 0#9 emptyCode false) fun _ => u.bind (hg _) fun r => ?_
  exact u.iteB (fun s => u.tree s (some r) (some []) s.nnodes s.code s.tabValid) u.refl

theorem wrPad (u : Updates R) : Always R wrPad :=
  u.bind u.refl fun _ => u.bind (fun s => u.counters s _ s.treebits) fun _ s => u.writer _ _ (writeByte_always _ s)

theorem wrEnc (u : Updates R) : Always R wrEnc := fun s => u.writer _ _ (writeBits_always s.enc s)

theorem rdPad (u : Updates R) : Always R rdPad := by
  refine u.bind u.readByte fun v => u.bind u.refl fun eof => u.iteB u.refl ?_
  by_cases hv : 7 < v.toNat
  · rw [if_pos hv]; exact u.refl
  · rw [if_neg hv]; exact fun s => u.counters s _ s.treebits

theorem decBit (u : Updates R) (b : Bool) : Always R (decBit b) := by
  intro s
  rcases decBit_cases b s with ⟨_, e⟩ | ⟨_, _, _, e⟩ | ⟨_, v, s1, _, _, hk, e⟩ | ⟨_, v, c, s1, _, _, hk, e⟩ |
    ⟨_, _, _, _, _, e⟩ <;> rw [e]
  · exact u.refl s
  · exact u.refl s
  · have := u.writer _ _ (writeByte_always v s)
    rw [hk] at this
    exact u.trans _ _ _ this (u.ptr s1 _)
  · have := u.writer _ _ (writeByte_always v s)
    rw [hk] at this
    exact this
  · exact u.ptr s _

theorem decodePayload (u : Updates R) : Always R decodePayload := by
  have hl : ∀ n, Always R (decodeLoop n) := by
    intro n
    induction n with
    | zero => exact u.refl
    | succ n ih => exact u.bind (fun s => u.reader _ _ (readBit_always s)) fun b => u.bind (u.decBit b) fun _ => ih
  intro s
  rcases decodePayload_cases s with ⟨_, e⟩ | ⟨_, _, e⟩ | ⟨_, _, e⟩ <;> rw [e]
  · exact u.refl s
  · exact u.refl s
  · exact u.trans _ _ _ (u.ptr s _) (hl _ { s with ptr := some [] })

theorem flushW (u : Updates R) : Always R flushW := fun s => u.writer _ _ (flushW_always s)

theorem openWBody (u : Updates R) : Always R Machine.openW := by
  intro s
  rcases openW_cases s with ⟨_, e⟩ | ⟨_, _, e⟩ | ⟨_, _, e⟩ <;> rw [e]
  · exact u.refl s
  · exact u.refl s
  · exact u.openW s

theorem openRBody (u : Updates R) : Always R Machine.openR := by
  intro s
  rcases openR_cases s with ⟨_, e⟩ | ⟨_, _, e⟩ | ⟨_, _, _, e⟩ | ⟨_, _, _, e⟩ <;> rw [e]
  · exact u.refl s
  · exact u.refl s
  · exact u.refl s
  · exact u.openR s

theorem closeWBody (u : Updates R) : Always R Machine.closeW := by
  intro s
  have hf := u.flushW s
  rcases closeW_cases s with ⟨_, e⟩ | ⟨s1, _, hk, e⟩ | ⟨c, s1, _, hk, e⟩ <;> rw [e]
  · exact u.refl s
  · rw [hk] at hf
    exact u.trans _ _ _ hf (u.closeW s1)
  · rw [hk] at hf
    exact hf

theorem closeRBody (u : Updates R) : Always R Machine.closeR := by
  intro s
  rcases closeR_cases s with ⟨_, e⟩ | ⟨_, e⟩ <;> rw [e]
  · exact u.refl s
  · exact u.closeR s

theorem rewindRBody (u : Updates R) : Always R rewindR := by
  intro s
  rcases rewindR_cases s with ⟨_, e⟩ | ⟨_, e⟩ <;> rw [e]
  · exact u.refl s
  · exact u.rewind s

theorem requireClosed (u : Updates R) : Always R requireClosed := by
  intro s
  rcases requireClosed_cases s with ⟨_, e⟩ | ⟨_, _, e⟩ <;> rw [e] <;> exact u.refl s

theorem closeBoth (u : Updates R) (s : State) : R s (closeBoth s) :=
  u.trans _ _ _ (u.closeW s) (u.closeR _)

/-- Whatever way a command's body ends, its end state stands in relation `R` to its start state. -/
theorem body (u : Updates R) (i : Instr) : Always R (bodyOf i) := by
  have res : ∀ f : State → Word, Always R (change fun s => setResult (f s) s) :=
    fun f s => u.results s (f s) s.clen s.cbits
  cases i with
  | nop => exact u.refl
  | init => exact u.reset
  | openw => exact u.openWBody
  | wrbit a => exact fun s => u.writer _ _ (writeBit_always _ s)
  | wrbyte a => exact fun s => u.writer _ _ (writeByte_always a s)
  | pending => exact res _
  | closew => exact u.closeWBody
  | openr => exact u.openRBody
  | rdbit => exact u.bind (fun s => u.reader _ _ (readBit_always s)) fun b => res fun _ => zextBit b
  | rdbyte => exact u.bind u.readByte fun v => res fun _ => v.setWidth 32
  | iseof => exact res _
  | closer => exact u.closeRBody
  | rewind => exact u.rewindRBody
  | fclr => exact fun s => u.freq s _
  | fadd a n =>
    intro s
    rcases freqAdd_cases a (countOperand n) s with ⟨_, e, _⟩ | ⟨_, e⟩ <;> rw [bodyOf, e]
    · exact u.freq s _
    · exact u.refl s
  | fread a => exact res _
  | tally => exact u.tally
  | build => exact u.buildTree
  | mktab => exact u.mkTab
  | lookup a =>
    refine u.bind (fun s => ?_) fun c s => u.results s _ _ _
    rcases lookupCode_cases a s with ⟨_, e⟩ | ⟨_, _, e⟩ <;> rw [e] <;> exact u.refl s
  | encsym a => exact u.encSym a
  | encode => exact u.encodeInput
  | sertree => exact u.serTree
  | destree => exact u.desTree
  | wrpad => exact u.wrPad
  | wrenc => exact u.wrEnc
  | compress =>
    refine compressCall_always u.trans u.requireClosed u.reset u.phase u.openRBody u.openWBody u.tally u.buildTree
      u.mkTab u.rewindRBody u.encodeInput u.serTree u.wrPad u.wrEnc u.flushW u.closeBoth fun s => ?_
    refine u.trans _ _ _ (u.tree s none none s.nnodes emptyCode false) ?_
    exact u.trans _ _ _ (u.enc { s with tree := none, ptr := none, code := emptyCode, tabValid := false } [])
      (u.freq _ emptyFreq)
  | rdpad => exact u.rdPad
  | decbit a => exact u.bind (u.decBit _) fun x => res fun _ => _
  | decode => exact u.decodePayload
  | decompress =>
    exact decompressCall_always u.trans u.requireClosed u.reset u.phase u.openRBody u.openWBody u.desTree u.rdPad
      u.decodePayload u.flushW u.closeBoth fun s => u.tree s none none s.nnodes emptyCode false

/-- The same through the frame of R122: the command ends well, or takes its fault. -/
theorem command (u : Updates R) (hf : ∀ op c s, R s (faultEntry op c s)) {i : Instr} {s t : State}
    (h : exec i s = .next t) : R s t := by
  rw [exec_eq] at h
  have hb := u.body i (setPhase (phaseOf i) s)
  have hs := u.trans _ _ _ (u.phase s (phaseOf i)) hb
  rcases runCommand_cases i (bodyOf i) s with ⟨s', e, e'⟩ | ⟨c, s', e, e'⟩ <;> rw [e'] at h <;> cases h <;> rw [e] at hs
  · exact u.trans _ _ _ hs (u.phase s' .idle)
  · exact u.trans _ _ _ hs (hf _ _ _)

end Updates

/-! ## Which causes an operation can raise (R258) -/

variable {α β : Type}

/-- Every cause `x` raises satisfies `P`. -/
def Raises (P : Cause → Prop) (x : Micro α) : Prop := ∀ s c s', x s = .error c s' → P c

variable {P : Cause → Prop}

theorem Raises.bind {x : Micro α} {g : α → Micro β} (hx : Raises P x) (hg : ∀ a, Raises P (g a)) :
    Raises P (x >>= g) := by
  intro s c s'' e
  rcases Micro.bind_error_inv e with h1 | ⟨a, s', _, h2⟩
  · exact hx s c s'' h1
  · exact hg a s' c s'' h2

theorem Raises.pure (a : α) : Raises P (pure a : Micro α) := fun _ _ _ e => by cases e

theorem Raises.look (g : State → α) : Raises P (look g) := fun _ _ _ e => by cases e

theorem Raises.change (g : State → State) : Raises P (change g) := fun _ _ _ e => by cases e

theorem Raises.raise {sub : Sub} {d : Byte} (h : P ⟨sub, d⟩) : Raises P (raiseErr sub d : Micro α) :=
  fun _ _ _ e => by cases e; exact h

theorem Raises.iteB {b : Bool} {x y : Micro α} (hx : Raises P x) (hy : Raises P y) : Raises P (if b then x else y) := by
  cases b
  · exact hy
  · exact hx

theorem Raises.iteP {p : Prop} [Decidable p] {x y : Micro α} (hx : Raises P x) (hy : Raises P y) :
    Raises P (if p then x else y) := by
  by_cases hp : p
  · rw [if_pos hp]; exact hx
  · rw [if_neg hp]; exact hy

theorem writeBit_raises (h1 : P ⟨.outClosed, 0#8⟩) (h2 : P ⟨.outBroken, 0#8⟩) (b : Bool) : Raises P (writeBit b) := by
  intro s c s' e
  rcases writeBit_cases b s with ⟨_, k⟩ | ⟨_, _, k⟩ | ⟨_, _, _, k⟩ | ⟨_, _, _, k⟩ <;> rw [k] at e <;> cases e
  · exact h1
  · exact h2

theorem writeBits_raises (h1 : P ⟨.outClosed, 0#8⟩) (h2 : P ⟨.outBroken, 0#8⟩) (bs : Bits) : Raises P (writeBits bs) := by
  induction bs with
  | nil => exact Raises.pure ()
  | cons b bs ih => exact (writeBit_raises h1 h2 b).bind fun _ => ih

theorem flushW_raises (h2 : P ⟨.outBroken, 0#8⟩) : Raises P flushW := by
  intro s c s' e
  rcases flushW_cases s with ⟨_, k⟩ | ⟨_, _, k⟩ | ⟨_, _, k⟩ <;> rw [k] at e <;> cases e
  exact h2

theorem readBit_raises (h1 : P ⟨.inClosed, 0#8⟩) (h2 : P ⟨.inBroken, 0#8⟩) : Raises P readBit := by
  intro s c s' e
  rcases readBit_cases s with ⟨_, k⟩ | ⟨_, _, _, k⟩ | ⟨_, _, _, _, k⟩ | ⟨_, _, _, _, k⟩ | ⟨_, _, k⟩ <;> rw [k] at e <;>
    cases e
  · exact h1
  · exact h2

theorem readBits_raises (h1 : P ⟨.inClosed, 0#8⟩) (h2 : P ⟨.inBroken, 0#8⟩) (n : Nat) : Raises P (readBits n) := by
  induction n with
  | zero => exact Raises.pure _
  | succ n ih => exact (readBit_raises h1 h2).bind fun _ => ih.bind fun _ => Raises.pure _

theorem readByte_raises (h1 : P ⟨.inClosed, 0#8⟩) (h2 : P ⟨.inBroken, 0#8⟩) : Raises P readByte :=
  (readBits_raises h1 h2 8).bind fun _ => Raises.pure _

theorem freqAdd_raises (h : ∀ b, P ⟨.freqOverflow, b⟩) (b : Byte) (n : Word) : Raises P (freqAdd b n) := by
  intro s c s' e
  rcases freqAdd_cases b n s with ⟨_, k, _⟩ | ⟨_, k⟩ <;> rw [k] at e <;> cases e
  exact h b

theorem tally_raises (h1 : P ⟨.inClosed, 0#8⟩) (h2 : P ⟨.inBroken, 0#8⟩) (h : ∀ b, P ⟨.freqOverflow, b⟩) :
    Raises P tally := by
  have : ∀ n, Raises P (tallyLoop n) := by
    intro n
    induction n with
    | zero => exact Raises.pure ()
    | succ n ih =>
      exact (readByte_raises h1 h2).bind fun v => (Raises.look _).bind fun _ =>
        Raises.iteB (Raises.pure ()) ((freqAdd_raises h v 1#32).bind fun _ => ih)
  exact fun s => this (readTurns s) s

theorem encSym_raises (h : ∀ b, P ⟨.noEntry, b⟩) (h' : P ⟨.encFull, 0#8⟩) (v : Byte) : Raises P (encSym v) := by
  intro s c s' e
  rcases encSym_cases v s with ⟨_, k⟩ | ⟨_, _, _, k⟩ | ⟨_, _, _, k⟩ <;> rw [k] at e <;> cases e
  · exact h v
  · exact h'

theorem encodeInput_raises (h1 : P ⟨.inClosed, 0#8⟩) (h2 : P ⟨.inBroken, 0#8⟩) (h : ∀ b, P ⟨.noEntry, b⟩)
    (h' : P ⟨.encFull, 0#8⟩) : Raises P encodeInput := by
  have : ∀ n, Raises P (encodeLoop n) := by
    intro n
    induction n with
    | zero => exact Raises.pure ()
    | succ n ih =>
      exact (readByte_raises h1 h2).bind fun v => (Raises.look _).bind fun _ =>
        Raises.iteB (Raises.pure ()) ((encSym_raises h h' v).bind fun _ => ih)
  exact fun s => this (readTurns s) s

theorem buildTree_raises (h : P ⟨.noSymbol, 0#8⟩) : Raises P buildTree := by
  intro s c s' e
  rcases buildTree_cases s with ⟨_, _, k⟩ | ⟨_, _, _, k⟩ | ⟨_, _, _, _, _, k⟩ <;> rw [k] at e <;> cases e
  exact h

theorem mkTab_raises (h1 : P ⟨.noTree, 0#8⟩) (h2 : ∀ v, P ⟨.dupLeaf, v⟩) : Raises P mkTab := by
  intro s c s' e
  rcases mkTab_cases s with ⟨_, k⟩ | ⟨_, v, _, _, _, k⟩ | ⟨_, _, _, _, _, k⟩ <;> rw [k] at e <;> cases e
  · exact h1
  · exact h2 v

theorem serTree_raises (h0 : P ⟨.noTree, 0#8⟩) (h1 : P ⟨.outClosed, 0#8⟩) (h2 : P ⟨.outBroken, 0#8⟩) :
    Raises P serTree := by
  intro s c s' e
  rcases serTree_cases s with ⟨_, k⟩ | ⟨_, _, _, _, k⟩ | ⟨t, c', s1, _, hw, k⟩ <;> rw [k] at e <;> cases e
  · exact h0
  · exact writeBits_raises h1 h2 _ _ _ _ hw

theorem desTree_raises (h1 : P ⟨.inClosed, 0#8⟩) (h2 : P ⟨.inBroken, 0#8⟩) (h3 : P ⟨.eofTag, 0#8⟩)
    (h4 : P ⟨.treeTooBig, 0#8⟩) (h5 : P ⟨.eofByte, 0#8⟩) (h6 : P ⟨.rootLeaf, 0#8⟩) : Raises P desTree := by
  have hc : Raises P countNode := by
    intro s c s' e
    rcases countNode_cases s with ⟨_, k⟩ | ⟨_, k, _⟩ <;> rw [k] at e <;> cases e
    exact h4
  have hg : ∀ n, Raises P (getTree n) := by
    intro n
    induction n with
    | zero => exact Raises.raise h4
    | succ n ih =>
      intro s
      rw [getTree_succ]
      exact ((readBit_raises h1 h2).bind fun t => (Raises.look _).bind fun _ =>
        Raises.iteB (Raises.raise h3) (hc.bind fun _ => Raises.iteB
          ((readByte_raises h1 h2).bind fun v => (Raises.look _).bind fun _ =>
            Raises.iteB (Raises.raise h5) (Raises.pure _))
          (ih.bind fun l => ih.bind fun r => Raises.pure _))) s
  exact (Raises.change _).bind fun _ => (hg _).bind fun r => Raises.iteB (Raises.change _) (Raises.raise h6)

theorem rdPad_raises (h1 : P ⟨.inClosed, 0#8⟩) (h2 : P ⟨.inBroken, 0#8⟩) (h3 : P ⟨.eofPad, 0#8⟩)
    (h4 : ∀ v, P ⟨.padRange, v⟩) : Raises P rdPad :=
  (readByte_raises h1 h2).bind fun v => (Raises.look _).bind fun _ =>
    Raises.iteB (Raises.raise h3) (Raises.iteP (Raises.raise (h4 v)) (Raises.change _))

theorem decBit_raises (h0 : P ⟨.noTree, 0#8⟩) (hc : P ⟨.noChild, 0#8⟩) (h1 : P ⟨.outClosed, 0#8⟩)
    (h2 : P ⟨.outBroken, 0#8⟩) (b : Bool) : Raises P (decBit b) := by
  intro s c s' e
  rcases decBit_cases b s with ⟨_, k⟩ | ⟨_, _, _, k⟩ | ⟨_, _, _, _, _, _, k⟩ | ⟨_, v, c', s1, _, _, hw, k⟩ |
    ⟨_, _, _, _, _, k⟩ <;> rw [k] at e <;> cases e
  · exact h0
  · exact hc
  · exact writeBits_raises h1 h2 _ _ _ _ hw

theorem decodePayload_raises (h0 : P ⟨.noTree, 0#8⟩) (hc : P ⟨.noChild, 0#8⟩) (h1 : P ⟨.outClosed, 0#8⟩)
    (h2 : P ⟨.outBroken, 0#8⟩) (h3 : P ⟨.inClosed, 0#8⟩) (h4 : P ⟨.inBroken, 0#8⟩) : Raises P decodePayload := by
  have hl : ∀ n, Raises P (decodeLoop n) := by
    intro n
    induction n with
    | zero => exact Raises.pure ()
    | succ n ih => exact (readBit_raises h3 h4).bind fun b => (decBit_raises h0 hc h1 h2 b).bind fun _ => ih
  intro s c s' e
  rcases decodePayload_cases s with ⟨_, k⟩ | ⟨_, _, k⟩ | ⟨_, _, k⟩ <;> rw [k] at e
  · cases e; exact h0
  · cases e; exact h3
  · exact hl _ _ _ _ e

theorem openW_raises (h1 : P ⟨.alreadyOpen, 0#8⟩) (h2 : P ⟨.outOpenFail, 0#8⟩) : Raises P openW := by
  intro s c s' e
  rcases openW_cases s with ⟨_, k⟩ | ⟨_, _, k⟩ | ⟨_, _, k⟩ <;> rw [k] at e <;> cases e
  · exact h1
  · exact h2

theorem openR_raises (h1 : P ⟨.alreadyOpen, 0#8⟩) (h2 : P ⟨.inOpenFail, 0#8⟩) (h3 : P ⟨.inTooLong, 0#8⟩) :
    Raises P openR := by
  intro s c s' e
  rcases openR_cases s with ⟨_, k⟩ | ⟨_, _, k⟩ | ⟨_, _, _, k⟩ | ⟨_, _, _, k⟩ <;> rw [k] at e <;> cases e
  · exact h1
  · exact h2
  · exact h3

theorem closeW_raises (h1 : P ⟨.outClosed, 0#8⟩) (h2 : P ⟨.outBroken, 0#8⟩) : Raises P closeW := by
  intro s c s' e
  rcases closeW_cases s with ⟨_, k⟩ | ⟨_, _, _, k⟩ | ⟨c', s1, _, hf, k⟩ <;> rw [k] at e <;> cases e
  · exact h1
  · exact flushW_raises h2 _ _ _ hf

theorem rewindR_raises (h1 : P ⟨.inClosed, 0#8⟩) : Raises P rewindR := by
  intro s c s' e
  rcases rewindR_cases s with ⟨_, k⟩ | ⟨_, k⟩ <;> rw [k] at e <;> cases e
  exact h1

theorem closeR_raises (h1 : P ⟨.inClosed, 0#8⟩) : Raises P closeR := by
  intro s c s' e
  rcases closeR_cases s with ⟨_, k⟩ | ⟨_, k⟩ <;> rw [k] at e <;> cases e
  exact h1

theorem requireClosed_raises (h1 : P ⟨.alreadyOpen, 0#8⟩) : Raises P requireClosed := by
  intro s c s' e
  rcases requireClosed_cases s with ⟨_, k⟩ | ⟨_, _, k⟩ <;> rw [k] at e <;> cases e
  exact h1

theorem lookupCode_raises (h : ∀ b, P ⟨.noEntry, b⟩) (v : Byte) : Raises P (lookupCode v) := by
  intro s c s' e
  rcases lookupCode_cases v s with ⟨_, k⟩ | ⟨_, _, k⟩ <;> rw [k] at e <;> cases e
  exact h v

theorem wrPad_raises (h1 : P ⟨.outClosed, 0#8⟩) (h2 : P ⟨.outBroken, 0#8⟩) : Raises P wrPad :=
  (Raises.look _).bind fun _ => (Raises.change _).bind fun _ => writeBits_raises h1 h2 _

theorem compressCall_raises (ho : P ⟨.alreadyOpen, 0#8⟩) (hi : P ⟨.inOpenFail, 0#8⟩) (hl : P ⟨.inTooLong, 0#8⟩)
    (hw : P ⟨.outOpenFail, 0#8⟩) (hq : ∀ b, P ⟨.freqOverflow, b⟩) (hs : P ⟨.noSymbol, 0#8⟩) (ht : P ⟨.noTree, 0#8⟩)
    (hd : ∀ b, P ⟨.dupLeaf, b⟩) (he : ∀ b, P ⟨.noEntry, b⟩) (hf : P ⟨.encFull, 0#8⟩) (h1 : P ⟨.inClosed, 0#8⟩)
    (h2 : P ⟨.inBroken, 0#8⟩) (h3 : P ⟨.outClosed, 0#8⟩) (h4 : P ⟨.outBroken, 0#8⟩) : Raises P compressCall := by
  refine (requireClosed_raises ho).bind fun _ => (Raises.change _).bind fun _ => (Raises.change _).bind fun _ => ?_
  refine (openR_raises ho hi hl).bind fun _ => (openW_raises ho hw).bind fun _ => (Raises.change _).bind fun _ => ?_
  refine (tally_raises h1 h2 hq).bind fun _ => (Raises.change _).bind fun _ => (buildTree_raises hs).bind fun _ => ?_
  refine (Raises.change _).bind fun _ => (mkTab_raises ht hd).bind fun _ => (Raises.change _).bind fun _ => ?_
  refine (rewindR_raises h1).bind fun _ => (encodeInput_raises h1 h2 he hf).bind fun _ => (Raises.change _).bind fun _ => ?_
  refine (serTree_raises ht h3 h4).bind fun _ => (Raises.change _).bind fun _ => (wrPad_raises h3 h4).bind fun _ => ?_
  refine (Raises.change _).bind fun _ => ?_
  refine Raises.bind (fun s => writeBits_raises h3 h4 s.enc s) fun _ => (Raises.change _).bind fun _ => ?_
  exact (flushW_raises h4).bind fun _ => (Raises.change _).bind fun _ => Raises.change _

theorem decompressCall_raises (ho : P ⟨.alreadyOpen, 0#8⟩) (hi : P ⟨.inOpenFail, 0#8⟩) (hl : P ⟨.inTooLong, 0#8⟩)
    (hw : P ⟨.outOpenFail, 0#8⟩) (ht : P ⟨.noTree, 0#8⟩) (hc : P ⟨.noChild, 0#8⟩) (g1 : P ⟨.eofTag, 0#8⟩)
    (g2 : P ⟨.treeTooBig, 0#8⟩) (g3 : P ⟨.eofByte, 0#8⟩) (g4 : P ⟨.rootLeaf, 0#8⟩) (g5 : P ⟨.eofPad, 0#8⟩)
    (g6 : ∀ v, P ⟨.padRange, v⟩) (h1 : P ⟨.inClosed, 0#8⟩)
    (h2 : P ⟨.inBroken, 0#8⟩) (h3 : P ⟨.outClosed, 0#8⟩) (h4 : P ⟨.outBroken, 0#8⟩) : Raises P decompressCall := by
  refine (requireClosed_raises ho).bind fun _ => (Raises.change _).bind fun _ => (Raises.change _).bind fun _ => ?_
  refine (openR_raises ho hi hl).bind fun _ => (openW_raises ho hw).bind fun _ => (Raises.change _).bind fun _ => ?_
  refine (desTree_raises h1 h2 g1 g2 g3 g4).bind fun _ => (Raises.change _).bind fun _ => ?_
  refine (rdPad_raises h1 h2 g5 g6).bind fun _ => (Raises.change _).bind fun _ => ?_
  refine (decodePayload_raises ht hc h3 h4 h1 h2).bind fun _ => (Raises.change _).bind fun _ => ?_
  exact (flushW_raises h4).bind fun _ => (Raises.change _).bind fun _ => Raises.change _

end Sys2Proof.Machine
end

