-- ==== Sys2Proof/Laws/Compressor.lean ====
section
/-! SUPPORT. The stages of the compressor on healthy stores (R178, R191, R211, R213, R146), each with what it writes, and
the bounds of R9 they need. -/

namespace Sys2Proof.Machine

/-! ## Bounds (R9) -/

/-- A list of bytes without a repetition holds at most 256. -/
theorem byte_nodup_length_le {l : List Byte} (h : l.Nodup) : l.length ≤ 256 := by
  have h1 : (l.map BitVec.toNat).Nodup := h.map (fun _ _ e => BitVec.eq_of_toNat_eq e)
  have h2 : (l.map BitVec.toNat).Subperm (List.range 256) := List.subperm_of_subset h1 (by
    intro x hx
    obtain ⟨b, _, rfl⟩ := List.mem_map.1 hx
    exact List.mem_range.2 b.isLt)
  simpa using h2.length_le

/-- In a table of `T`'s codewords, the codewords of a byte sequence are its payload (R104). -/
theorem codesOf_eq_payloadOf {code : CodeTable} {T : HuffTree} (h : ∀ b, slotGet code b = codewordOf T b)
    (l : List Byte) : codesOf code l = payloadOf T l := by
  unfold codesOf payloadOf
  congr 1
  funext b
  rw [h]

/-- With `L` leaves no codeword is longer than `L - 1` bits (R9). -/
theorem payloadOf_length_le_leaves (T : HuffTree) (l : List Byte) :
    (payloadOf T l).length ≤ (treeLeaves T - 1) * l.length := by
  have hd := treeDepth_lt T
  induction l with
  | nil => simp [payloadOf]
  | cons b l ih =>
    have hs : payloadOf T (b :: l) = (codewordOf T b).getD [] ++ payloadOf T l := by simp [payloadOf]
    have : ((codewordOf T b).getD []).length ≤ treeLeaves T - 1 := by
      cases hc : codewordOf T b with
      | none => simp
      | some p =>
        have := codewordOf_length_le hc
        simp
        omega
    rw [hs, List.length_append, List.length_cons, Nat.mul_succ]
    omega

/-- A tree without repeated leaf values has codewords of at most 255 bits (R9). -/
theorem payloadOf_length_le {T : HuffTree} (h : (leafBytes T).Nodup) (l : List Byte) :
    (payloadOf T l).length ≤ 255 * l.length := by
  have := byte_nodup_length_le h
  rw [leafBytes_length] at this
  exact (payloadOf_length_le_leaves T l).trans (Nat.mul_le_mul_right _ (by omega))

/-! ## Stages -/

/-- `REWIND` and `ENCODE` together, from a table of `T`'s codewords and an empty `ENC` (R145, R177). -/
theorem rewind_encode_steady {S : State} {T : HuffTree} (hr : Readable S) (he : S.enc = [])
    (hcode : ∀ b, slotGet S.code b = codewordOf T b) (hall : ∀ b ∈ S.inStore.data, b ∈ leafBytes T)
    (hfit : (payloadOf T S.inStore.data).length ≤ S.cfg.encCap.toNat) :
    ∃ S' pos buf avail d, (rewindR >>= fun _ => encodeInput) S = .ok () S' ∧ S' = { S with
      inPos := pos, brBuf := buf, brAvail := avail, brEof := true, draws := d
      enc := payloadOf T S.inStore.data } := by
  rcases rewindR_cases S with ⟨a, _⟩ | ⟨_, e1⟩
  · rw [hr.isOpen] at a; cases a
  have hr1 : Readable (restartReader S) := ⟨hr.isOpen, hr.steady, Nat.zero_le _, hr.short⟩
  have hw : wholeBytes (bitsAhead (restartReader S)) = S.inStore.data := by
    have : bitsAhead (restartReader S) = bitsOf S.inStore.data := rfl
    rw [this, wholeBytes_bitsOf]
  have hc : (restartReader S).code = S.code := rfl
  have hn : (restartReader S).enc = [] := he
  obtain ⟨pos, buf, avail, d, k1, _, _⟩ := encodeLoop_steady (readTurns (restartReader S)) hr1 rfl readTurns_enough
    (by
      rw [hw, hc]
      intro b hb
      rw [hcode b, codewordOf_isSome_iff]
      exact hall b hb)
    (by
      rw [hw, hc, codesOf_eq_payloadOf hcode, hn]
      simpa using hfit)
  rw [hw, hc, codesOf_eq_payloadOf hcode, hn, List.nil_append] at k1
  exact ⟨_, pos, buf, avail, d, (Micro.bind_ok e1).trans k1, rfl⟩

/-- `SERTREE` (R191). -/
theorem serTree_steady {S : State} {T : HuffTree} (hT : S.tree = some T) (ho : S.outOpen = true) (hos : outSteady S)
    (hz : LowZero S) :
    ∃ S' b c d, serTree S = .ok () S' ∧ S' = { wroteTo S b c d with treebits := BitVec.ofNat 12 (ser T).length } ∧
      bitsWritten S' = bitsWritten S ++ ser T ∧ LowZero S' := by
  obtain ⟨b1, c1, d1, w1, w2, w3⟩ := writeBits_steady (ser T) S ho hos
  refine ⟨_, b1, c1, d1, ?_, rfl, w2, w3 hz⟩
  rcases serTree_cases S with ⟨a, _⟩ | ⟨t, s1, a, b, e⟩ | ⟨t, c, s1, a, b, e⟩ <;> rw [hT] at a <;> cases a
  · rw [w1] at b
    cases b
    rw [e, ser_length]
  · rw [w1] at b
    cases b

/-- `WRPAD` (R211). -/
theorem wrPad_steady {S : State} {p : Nat} (hp : padCount (S.treebits.toNat + S.enc.length) = p)
    (ho : S.outOpen = true) (hos : outSteady S) (hz : LowZero S) :
    ∃ S' b c d, wrPad S = .ok () S' ∧ S' = { wroteTo S b c d with pad := BitVec.ofNat 3 p } ∧
      bitsWritten S' = bitsWritten S ++ byteBits (BitVec.ofNat 8 p) ∧ LowZero S' := by
  obtain ⟨b1, c1, d1, w1, w2, w3⟩ :=
    writeBits_steady (byteBits (BitVec.ofNat 8 p)) { S with pad := BitVec.ofNat 3 p } ho hos
  refine ⟨_, b1, c1, d1, ?_, rfl, w2, w3 hz⟩
  unfold wrPad
  rw [bind_look, bind_change, hp]
  exact w1

/-- `WRENC` (R213). -/
theorem wrEnc_steady {S : State} (ho : S.outOpen = true) (hos : outSteady S) (hz : LowZero S) :
    ∃ S' b c d, wrEnc S = .ok () S' ∧ S' = wroteTo S b c d ∧ bitsWritten S' = bitsWritten S ++ S.enc ∧ LowZero S' := by
  obtain ⟨b1, c1, d1, w1, w2, w3⟩ := writeBits_steady S.enc S ho hos
  exact ⟨_, b1, c1, d1, w1, rfl, w2, w3 hz⟩

/-- The close flush leaves an empty buffer (R146). -/
theorem flushW_steady_empty {S : State} (hos : outSteady S) (hz : LowZero S) :
    ∃ d, flushW S = .ok () (wroteTo S 0#8 0#3 d) ∧
      bitsOf d = bitsWritten S ++ List.replicate ((8 - (bitsWritten S).length % 8) % 8) false := by
  obtain ⟨data, f1, f2⟩ := flushW_steady S hos hz
  have hb : (if S.bwCnt = 0#3 then S.bwBuf else 0#8) = 0#8 := by
    split
    · rename_i h
      have h8 : ∀ k, k < 8 → S.bwBuf.getLsbD k = false := fun k hk => hz k (by rw [h]; simpa using hk)
      have hf := byteBits_zeroFill S.bwBuf 0 (by decide) (fun k hk => h8 k (by simpa using hk))
      rw [← byteOfBits_byteBits S.bwBuf, hf, List.take_zero]
      decide +kernel
    · rfl
  rw [hb] at f1
  rw [← bwCnt_of_bitsWritten]
  exact ⟨data, f1, f2⟩

end Sys2Proof.Machine
end

