-- ==== Sys2Proof/Laws/Decode.lean ====
section
/-! SUPPORT. The command word (R90 to R96): its fields, mask and match, and the rows of the opcode map. -/

namespace Sys2Proof

open Sys2Proof.Machine

/-! ## Fields -/

theorem packWord_fields (w : Word) : packWord (opField w) (aField w) (nField w) = w := by
  apply BitVec.eq_of_getLsbD_eq
  intro i hi
  simp only [packWord, opField, aField, nField, BitVec.getLsbD_append, BitVec.getLsbD_extractLsb']
  by_cases h : i < 16
  · simp [h]
  · by_cases h' : i - 16 < 8
    · have e : 16 + (i - 16) = i := by omega
      simp [h, h', e]
    · have e : 24 + (i - 16 - 8) = i := by omega
      simp only [h, h', decide_false, e]
      have : i - 16 - 8 < 8 := by omega
      simp [this]

theorem opField_packWord (o a : Byte) (n : Half) : opField (packWord o a n) = o := by
  apply BitVec.eq_of_getLsbD_eq
  intro i hi
  have h1 : ¬ 24 + i < 16 := by omega
  have h2 : ¬ 24 + i - 16 < 8 := by omega
  have h3 : 24 + i - 16 - 8 = i := by omega
  simp only [packWord, opField, BitVec.getLsbD_append, BitVec.getLsbD_extractLsb', h1, h2, h3]
  simp [hi]

theorem aField_packWord (o a : Byte) (n : Half) : aField (packWord o a n) = a := by
  apply BitVec.eq_of_getLsbD_eq
  intro i hi
  have h1 : ¬ 16 + i < 16 := by omega
  have h2 : 16 + i - 16 = i := by omega
  simp only [packWord, aField, BitVec.getLsbD_append, BitVec.getLsbD_extractLsb', h1, h2]
  simp [hi]

theorem nField_packWord (o a : Byte) (n : Half) : nField (packWord o a n) = n := by
  apply BitVec.eq_of_getLsbD_eq
  intro i hi
  simp only [packWord, nField, BitVec.getLsbD_append, BitVec.getLsbD_extractLsb', Nat.zero_add]
  simp [hi]

theorem packWord_inj {o o' a a' : Byte} {n n' : Half} (h : packWord o a n = packWord o' a' n') :
    o = o' ∧ a = a' ∧ n = n' := by
  refine ⟨?_, ?_, ?_⟩
  · have := congrArg opField h
    simpa only [opField_packWord] using this
  · have := congrArg aField h
    simpa only [aField_packWord] using this
  · have := congrArg nField h
    simpa only [nField_packWord] using this

/-! ## Mask and match (R91) -/

/-- Which bits of the `a` field a format keeps to compare. -/
def keepA : Format → Byte
  | .z => 0xFF#8
  | .a => 0x00#8
  | .b => 0xFE#8
  | .an => 0x00#8

/-- Which bits of the `n` field a format keeps to compare. -/
def keepN : Format → Half
  | .z | .a | .b => 0xFFFF#16
  | .an => 0x0000#16

theorem formatMask_eq (f : Format) : formatMask f = packWord 0xFF#8 (keepA f) (keepN f) := by
  cases f <;> decide +kernel

theorem packWord_and (o a o' a' : Byte) (n n' : Half) :
    packWord o a n &&& packWord o' a' n' = packWord (o &&& o') (a &&& a') (n &&& n') := by
  apply BitVec.eq_of_getLsbD_eq
  intro i _
  simp only [packWord, BitVec.getLsbD_and, BitVec.getLsbD_append]
  by_cases h : i < 16
  · simp [h]
  · by_cases h' : i - 16 < 8 <;> simp [h, h']

theorem formatFits_iff (f : Format) (a : Byte) (n : Half) :
    formatFits f a n = true ↔ a &&& keepA f = 0#8 ∧ n &&& keepN f = 0#16 := by
  have hn : ∀ n : Half, n &&& 0xFFFF#16 = n := fun n => by
    have : (0xFFFF#16 : Half) = BitVec.allOnes 16 := by decide
    rw [this, BitVec.and_allOnes]
  have ha : ∀ a : Byte, a &&& 0xFF#8 = a := fun a => by
    have : (0xFF#8 : Byte) = BitVec.allOnes 8 := by decide
    rw [this, BitVec.and_allOnes]
  have hb : ∀ a : Byte, bitOperandOk a = true ↔ a &&& 0xFE#8 = 0#8 := by decide +kernel
  cases f <;> simp [formatFits, keepA, keepN, hn, ha, hb]

/-- A word is an instance of a row exactly when its `op` is the row's and its unused fields are zero (R91). -/
theorem rowMatches_iff (r : OpcodeRow) (w : Word) :
    rowMatches r w = true ↔ opField w = r.op ∧ formatFits r.fmt (aField w) (nField w) = true := by
  have hz : r.op ++ 0#24 = packWord r.op 0#8 0#16 := by
    apply BitVec.eq_of_getLsbD_eq
    intro i _
    simp only [packWord, BitVec.getLsbD_append]
    by_cases h : i < 16
    · have : i < 24 := by omega
      simp [h, this]
    · by_cases h' : i - 16 < 8
      · have : i < 24 := by omega
        simp [h, h', this]
      · have h24 : ¬ i < 24 := by omega
        have e : i - 16 - 8 = i - 24 := by omega
        simp [h, h', h24, e]
  have ho : opField w &&& 0xFF#8 = opField w := by
    have : (0xFF#8 : Byte) = BitVec.allOnes 8 := by decide
    rw [this, BitVec.and_allOnes]
  rw [rowMatches, beq_iff_eq, formatMask_eq, formatFits_iff, hz]
  conv_lhs => lhs; lhs; rw [← packWord_fields w]
  rw [packWord_and, ho]
  constructor
  · exact packWord_inj
  · rintro ⟨h1, h2, h3⟩
    rw [h1, h2, h3]

/-! ## The opcode map (R93) -/

/-- No two rows share an `op` (R96). -/
theorem opcodeTable_pairwise : opcodeTable.Pairwise (fun r r' => r.op ≠ r'.op) := by
  have : (opcodeTable.map OpcodeRow.op).Nodup := by decide +kernel
  exact List.pairwise_map.1 this

/-- The decoder finds the one row with the word's `op`. -/
theorem find_row {r : OpcodeRow} (hr : r ∈ opcodeTable) : opcodeTable.find? (fun x => x.op == r.op) = some r := by
  have key : ∀ (l : List OpcodeRow), l.Pairwise (fun r r' => r.op ≠ r'.op) → r ∈ l →
      l.find? (fun x => x.op == r.op) = some r := by
    intro l
    induction l with
    | nil => intro _ h; cases h
    | cons x xs ih =>
      intro hp h
      rw [List.pairwise_cons] at hp
      rcases List.mem_cons.1 h with rfl | h
      · simp
      · have hne : x.op ≠ r.op := hp.1 r h
        rw [List.find?_cons_of_neg (by simpa using hne)]
        exact ih hp.2 h
  exact key _ opcodeTable_pairwise hr

/-- The row of a command. -/
theorem row_of_instr (i : Instr) :
    ∃ r ∈ opcodeTable, r.op = opcode i ∧ r.fmt = formatOf i ∧ r.build (operandA i) (operandN i) = i := by
  cases i <;>
    simp [opcodeTable, opcodeRowsControlBitIO, opcodeRowsBuilderTable, opcodeRowsOrchestration, opcode, formatOf,
      operandA, operandN]

/-- The command a row builds has that row's `op` and format, and its operand fields are those of the word. -/
theorem instr_of_row {r : OpcodeRow} (hr : r ∈ opcodeTable) (a : Byte) (n : Half) (hf : formatFits r.fmt a n = true) :
    opcode (r.build a n) = r.op ∧ operandA (r.build a n) = a ∧ operandN (r.build a n) = n ∧
      (r.build a n).wellFormed = true := by
  simp only [opcodeTable, opcodeRowsControlBitIO, opcodeRowsBuilderTable, opcodeRowsOrchestration, List.cons_append,
    List.nil_append, List.mem_cons, List.not_mem_nil, or_false] at hr
  rcases hr with rfl | rfl | rfl | rfl | rfl | rfl | rfl | rfl | rfl | rfl | rfl | rfl | rfl | rfl | rfl | rfl |
      rfl | rfl | rfl | rfl | rfl | rfl | rfl | rfl | rfl | rfl | rfl | rfl | rfl | rfl | rfl <;>
    simp_all [formatFits, opcode, operandA, operandN, Instr.wellFormed]

end Sys2Proof
end

