-- ==== Sys2Proof/Laws/Issue.lean ====
section
/-! SUPPORT. The issue rule (R122), case by case, and the step that issues the host's next word. -/

namespace Sys2Proof.Machine

theorem step_pushCommand (w : Word) (s : State) : step (pushCommand w s) = issue w s := rfl

theorem faultPending_eq (s : State) : faultPending s = false ↔ s.err = 0#4 := by
  simp [faultPending]

theorem issue_sticky {w : Word} {s : State} (hw : w ≠ initWord) (h : s.err ≠ 0#4) : issue w s = .next s := by
  have hf : faultPending s = true := by simpa [faultPending] using h
  rw [issue, if_neg hw, if_pos hf]

theorem issue_decoded {w : Word} {s : State} (hw : w ≠ initWord) (h : s.err = 0#4) :
    issue w s = match decode w with
      | .illegal _ => .next (faultEntry (opField w) ⟨.badWord, 0#8⟩ (setPhase .misc s))
      | .instr i => exec i s := by
  have hf : faultPending s = false := (faultPending_eq s).2 h
  cases hd : decode w <;> simp [issue, hw, hf, hd]

theorem decode_initWord : decode initWord = .instr .init := by decide +kernel

/-- With no fault pending, a word that decodes to a command runs that command (R122). -/
theorem issue_instr {w : Word} {s : State} {i : Instr} (h : s.err = 0#4) (hd : decode w = .instr i) :
    issue w s = exec i s := by
  by_cases hw : w = initWord
  · subst hw
    rw [decode_initWord] at hd
    cases hd
    rfl
  · rw [issue_decoded hw h, hd]

end Sys2Proof.Machine
end

