-- ==== Sys2Proof/Laws/PerInstr.lean ====
section
/-! SUPPORT. Statements made for all commands, one lemma per constructor of `Instr`. -/

namespace Sys2Proof.Laws.OpcodeRow

open Sys2Proof.Machine

/-- The word of a well-formed command is an instance of a row of R93, and that row, given the word's fields, builds the
command again (R91, R93). -/
def Statement (i : Instr) : Prop :=
  i.wellFormed = true →
    ∃ r ∈ opcodeTable, rowMatches r (encode i) = true ∧ r.build (aField (encode i)) (nField (encode i)) = i

/-- The operand fields of a well-formed command fit its format (R91). -/
theorem fits (i : Instr) (h : i.wellFormed = true) : formatFits (formatOf i) (operandA i) (operandN i) = true := by
  cases i <;> simp_all [formatOf, formatFits, operandA, operandN, Instr.wellFormed]

theorem every (i : Instr) : Statement i := by
  intro h
  obtain ⟨r, hm, ho, hf, hb⟩ := row_of_instr i
  refine ⟨r, hm, (rowMatches_iff r _).2 ⟨?_, ?_⟩, ?_⟩
  · rw [encode, opField_packWord, ho]
  · rw [encode, aField_packWord, nField_packWord, hf]
    exact fits i h
  · rw [encode, aField_packWord, nField_packWord, hb]

theorem nop : Statement .nop := every _
theorem init : Statement .init := every _
theorem openw : Statement .openw := every _
theorem wrbit (a : Byte) : Statement (.wrbit a) := every _
theorem wrbyte (a : Byte) : Statement (.wrbyte a) := every _
theorem pending : Statement .pending := every _
theorem closew : Statement .closew := every _
theorem openr : Statement .openr := every _
theorem rdbit : Statement .rdbit := every _
theorem rdbyte : Statement .rdbyte := every _
theorem iseof : Statement .iseof := every _
theorem closer : Statement .closer := every _
theorem rewind : Statement .rewind := every _
theorem fclr : Statement .fclr := every _
theorem fadd (a : Byte) (n : Half) : Statement (.fadd a n) := every _
theorem fread (a : Byte) : Statement (.fread a) := every _
theorem tally : Statement .tally := every _
theorem build : Statement .build := every _
theorem mktab : Statement .mktab := every _
theorem lookup (a : Byte) : Statement (.lookup a) := every _
theorem encsym (a : Byte) : Statement (.encsym a) := every _
theorem encode : Statement .encode := every _
theorem sertree : Statement .sertree := every _
theorem destree : Statement .destree := every _
theorem wrpad : Statement .wrpad := every _
theorem wrenc : Statement .wrenc := every _
theorem compress : Statement .compress := every _
theorem rdpad : Statement .rdpad := every _
theorem decbit (a : Byte) : Statement (.decbit a) := every _
theorem decode : Statement .decode := every _
theorem decompress : Statement .decompress := every _

end Sys2Proof.Laws.OpcodeRow
end

