-- ==== Sys2Proof/Tests/Slice0.lean ====
section
/-! SUPPORT. The package's own tests: WellFormed's refusals, one word of every command, one step of every command with the
result that spec/95_test_vectors.md gives, and a state that meets the hypotheses of each statement. -/

namespace Sys2Proof.Tests

set_option Elab.async false

open Sys2Proof Sys2Proof.Machine

/-! ## Small states -/

/-- The state a command ends in. -/
def after (i : Instr) (s : State) : Option State :=
  match exec i s with
  | .next t => some t
  | .fault _ => none
  | .refused _ => none

/-- Reset, with these bytes in `IN`. -/
def input (bytes : List Byte) : State :=
  { State.reset with inStore := { State.reset.inStore with data := bytes } }

/-- The reader open at the start of these bytes. -/
def reader (bytes : List Byte) : State := { input bytes with inOpen := true }

/-- The writer open, with `cnt` bits pending in `buf`. -/
def writer (buf : BitVec 8) (cnt : BitVec 3) : State :=
  { State.reset with outOpen := true, bwBuf := buf, bwCnt := cnt }

/-- The output store broken. -/
def brokenOut (s : State) : State := { s with outStore := { s.outStore with ok := false } }

/-- A tree in place, as `BUILD` or `DESTREE` leaves it. -/
def planted (t : HuffTree) (s : State) : State :=
  { s with tree := some t, ptr := some [], nnodes := BitVec.ofNat 9 (treeNodes t) }

/-- A fault pending. -/
def faulted : State := faultEntry 0x11#8 ⟨.outClosed, 0#8⟩ { State.reset with phase := .bitio }

/-- The tree of V1. -/
def treeV1 : HuffTree := .internal (.leaf 0x61#8) (.leaf 0x62#8)

/-- The tree of V2. -/
def treeV2 : HuffTree := .internal (.internal (.leaf 0x63#8) (.leaf 0x62#8)) (.leaf 0x61#8)

/-- A complete tree of `2 ^ n` leaves. -/
def fullTree : Nat → HuffTree
  | 0 => .leaf 0#8
  | n + 1 => .internal (fullTree n) (fullTree n)

/-! ## WellFormed (R91) -/

theorem test_wrbit_field_refused :
    (Instr.wrbit 2#8).wellFormed = false ∧ (Instr.wrbit 0x81#8).wellFormed = false := by decide
theorem test_decbit_field_refused : (Instr.decbit 2#8).wellFormed = false ∧ (Instr.decbit 0xFF#8).wellFormed = false := by
  decide
theorem test_ill_formed_word_refused :
    decode (encode (.wrbit 2#8)) = .illegal .nonZeroField ∧ decode (encode (.decbit 2#8)) = .illegal .nonZeroField := by
  decide

/-! ## Decoding: words written out from R90 to R93 -/

theorem test_decode_control :
    decode 0b00000000_00000000_0000000000000000#32 = .instr .nop ∧
    decode 0b00000001_00000000_0000000000000000#32 = .instr .init := by decide
theorem test_decode_writer :
    decode 0b00010000_00000000_0000000000000000#32 = .instr .openw ∧
    decode 0b00010001_00000001_0000000000000000#32 = .instr (.wrbit 1#8) ∧
    decode 0b00010010_10100101_0000000000000000#32 = .instr (.wrbyte 0xA5#8) ∧
    decode 0b00010011_00000000_0000000000000000#32 = .instr .pending ∧
    decode 0b00010100_00000000_0000000000000000#32 = .instr .closew := by decide
theorem test_decode_reader :
    decode 0b00011000_00000000_0000000000000000#32 = .instr .openr ∧
    decode 0b00011001_00000000_0000000000000000#32 = .instr .rdbit ∧
    decode 0b00011010_00000000_0000000000000000#32 = .instr .rdbyte ∧
    decode 0b00011011_00000000_0000000000000000#32 = .instr .iseof ∧
    decode 0b00011100_00000000_0000000000000000#32 = .instr .closer ∧
    decode 0b00011101_00000000_0000000000000000#32 = .instr .rewind := by decide
theorem test_decode_builder :
    decode 0b00100000_00000000_0000000000000000#32 = .instr .fclr ∧
    decode 0b00100001_01100001_0000000001100100#32 = .instr (.fadd 0x61#8 100#16) ∧
    decode 0b00100010_00010000_0000000000000000#32 = .instr (.fread 0x10#8) ∧
    decode 0b00100011_00000000_0000000000000000#32 = .instr .tally ∧
    decode 0b00100100_00000000_0000000000000000#32 = .instr .build := by decide
theorem test_decode_table :
    decode 0b00110000_00000000_0000000000000000#32 = .instr .mktab ∧
    decode 0b00110001_01100010_0000000000000000#32 = .instr (.lookup 0x62#8) ∧
    decode 0b00110010_01100010_0000000000000000#32 = .instr (.encsym 0x62#8) ∧
    decode 0b00110011_00000000_0000000000000000#32 = .instr .encode := by decide
theorem test_decode_serializer :
    decode 0b01000000_00000000_0000000000000000#32 = .instr .sertree ∧
    decode 0b01000001_00000000_0000000000000000#32 = .instr .destree := by decide
theorem test_decode_compressor :
    decode 0b01010000_00000000_0000000000000000#32 = .instr .wrpad ∧
    decode 0b01010001_00000000_0000000000000000#32 = .instr .wrenc ∧
    decode 0b01010010_00000000_0000000000000000#32 = .instr .compress := by decide
theorem test_decode_decompressor :
    decode 0b01011000_00000000_0000000000000000#32 = .instr .rdpad ∧
    decode 0b01011001_00000001_0000000000000000#32 = .instr (.decbit 1#8) ∧
    decode 0b01011010_00000000_0000000000000000#32 = .instr .decode ∧
    decode 0b01011011_00000000_0000000000000000#32 = .instr .decompress := by decide
/-- The bad words of V17. -/
theorem test_decode_illegal :
    decode 0xFF000000#32 = .illegal .unlistedOp ∧ decode 0x10000001#32 = .illegal .nonZeroField ∧
    decode 0x11020000#32 = .illegal .nonZeroField ∧ decode 0x12FF0001#32 = .illegal .nonZeroField ∧
    decode 0x01000001#32 = .illegal .nonZeroField := by decide
theorem test_decodeTableWord :
    decodeTableWord 32 0x21610064 = some (.fadd 0x61#8 100#16) ∧ decodeTableWord 32 0xFF000000 = none := by decide
/-- R98. -/
theorem test_pseudo :
    encode (pseudoFinc 0x61#8) = 0x21610001#32 ∧ encode pseudoWr0 = 0x11000000#32 ∧ encode pseudoWr1 = 0x11010000#32 := by
  decide

/-! ## One step each -/

/-- V18. -/
theorem test_nop : (after .nop (writer 0xE0#8 3#3)).map (fun t => (statusWord t, t.bwBuf, t.bwCnt)) =
    some (8#32, 0xE0#8, 3#3) := by decide +kernel
/-- V19: the pending bits are dropped, the store keeps its byte. -/
theorem test_init :
    (after .init { writer 0xE0#8 3#3 with outStore := { State.reset.outStore with data := [0xBF#8] } }).map
      (fun t => (statusWord t, t.bwCnt, t.outStore.data)) = some (0#32, 0#3, [0xBF#8]) := by decide +kernel
/-- V17: a bad word, then words are ignored until `INIT`. -/
theorem test_bad_word :
    (match issue 0x11020000#32 State.reset with | .next t => (t.err, t.errinfo) | _ => (0#4, 0#32)) =
      (6#4, 0x00110E50#32) := by decide +kernel
theorem test_sticky :
    (match step (pushCommand 0x10000000#32 faulted) with | .next t => (t.errinfo, t.outOpen) | _ => (0#32, true)) =
      (0x00110D04#32, false) := by decide +kernel
/-- R133. -/
theorem test_openw :
    (after .openw { State.reset with outStore := { State.reset.outStore with data := [1#8] } }).map
      (fun t => (statusWord t, t.outStore.data)) = some (8#32, []) := by decide +kernel
/-- V65: opening an open writer flushes its bits. -/
theorem test_openw_open :
    (after .openw (writer 0xE0#8 3#3)).map (fun t => (t.errinfo, t.outStore.data, statusWord t)) =
      some (0x00100151#32, [0xE0#8], 2#32) := by decide +kernel
/-- R134: the eighth bit. -/
theorem test_wrbit : (after (.wrbit 1#8) (writer 0xBE#8 7#3)).map (fun t => (t.outStore.data, t.bwBuf, t.bwCnt)) =
    some ([0xBF#8], 0#8, 0#3) := by decide +kernel
/-- V64. -/
theorem test_wrbit_closed : (after (.wrbit 1#8) State.reset).map (fun t => (t.err, t.errinfo)) =
    some (1#4, 0x00110D04#32) := by decide +kernel
/-- V63. -/
theorem test_wrbyte : (after (.wrbyte 0xFF#8) (writer 0x80#8 2#3)).map (fun t => (t.outStore.data, t.bwBuf, t.bwCnt)) =
    some ([0xBF#8], 0xC0#8, 2#3) := by decide +kernel
/-- P1. -/
theorem test_pending : (after .pending (writer 0xC0#8 2#3)).map (fun t => t.result) = some 2#32 := by decide +kernel
/-- P1. -/
theorem test_closew : (after .closew (writer 0xC0#8 2#3)).map (fun t => (t.outStore.data, t.bwCnt, statusWord t)) =
    some ([0xC0#8], 0#3, 0#32) := by decide +kernel
/-- R140: an empty store opens. -/
theorem test_openr : (after .openr (input [])).map statusWord = some 4#32 := by decide +kernel
/-- V69. -/
theorem test_openr_open : (after .openr (reader [])).map (fun t => (t.err, t.errinfo, statusWord t)) =
    some (6#4, 0x00180151#32, 2#32) := by decide +kernel
/-- V66: the first bit of A5. -/
theorem test_rdbit : (after .rdbit (reader [0xA5#8, 0x0F#8])).map (fun t => (t.result, t.brAvail, t.brEof)) =
    some (1#32, 7, false) := by decide +kernel
/-- V68: the read past the last bit sets the flag. -/
theorem test_rdbit_end : (after .rdbit { reader [0x80#8] with inPos := 1#32 }).map statusWord = some 0x44#32 := by
  decide +kernel
/-- V66: three bits of A5 0F consumed. -/
theorem test_rdbyte :
    (after .rdbyte { reader [0xA5#8, 0x0F#8] with inPos := 1#32, brBuf := 0xA5#8, brAvail := 5 }).map
      (fun t => (t.result, t.brBuf, t.brAvail, t.inPos)) = some (0x28#32, 0x0F#8, 5, 2#32) := by decide +kernel
/-- V66. -/
theorem test_iseof : (after .iseof { reader [] with brEof := true }).map (fun t => t.result) = some 1#32 := by
  decide +kernel
/-- R144. -/
theorem test_closer : (after .closer { reader [1#8] with inPos := 1#32 }).map (fun t => (statusWord t, t.inPos)) =
    some (0#32, 1#32) := by decide +kernel
/-- V66. -/
theorem test_rewind :
    (after .rewind { reader [1#8] with inPos := 1#32, brAvail := 3, brEof := true }).map
      (fun t => (statusWord t, t.inPos, t.brAvail)) = some (4#32, 0#32, 0) := by decide +kernel
/-- V26. -/
theorem test_fclr :
    (after .fclr { State.reset with freq := slotSet emptyFreq 0x61#8 5#32 }).map (fun t => slotGet t.freq 0x61#8) =
      some 0#32 := by decide +kernel
/-- V24: the counter at its largest value. -/
theorem test_fadd :
    (after (.fadd 0x10#8 1#16) { State.reset with freq := slotSet emptyFreq 0x10#8 0xFFFFFFFE#32 }).map
      (fun t => (t.err, slotGet t.freq 0x10#8)) = some (0#4, 0xFFFFFFFF#32) := by decide +kernel
/-- V24: one past it. -/
theorem test_fadd_overflow :
    (after (.fadd 0x10#8 1#16) { State.reset with freq := slotSet emptyFreq 0x10#8 0xFFFFFFFF#32 }).map
      (fun t => (t.err, t.errinfo, slotGet t.freq 0x10#8)) = some (5#4, 0x10210E40#32, 0xFFFFFFFF#32) := by decide +kernel
/-- V24. -/
theorem test_fread :
    (after (.fread 0x10#8) { State.reset with freq := slotSet emptyFreq 0x10#8 0xFFFF#32 }).map (fun t => t.result) =
      some 0xFFFF#32 := by decide +kernel
/-- V25. -/
theorem test_tally :
    (after .tally (reader [0x61#8, 0x61#8, 0x62#8])).map
      (fun t => (slotGet t.freq 0x61#8, slotGet t.freq 0x62#8, statusWord t)) = some (2#32, 1#32, 0x44#32) := by
  decide +kernel
/-- V20. -/
theorem test_build :
    (after .build { State.reset with
      freq := slotSet (slotSet (slotSet emptyFreq 0x61#8 4#32) 0x62#8 2#32) 0x63#8 1#32 }).map
      (fun t => (t.tree, t.nnodes)) = some (some treeV2, 5#9) := by decide +kernel
/-- V22: the byte after 0xFF is 0x00. -/
theorem test_build_one :
    (after .build { State.reset with freq := slotSet emptyFreq 0xFF#8 1#32 }).map (fun t => (t.tree, t.nnodes)) =
      some (some (.internal (.leaf 0xFF#8) (.leaf 0#8)), 3#9) := by decide +kernel
/-- V2. -/
theorem test_mktab :
    (after .mktab (planted treeV2 State.reset)).map
      (fun t => (slotGet t.code 0x63#8, slotGet t.code 0x62#8, slotGet t.code 0x61#8, slotGet t.code 0x64#8)) =
      some (some [false, false], some [false, true], some [true], none) := by decide +kernel
/-- V72. -/
theorem test_mktab_dup :
    (after .mktab (planted (.internal (.leaf 0x61#8) (.leaf 0x61#8)) State.reset)).map
      (fun t => (t.err, t.errinfo, statusWord t)) = some (6#4, 0x61300453#32, 0x12#32) := by decide +kernel
/-- V27. -/
theorem test_lookup :
    (after (.lookup 0x62#8) { State.reset with code := slotSet emptyCode 0x62#8 (some [true, true, false]) }).map
      (fun t => (t.result, t.clen, regRead 0x20 t, regRead 0x24 t)) = some (3#32, 3#8, 0xC0000000#32, 0#32) := by
  decide +kernel
/-- V28. -/
theorem test_lookup_none : (after (.lookup 0x63#8) (planted treeV1 State.reset)).map (fun t => (t.err, t.errinfo)) =
    some (3#4, 0x63310420#32) := by decide +kernel
/-- V71. -/
theorem test_encsym :
    (after (.encsym 0x62#8) { State.reset with code := slotSet emptyCode 0x62#8 (some [false]), enc := [true] }).map
      (fun t => (t.enc, regRead 0x48 t)) = some ([true, false], 2#32) := by decide +kernel
/-- V71: at end of input nothing is appended and nothing raised. -/
theorem test_encode_at_end :
    (after .encode { reader [0x61#8] with inPos := 1#32, brEof := true }).map (fun t => (t.err, t.enc)) = some (0#4, []) := by
  decide +kernel
/-- R177: two bytes. -/
theorem test_encode :
    (after .encode { reader [0x61#8, 0x62#8] with
      code := slotSet (slotSet emptyCode 0x61#8 (some [true])) 0x62#8 (some [false, true]) }).map
      (fun t => (t.enc, t.brEof)) = some ([true, false, true], true) := by decide +kernel
/-- V30. -/
theorem test_sertree :
    (after .sertree (planted treeV1 (writer 0#8 0#3))).map (fun t => (t.outStore.data, t.bwBuf, t.bwCnt, t.treebits)) =
      some ([0x58#8, 0x6C#8], 0x40#8, 3#3, 19#12) := by decide +kernel
/-- V36. -/
theorem test_sertree_none : (after .sertree (writer 0x80#8 1#3)).map (fun t => (t.errinfo, t.outStore.data)) =
    some (0x00400652#32, [0x80#8]) := by decide +kernel
/-- V33. -/
theorem test_destree :
    (after .destree (reader [0x2C#8, 0x76#8, 0x2B#8, 0x08#8, 0x0F#8, 0xA8#8])).map
      (fun t => (t.tree, t.nnodes, t.brBuf, t.brAvail, t.inPos)) =
      some (some treeV2, 5#9, 0x08#8, 3, 4#32) := by decide +kernel
/-- V34. -/
theorem test_destree_leaf :
    (after .destree (reader [0xB0#8, 0x80#8])).map (fun t => (t.errinfo, t.tree, t.nnodes, t.inPos)) =
      some (0x00410A12#32, none, 1#9, 2#32) := by decide +kernel
/-- V7: 19 + 1 bits, 4 to fill. -/
theorem test_wrpad :
    (after .wrpad { writer 0#8 0#3 with treebits := 19#12, enc := [false] }).map (fun t => (t.pad, t.outStore.data)) =
      some (4#3, [4#8]) := by decide +kernel
/-- R213. -/
theorem test_wrenc :
    (after .wrenc { writer 0x80#8 1#3 with enc := [false, true] }).map (fun t => (t.bwBuf, t.bwCnt, t.enc)) =
      some (0xA0#8, 3#3, [false, true]) := by decide +kernel
/-- V1. -/
theorem test_compress :
    (after .compress (input [0x61#8, 0x61#8, 0x61#8, 0x61#8])).map (fun t => (t.outStore.data, t.pad, t.treebits, t.nnodes)) =
      some ([0x58#8, 0x6C#8, 0x40#8, 0x20#8], 1#3, 19#12, 3#9) := by decide +kernel
/-- V11. -/
theorem test_compress_empty : (after .compress (input [])).map (fun t => (t.err, t.errinfo, statusWord t)) =
    some (4#4, 0x00520330#32, 0x42#32) := by decide +kernel
/-- R231. -/
theorem test_rdpad : (after .rdpad (reader [7#8])).map (fun t => (t.err, t.pad)) = some (0#4, 7#3) := by decide +kernel
/-- V42: a padding byte of 9, five bits of 41 left. -/
theorem test_rdpad_range :
    (after .rdpad { reader [0x41#8, 0x20#8] with inPos := 1#32, brBuf := 0x41#8, brAvail := 5 }).map
      (fun t => (t.err, t.errinfo)) = some (2#4, 0x09580B14#32) := by decide +kernel
/-- P5's step to a leaf. -/
theorem test_decbit :
    (after (.decbit 1#8) (planted treeV1 (writer 0#8 0#3))).map (fun t => (t.result, t.outStore.data, t.ptr)) =
      some (0x162#32, [0x62#8], some []) := by decide +kernel
/-- V47. -/
theorem test_decbit_none : (after (.decbit 0#8) State.reset).map (fun t => (t.err, t.errinfo)) =
    some (6#4, 0x00590C52#32) := by decide +kernel
/-- V45: the bits 0001110010, the last one left inside the tree, then six fill bits. -/
theorem test_decode :
    (after .decode (planted treeV2 { writer 0#8 0#3 with
      inStore := { State.reset.inStore with data := [0x1C#8, 0x80#8] }, inOpen := true, pad := 6#3 })).map
      (fun t => (t.err, t.outStore.data, t.ptr)) =
      some (0#4, [0x63#8, 0x62#8, 0x61#8, 0x61#8, 0x63#8, 0x61#8], some [false]) := by decide +kernel
/-- V40. -/
theorem test_decompress :
    (after .decompress (input [0x58#8, 0x6C#8, 0x40#8, 0x20#8])).map (fun t => (t.outStore.data, t.pad, t.nnodes)) =
      some ([0x61#8, 0x61#8, 0x61#8, 0x61#8], 1#3, 3#9) := by decide +kernel
/-- V41: one byte of the file. -/
theorem test_decompress_truncated :
    (after .decompress (input [0x58#8])).map (fun t => (t.errinfo, t.nnodes)) = some (0x005B0A11#32, 2#9) := by
  decide +kernel

/-! ## Witnesses: a state and operands for the hypotheses of each statement, clause by clause -/

theorem exec_next (i : Instr) (s : State) : ∃ t, exec i s = .next t := by
  rcases runCommand_cases i (bodyOf i) s with ⟨s', _, e⟩ | ⟨c, s', _, e⟩
  · exact ⟨_, (exec_eq i s).trans e⟩
  · exact ⟨_, (exec_eq i s).trans e⟩

theorem reader_readable (bytes : List Byte) (h : bytes.length ≤ 2 ^ 32 - 1) : Readable (reader bytes) :=
  ⟨rfl, ⟨rfl, rfl⟩, Nat.zero_le _, h⟩

theorem witness_DecodeOfEncode :
    (Instr.fadd 0xFF#8 0xFFFF#16).wellFormed = true ∧ (Instr.wrbit 1#8).wellFormed = true ∧
    (Instr.decbit 0#8).wellFormed = true := by decide
theorem witness_EncodeOfDecode :
    decode 0x59010000#32 = .instr (.decbit 1#8) ∧ decode 0x21FFFFFF#32 = .instr (.fadd 0xFF#8 0xFFFF#16) := by decide
theorem witness_DecodeIsTheMatchingRow :
    (∃ r ∈ opcodeTable, rowMatches r 0x31FF0000#32 = true) ∧ ∀ r ∈ opcodeTable, rowMatches r 0x11020000#32 = false := by
  decide
theorem witness_IllegalWordFaults : State.reset.err = 0#4 ∧ ∀ r ∈ opcodeTable, rowMatches r 0xFF000000#32 = false := by
  decide
theorem witness_StepRunsDecodedCommand :
    State.reset.err = 0#4 ∧ (0x52000000#32 : Word) ≠ 0x01000000#32 ∧ decode 0x52000000#32 = .instr .compress ∧
    (∃ why, decode 0xFF000000#32 = .illegal why) ∧ decode 0x01000000#32 = .instr .init ∧ faulted.err ≠ 0#4 := by
  exact ⟨rfl, by decide, by decide, ⟨.unlistedOp, by decide⟩, by decide, by decide +kernel⟩
theorem witness_HostMoves :
    State.reset.host = [] ∧ { State.reset with host := [.read 0x4C] }.host = .read 0x4C :: [] ∧
    ((0x04 : Nat) ≠ 0x00 ∧ { State.reset with host := [.write 0x04 1#32] }.host = .write 0x04 1#32 :: []) ∧
    { State.reset with host := [.reset] }.host = .reset :: [] ∧
    (State.reset.inOpen = false ∧
      { State.reset with host := [.attachIn (input [1#8]).inStore] }.host = .attachIn (input [1#8]).inStore :: []) ∧
    (State.reset.outOpen = false ∧
      { State.reset with host := [.attachOut State.reset.outStore] }.host = .attachOut State.reset.outStore :: []) :=
  ⟨rfl, rfl, ⟨by decide, rfl⟩, rfl, ⟨rfl, rfl⟩, rfl, rfl⟩
theorem witness_RegisterMap :
    (0 < 8 ∧ 7 < 8) ∧ ∀ offset ∈ [0x00, 0x18, 0x1C, 0x50, 0xFFFFFFFF],
      offset ∉ [0x04, 0x08, 0x0C, 0x10, 0x14, 0x20, 0x24, 0x28, 0x2C, 0x30, 0x34, 0x38, 0x3C, 0x40, 0x44, 0x48, 0x4C] := by
  decide
theorem witness_StatusBits : faulted.err ≠ 0#4 ∧ (planted treeV1 State.reset).tree ≠ none ∧ 7 ≤ 7 ∧ 7 ≤ 31 := by
  decide +kernel
theorem witness_InitResetsTheBlock : faulted.err ≠ 0#4 ∧ (0x10000000#32 : Word) ≠ 0x01000000#32 := by decide +kernel
theorem witness_StickyFault : faulted.err ≠ 0#4 ∧ ∀ w ∈ [(0x10000000#32 : Word), 0xFF000000#32], w ≠ 0x01000000#32 := by
  refine ⟨by decide +kernel, fun w hw => ?_⟩
  rcases List.mem_pair.1 hw with rfl | rfl <;> decide
theorem witness_FaultEntry_raises :
    closeR (setPhase (phaseOf .closer) State.reset) = .error ⟨.inClosed, 0#8⟩ (setPhase (phaseOf .closer) State.reset) := rfl
theorem witness_FaultEntry :
    ((writer 0xE0#8 3#3).outOpen = true ∧ (writer 0xE0#8 3#3).bwCnt ≠ 0#3 ∧ Sub.noTree ≠ .outBroken ∧
      (outAsk (writer 0xE0#8 3#3).outStore).ok = true ∧ (writer 0xE0#8 3#3).outStore.plan = []) ∧
    State.reset.outOpen = false ∧ (writer 0#8 0#3).bwCnt = 0#3 ∧ (outAsk (brokenOut (writer 0x80#8 1#3)).outStore).ok = false := by
  decide +kernel
theorem witness_FaultsAreRecorded :
    (∃ t, exec .pending faulted = .next t) ∧ (∃ t, exec .init faulted = .next t) ∧ ∃ t, exec .closew State.reset = .next t :=
  ⟨exec_next _ _, exec_next _ _, exec_next _ _⟩
theorem witness_CommandsRaiseWhatTheyList :
    State.reset.err = 0#4 ∧ exec .closew State.reset = .next (faultEntry 0x14#8 ⟨.outClosed, 0#8⟩ (setPhase .close State.reset)) ∧
    (faultEntry 0x14#8 ⟨.outClosed, 0#8⟩ (setPhase .close State.reset)).err ≠ 0#4 := by
  exact ⟨rfl, rfl, by decide +kernel⟩
theorem witness_EveryCommandEnds : State.reset.pq = [] := rfl

/-- A state with a tree, its invariants shown one by one. -/
theorem planted_inv : Inv (planted treeV2 (reader [0x61#8])) where
  rootInternal := by rintro t h; cases h; rfl
  nodesCounted := by rintro t h; cases h; decide
  pendingLowZero := by intro k _; simp [planted, reader, input, State.reset]
  cursorInside := by intro _; decide
  encFits := by decide
  tableOfTree := by intro h; cases h
  tableEmpty := by intro _ b; exact slotGet_emptyCode b
  ptrNone := by simp [planted]
  ptrInternal := by
    rintro t p h h'
    cases h
    cases h'
    exact ⟨_, _, rfl⟩
  idle := ⟨rfl, rfl⟩
  faultReleased := by intro h; exact absurd rfl h
  closedWriterEmpty := by intro _; exact ⟨rfl, rfl⟩
  errLegal := by decide
  infoClear := by intro _; rfl

theorem planted_mktab : ∃ code, exec .mktab (planted treeV2 (reader [0x61#8])) =
    .next { planted treeV2 (reader [0x61#8]) with code := code, tabValid := true, phase := .idle } := by
  rcases mkTab_cases (setPhase .table (planted treeV2 (reader [0x61#8]))) with ⟨a, _⟩ | ⟨t, v, a, b, _⟩ | ⟨t, code, a, _, _, e⟩
  · cases a
  · cases a
    exact absurd (by decide) b
  · have k := exec_ok (i := .mktab) (s := planted treeV2 (reader [0x61#8])) e
    exact ⟨code, k⟩

theorem witness_StepKeepsInv :
    Inv (planted treeV2 (reader [0x61#8])) ∧
    step (planted treeV2 (reader [0x61#8])) = .next (planted treeV2 (reader [0x61#8])) := ⟨planted_inv, rfl⟩
theorem witness_OutOnlyAppended : ∃ t, exec .openw State.reset = .next t := exec_next _ _
theorem witness_InputNeverWritten : (∃ t, exec .rdbit (reader [1#8]) = .next t) ∧ (reader [1#8]).inStore.plan = [] :=
  ⟨exec_next _ _, rfl⟩
theorem witness_RegisterWriters :
    (∃ t, exec .mktab State.reset = .next t) ∧ opcode .mktab ∉ writersOfResult ∧ opcode .mktab ∉ writersOfCodeword ∧
    opcode .mktab ∉ writersOfPad ∧ opcode .mktab ∉ writersOfTreebits ∧ opcode .mktab ∉ writersOfTree :=
  ⟨exec_next _ _, by decide⟩
theorem witness_TableWriters :
    (∃ t, exec .wrpad State.reset = .next t) ∧ opcode .wrpad ∉ writersOfFreq ∧ opcode .wrpad ∉ writersOfTree ∧
    opcode .wrpad ∉ writersOfPtr ∧ opcode .wrpad ∉ writersOfTable ∧ opcode .wrpad ∉ writersOfEnc :=
  ⟨exec_next _ _, by decide⟩
theorem witness_HandleUsers :
    exec .pending (writer 0x80#8 1#3) = .next { writer 0x80#8 1#3 with result := 1#32 } ∧
    (writer 0x80#8 1#3).err = 0#4 ∧ opcode .pending ∉ usersOfWriter ∧ opcode .pending ∉ usersOfReader :=
  ⟨rfl, by decide⟩
theorem witness_HealthyStoresNeverBreak :
    State.reset.err = 0#4 ∧ inSteady State.reset ∧ outSteady State.reset ∧ ∃ t, exec .compress State.reset = .next t :=
  ⟨rfl, ⟨rfl, rfl⟩, ⟨rfl, rfl⟩, exec_next _ _⟩
theorem witness_DrawsReachNothing :
    ({ reader [] with cfg := { Config.defaultParams with tiePolicy := .fifo } }.cfg.tiePolicy = .fifo ∧
      ∃ t, exec .build { reader [] with cfg := { Config.defaultParams with tiePolicy := .fifo } } = .next t) ∧
    (reader []).cfg.tiePolicy = .any ∧ (Instr.rdbit ≠ .build ∧ Instr.rdbit ≠ .compress) ∧
    ∃ t, exec .rdbit (reader []) = .next t :=
  ⟨⟨rfl, exec_next _ _⟩, rfl, by decide, exec_next _ _⟩
theorem witness_NopDoesNothing : (writer 0x80#8 1#3).phase = .idle ∧ faulted.phase = .idle := by decide +kernel
theorem witness_OpenCommands :
    ((writer 0#8 0#3).outOpen = true ∧ State.reset.outOpen = false ∧ State.reset.outStore.creatable = true ∧
      { State.reset.outStore with creatable := false }.creatable = false) ∧
    ((reader []).inOpen = true ∧ State.reset.inOpen = false ∧ { State.reset.inStore with present := false }.present = false ∧
      State.reset.inStore.present = true ∧ State.reset.inStore.data.length ≤ 2 ^ 32 - 1) := by decide
/-- The boundary of `IN_TOO_LONG`: `LEN_MAX` bytes open, one more does not. -/
theorem witness_OpenCommands_length :
    (input (List.replicate (2 ^ 32) 0#8)).inOpen = false ∧ (input (List.replicate (2 ^ 32) 0#8)).inStore.present = true ∧
    2 ^ 32 - 1 < (input (List.replicate (2 ^ 32) 0#8)).inStore.data.length ∧
    (input (List.replicate (2 ^ 32 - 1) 0#8)).inStore.data.length ≤ 2 ^ 32 - 1 := by
  refine ⟨rfl, rfl, ?_, ?_⟩ <;> simp only [input, List.length_replicate] <;> omega
theorem witness_WrbitWritesOneBit :
    (writer 0#8 0#3).outOpen = true ∧ (writer 0#8 6#3).bwCnt.toNat < 7 ∧ (writer 0xFE#8 7#3).bwCnt.toNat = 7 ∧
    (outAsk (writer 0xFE#8 7#3).outStore).ok = true ∧ (outAsk (brokenOut (writer 0xFE#8 7#3)).outStore).ok = false := by
  decide
theorem witness_WrbyteWritesOneByte :
    ((writer 0x80#8 2#3).outOpen = true ∧ (∀ k, k < 8 - 2 → (0x80#8 : Byte).getLsbD k = false) ∧
      (outAsk (writer 0x80#8 2#3).outStore).ok = true) ∧
    (∀ k, k < 8 - 0 → (0#8 : Byte).getLsbD k = false) ∧ (∀ k, k < 8 - 7 → (0xFE#8 : Byte).getLsbD k = false) ∧
    (outAsk (brokenOut (writer 0x80#8 2#3)).outStore).ok = false := by
  refine ⟨⟨rfl, by decide, rfl⟩, by simp, by decide, rfl⟩
theorem witness_CloseAndRewind :
    ((writer 0#8 0#3).outOpen = true ∧ (writer 0#8 0#3).bwCnt = 0#3) ∧
    ((writer 0xFE#8 7#3).bwCnt ≠ 0#3 ∧ (outAsk (writer 0xFE#8 7#3).outStore).ok = true) ∧
    (outAsk (brokenOut (writer 0x80#8 1#3)).outStore).ok = false ∧ (reader []).inOpen = true := by decide
theorem witness_RdbitReadsOneBit :
    (Readable (reader [0x80#8]) ∧ bitsAhead (reader [0x80#8]) = true :: List.replicate 7 false) ∧
    ((reader []).inOpen = true ∧ (reader []).brAvail = 0 ∧ inLen (reader []) ≤ (reader []).inPos.toNat) ∧
    ((reader [1#8]).brAvail = 0 ∧ (reader [1#8]).inPos.toNat < inLen (reader [1#8]) ∧
      (inAsk { (reader [1#8]).inStore with ok := false } 0).ok = false) :=
  ⟨⟨reader_readable _ (by decide), by decide⟩, by decide, by decide⟩
theorem witness_RdbyteReadsOneByte :
    (Readable (reader [0xA5#8]) ∧ 8 ≤ (bitsAhead (reader [0xA5#8])).length) ∧
    (Readable { reader [0xA5#8] with inPos := 1#32, brAvail := 7 } ∧
      (bitsAhead { reader [0xA5#8] with inPos := 1#32, brAvail := 7 }).length < 8) :=
  ⟨⟨reader_readable _ (by decide), by decide⟩, ⟨rfl, ⟨rfl, rfl⟩, by decide, by decide⟩, by decide⟩
theorem witness_WriterLaw :
    State.reset.err = 0#4 ∧ State.reset.outOpen = false ∧ State.reset.outStore.creatable = true ∧ outSteady State.reset :=
  ⟨rfl, rfl, rfl, rfl, rfl⟩
theorem witness_ReaderLaw :
    (input [1#8, 2#8]).err = 0#4 ∧ (input [1#8, 2#8]).inOpen = false ∧ (input [1#8, 2#8]).inStore.present = true ∧
    inSteady (input [1#8, 2#8]) ∧ inLen (input [1#8, 2#8]) ≤ 2 ^ 32 - 1 ∧ 15 < 8 * inLen (input [1#8, 2#8]) :=
  ⟨rfl, rfl, rfl, ⟨rfl, rfl⟩, by decide, by decide⟩
theorem witness_FclrAndFadd :
    (slotGet (slotSet emptyFreq 5#8 0xFFFFFFFE#32) 5#8).toNat + (1#16 : Half).toNat ≤ 2 ^ 32 - 1 ∧
    2 ^ 32 - 1 < (slotGet (slotSet emptyFreq 5#8 0xFFFFFFFF#32) 5#8).toNat + (1#16 : Half).toNat := by
  rw [slotGet_slotSet_self, slotGet_slotSet_self]
  decide
theorem witness_TallyCountsTheInput :
    Readable (reader [5#8]) ∧
    ∀ b, (slotGet (reader [5#8]).freq b).toNat + (passBytes (reader [5#8])).count b ≤ 2 ^ 32 - 1 := by
  refine ⟨reader_readable _ (by decide), fun b => ?_⟩
  have h0 : slotGet (reader [5#8]).freq b = 0#32 := slotGet_emptyFreq b
  have h1 : passBytes (reader [5#8]) = [5#8] := by decide
  have := List.count_le_length (a := b) (l := [5#8])
  rw [h0, h1]
  simp at this ⊢
  omega
/-- The full slot met at once, and met after a byte that still fits. -/
theorem witness_TallyCountsTheInput_full :
    passBytes (reader [5#8]) = [] ++ 5#8 :: [] ∧ passBytes (reader [6#8, 5#8, 7#8]) = [6#8] ++ 5#8 :: [7#8] ∧
    (∀ b, (slotGet (slotSet emptyFreq 5#8 0xFFFFFFFF#32) b).toNat + [6#8].count b ≤ 2 ^ 32 - 1) ∧
    (slotGet (slotSet emptyFreq 5#8 0xFFFFFFFF#32) 5#8).toNat + [6#8].count 5#8 = 2 ^ 32 - 1 := by
  refine ⟨by decide, by decide, fun b => ?_, by rw [slotGet_slotSet_self]; decide⟩
  rw [slotGet_slotSet, slotGet_emptyFreq]
  by_cases h : b = 5#8
  · subst h
    decide
  · rw [if_neg h]
    have := List.count_le_length (a := b) (l := [6#8])
    simp at this ⊢
    omega

/-- Two entries of one frequency. -/
def twoEntries : State :=
  { State.reset with
    cfg := { Config.defaultParams with tiePolicy := .fifo }
    pq := [{ freq := 1#40, seq := 0#9, node := .leaf 7#8 }, { freq := 1#40, seq := 1#9, node := .leaf 9#8 }] }

theorem witness_RemoveMinTakesTheLeast :
    (∃ x s', removeMin twoEntries = some (x, s')) ∧ twoEntries.cfg.tiePolicy = .fifo ∧ twoEntries.pq ≠ [] ∧
    2 ≤ twoEntries.pq.length :=
  ⟨removeMin_isSome (by decide), rfl, by decide, by decide⟩
theorem nonZeroSlots_eq {f : FreqTable} (p : Byte → Bool) (h : ∀ b, (slotGet f b != 0#32) = p b) :
    nonZeroSlots f = ((List.range 256).map (BitVec.ofNat 8)).filter p := by
  unfold nonZeroSlots
  congr 1
  funext b
  exact h b

/-- Counts in two slots. -/
def twoSlots (x y : Byte) (m n : Word) : FreqTable := slotSet (slotSet emptyFreq x m) y n

theorem twoSlots_nonZero {x y : Byte} {m n : Word} (hm : m ≠ 0#32) (hn : n ≠ 0#32) :
    nonZeroSlots (twoSlots x y m n) = ((List.range 256).map (BitVec.ofNat 8)).filter (fun b => b == x || b == y) := by
  apply nonZeroSlots_eq
  intro b
  rw [twoSlots, slotGet_slotSet, slotGet_slotSet]
  by_cases hy : b = y <;> by_cases hx : b = x <;> simp [hx, hy, hn] <;> simp_all

theorem witness_BuildMakesTheTree :
    nonZeroSlots emptyFreq = [] ∧ nonZeroSlots (twoSlots 0xFF#8 0xFF#8 1#32 1#32) = [0xFF#8] ∧
    2 ≤ (nonZeroSlots (twoSlots 0#8 0xFF#8 1#32 1#32)).length := by
  refine ⟨?_, ?_, ?_⟩
  · rw [nonZeroSlots_eq (fun _ => false) (fun b => by rw [slotGet_emptyFreq]; rfl)]
    simp
  · rw [twoSlots_nonZero (by decide) (by decide)]
    decide +kernel
  · rw [twoSlots_nonZero (by decide) (by decide)]
    decide +kernel
theorem witness_TwoSlotsByCount :
    nonZeroSlots (twoSlots 0x61#8 0x62#8 100#32 1#32) = [0x61#8, 0x62#8] ∧
    (slotGet (twoSlots 0x61#8 0x62#8 100#32 1#32) 0x62#8).toNat < (slotGet (twoSlots 0x61#8 0x62#8 100#32 1#32) 0x61#8).toNat ∧
    ∃ t, exec .build { State.reset with freq := twoSlots 0x61#8 0x62#8 100#32 1#32 } = .next t := by
  refine ⟨?_, ?_, exec_next _ _⟩
  · rw [twoSlots_nonZero (by decide) (by decide)]
    decide +kernel
  · rw [twoSlots, slotGet_slotSet, slotGet_slotSet, slotGet_slotSet]
    decide
theorem witness_MktabRecordsThePaths :
    (planted treeV2 State.reset).tree = some treeV2 ∧ (leafBytes treeV2).Nodup ∧
    leafBytes (.internal (.leaf 1#8) (.internal (.leaf 2#8) (.leaf 1#8))) = [1#8, 2#8] ++ 1#8 :: [] ∧
    [1#8, 2#8].Nodup ∧ 1#8 ∈ [1#8, 2#8] := by decide
theorem witness_CodewordsArePrefixFree :
    ∃ s t, Inv s ∧ exec .mktab s = .next t ∧ t.tabValid = true ∧ t.err = 0#4 := by
  obtain ⟨code, h⟩ := planted_mktab
  exact ⟨_, _, planted_inv, h, rfl, rfl⟩
theorem witness_LookupShowsTheCodeword :
    slotGet (slotSet emptyCode 0x62#8 (some (List.replicate 255 true))) 0x62#8 = some (List.replicate 255 true) ∧
    (List.replicate 255 true).length ≤ 255 ∧ slotGet emptyCode 0x62#8 = none := by
  rw [slotGet_slotSet_self, slotGet_emptyCode, List.length_replicate]
  exact ⟨rfl, Nat.le_refl _, rfl⟩
/-- V2's counts, merged by hand: 1 and 2 first, then their sum 3 and 4. -/
theorem test_greedyMerge :
    GreedyMerge [(4, .leaf 0x61#8), (2, .leaf 0x62#8), (1, .leaf 0x63#8)] treeV2 :=
  .merge (x := (1, .leaf 0x63#8)) (y := (2, .leaf 0x62#8)) (rest := [(4, .leaf 0x61#8)]) (by decide) (by decide) (by decide)
    (.merge (x := (3, .internal (.leaf 0x63#8) (.leaf 0x62#8))) (y := (4, .leaf 0x61#8)) (rest := []) (by decide) (by decide)
      (by decide) (.done _ _))
/-- `ENCODE` stops at 0x63, after the codeword of 0x62: no entry, or no room for a second bit. -/
theorem witness_EncodingAppendsCodewords_stops :
    passBytes (reader [0x62#8, 0x63#8]) = [0x62#8] ++ 0x63#8 :: [] ∧
    (∀ b ∈ [0x62#8], slotGet (slotSet emptyCode 0x62#8 (some [true])) b ≠ none) ∧
    ([] : Bits).length + (codesOf (slotSet emptyCode 0x62#8 (some [true])) [0x62#8]).length ≤ (1#32 : Word).toNat ∧
    slotGet (slotSet emptyCode 0x62#8 (some [true])) 0x63#8 = none ∧
    slotGet (slotSet (slotSet emptyCode 0x62#8 (some [true])) 0x63#8 (some [false])) 0x63#8 = some [false] ∧
    (1#32 : Word).toNat < ([] : Bits).length + [true].length + [false].length := by
  refine ⟨by decide, fun b hb => ?_, ?_, ?_, slotGet_slotSet_self _ _ _, by decide⟩
  · rw [List.mem_singleton.1 hb, slotGet_slotSet_self]
    exact fun h => by cases h
  · simp [codesOf, slotGet_slotSet_self]
  · rw [slotGet_slotSet, slotGet_emptyCode]
    rfl
theorem witness_EncodingAppendsCodewords :
    slotGet emptyCode 0x62#8 = none ∧ slotGet (slotSet emptyCode 0x62#8 (some [true])) 0x62#8 = some [true] ∧
    (0#32 : Word).toNat < ([] : Bits).length + [true].length ∧ ([] : Bits).length + [true].length ≤ (1#32 : Word).toNat ∧
    Readable (reader [0x62#8]) ∧ passBytes (reader [0x62#8]) = [0x62#8] ∧
    (∀ b ∈ [0x62#8], slotGet (slotSet emptyCode 0x62#8 (some [true])) b ≠ none) := by
  refine ⟨slotGet_emptyCode _, slotGet_slotSet_self _ _ _, by decide, by decide, reader_readable _ (by decide), by decide, ?_⟩
  intro b hb
  rw [List.mem_singleton.1 hb, slotGet_slotSet_self]
  exact fun h => by cases h
theorem witness_TableNeverOutlivesTheTree : ∃ t, exec .build State.reset = .next t := exec_next _ _
theorem witness_SertreeWritesTheTree :
    (planted treeV1 (writer 0#8 0#3)).tree = some treeV1 ∧ (planted treeV1 (writer 0#8 0#3)).outOpen = true ∧
    outSteady (planted treeV1 (writer 0#8 0#3)) := ⟨rfl, rfl, rfl, rfl⟩
theorem witness_DestreeReadsTheTree :
    Readable (reader [0x58#8, 0x6C#8, 0x40#8]) ∧ (reader [0x58#8, 0x6C#8, 0x40#8]).brEof = false ∧
    bitsAhead (reader [0x58#8, 0x6C#8, 0x40#8]) = ser treeV1 ++ List.replicate 5 false ∧ isInternal treeV1 = true ∧
    treeNodes treeV1 ≤ 511 ∧ treeNodes (fullTree 8) = 511 :=
  ⟨reader_readable _ (by decide), rfl, by decide, rfl, by decide, by decide⟩
theorem witness_DestreeRefusals :
    (Readable (reader [0x58#8]) ∧ bitsAhead (reader [0x58#8]) ++ (ser treeV1).drop 8 = ser treeV1 ∧
      (ser treeV1).drop 8 ≠ [] ∧ treeNodes treeV1 ≤ 511) ∧
    bitsAhead (reader [0xB0#8, 0x80#8]) = true :: (byteBits 0x61#8 ++ List.replicate 7 false) ∧
    511 < treeNodes (fullTree 9) ∧ Readable { reader [] with brEof := true } :=
  ⟨⟨reader_readable _ (by decide), by decide, by decide, by decide⟩, by decide, by decide, rfl, ⟨rfl, rfl⟩, by decide, by decide⟩
theorem bitsOf_wholeBytes (n : Nat) (bs : Bits) (h : bs.length = 8 * n) : bitsOf (wholeBytes bs) = bs := by
  induction n generalizing bs with
  | zero => rw [List.length_eq_zero_iff.1 h]; rfl
  | succ n ih =>
    rw [wholeBytes_step (by omega), bitsOf_cons, ih _ (by rw [List.length_drop]; omega)]
    match bs, h with
    | b7 :: b6 :: b5 :: b4 :: b3 :: b2 :: b1 :: b0 :: rest, _ =>
      exact congrArg (fun l => l ++ rest) (byteBits_byteOfBits b7 b6 b5 b4 b3 b2 b1 b0)

/-- A store whose bits begin with a tree of 1023 nodes, and one bit more. -/
theorem witness_DestreeRefusals_tooBig :
    ∃ bytes : List Byte, Readable (reader bytes) ∧ bitsAhead (reader bytes) = ser (fullTree 9) ++ [false] := by
  have hl : (ser (fullTree 9) ++ [false]).length = 8 * 640 := by
    rw [List.length_append, ser_length]
    decide
  have hb := bitsOf_wholeBytes 640 _ hl
  refine ⟨wholeBytes (ser (fullTree 9) ++ [false]), reader_readable _ ?_, hb⟩
  have := congrArg List.length hb
  rw [bitsOf_length, hl] at this
  omega
theorem witness_WrpadAndWrenc :
    ((writer 0x80#8 1#3).outOpen = true ∧ outSteady (writer 0x80#8 1#3)) ∧
    (brokenOut (writer 0x80#8 1#3)).outOpen = true ∧ (outAsk (brokenOut (writer 0x80#8 1#3)).outStore).ok = false ∧
    8 ≤ (writer 0x80#8 1#3).bwCnt.toNat + (List.replicate 7 true).length :=
  ⟨⟨rfl, rfl, rfl⟩, rfl, rfl, by decide⟩
/-- Two bytes, each once: any tree has two leaves, so two bits of payload. -/
theorem ab_payload {T : HuffTree} (h : BuildsFrom [0x61#8, 0x62#8] T) : (payloadOf T [0x61#8, 0x62#8]).length ≤ 2 := by
  obtain ⟨f, t, hf, hg, rfl⟩ := h
  have hn : nonZeroSlots f = [0x61#8, 0x62#8] := by
    rw [nonZeroSlots_eq (fun b => b == 0x61#8 || b == 0x62#8)]
    · decide +kernel
    · intro b
      have h0 : slotGet f b = BitVec.ofNat 32 ([0x61#8, 0x62#8].count b) := by
        rw [← hf b]
        simp
      have h1 : ∀ b : Byte, (BitVec.ofNat 32 ([0x61#8, 0x62#8].count b) != 0#32) = (b == 0x61#8 || b == 0x62#8) := by
        decide +kernel
      rw [h0, h1]
  have hl : treeLeaves t = 2 := by
    rw [← leafBytes_length, hg.leafBytes_perm.length_eq, leafQueue, hn]
    rfl
  have hr : rootOf t = t := by
    cases t with
    | leaf b => cases hl
    | internal l r => rfl
  have := payloadOf_length_le_leaves t [0x61#8, 0x62#8]
  rw [hl] at this
  rw [hr]
  exact this
/-- `ENC_CAP` exactly filled. -/
theorem witness_CompressWritesTheFile :
    let s := { input [0x61#8, 0x62#8] with cfg := { Config.defaultParams with encCap := 2#32 } }
    s.inOpen = false ∧ s.outOpen = false ∧ s.inStore.present = true ∧ s.outStore.creatable = true ∧ inSteady s ∧
    outSteady s ∧ s.inStore.data ≠ [] ∧ s.inStore.data.length ≤ 2 ^ 32 - 1 ∧
    ∀ T, BuildsFrom s.inStore.data T → (payloadOf T s.inStore.data).length ≤ s.cfg.encCap.toNat :=
  ⟨rfl, rfl, rfl, rfl, ⟨rfl, rfl⟩, ⟨rfl, rfl⟩, by decide, by decide, fun _ h => ab_payload h⟩
theorem witness_CompressRefusals :
    State.reset.inOpen = false ∧ State.reset.outOpen = false ∧
    (State.reset.inStore.present = true ∧ State.reset.outStore.creatable = true ∧ State.reset.inStore.data = []) ∧
    { State.reset.inStore with present := false }.present = false ∧
    { State.reset.outStore with creatable := false }.creatable = false := by decide
theorem witness_RdpadReadsTheCount :
    Readable (reader [7#8]) ∧ (reader [7#8]).brEof = false ∧ bitsAhead (reader [7#8]) = byteBits 7#8 ++ [] ∧
    (7#8 : Byte).toNat ≤ 7 ∧ 7 < (8#8 : Byte).toNat ∧ bitsAhead (reader [8#8]) = byteBits 8#8 ++ [] ∧
    (bitsAhead (reader [])).length < 8 ∧ { reader [7#8] with brEof := true }.brEof = true :=
  ⟨reader_readable _ (by decide), rfl, by decide, by decide, by decide, by decide, by decide, rfl⟩
theorem witness_DecbitTakesOneStep :
    nodeAt treeV2 [] = some (.internal (.internal (.leaf 0x63#8) (.leaf 0x62#8)) (.leaf 0x61#8)) ∧
    (planted treeV2 (writer 0#8 0#3)).tree = some treeV2 ∧ (planted treeV2 (writer 0#8 0#3)).ptr = some [] ∧
    (planted treeV2 (writer 0#8 0#3)).outOpen = true ∧ outSteady (planted treeV2 (writer 0#8 0#3)) ∧
    (planted treeV2 State.reset).outOpen = false := ⟨rfl, rfl, rfl, rfl, ⟨rfl, rfl⟩, rfl⟩
theorem witness_DecodeReplaysThePayload :
    let s := planted treeV2 { writer 0#8 0#3 with
      inStore := { State.reset.inStore with data := [0x1C#8] }, inOpen := true, pad := 7#3 }
    Readable s ∧ s.tree = some treeV2 ∧ isInternal treeV2 = true ∧ s.outOpen = true ∧ outSteady s :=
  ⟨⟨rfl, ⟨rfl, rfl⟩, by decide, by decide⟩, rfl, rfl, rfl, rfl, rfl⟩
theorem witness_DecompressReplaysTheFile :
    let s := input [0x58#8, 0x6C#8, 0x40#8, 0x20#8]
    s.inOpen = false ∧ s.outOpen = false ∧ s.inStore.present = true ∧ s.outStore.creatable = true ∧ inSteady s ∧
    outSteady s ∧ s.inStore.data.length ≤ 2 ^ 32 - 1 ∧ isInternal treeV1 = true ∧ treeNodes treeV1 ≤ 511 ∧
    (1#8 : Byte).toNat ≤ 7 ∧ bitsOf s.inStore.data = ser treeV1 ++ byteBits 1#8 ++ List.replicate 5 false :=
  ⟨rfl, rfl, rfl, rfl, ⟨rfl, rfl⟩, ⟨rfl, rfl⟩, by decide, rfl, by decide, by decide, by decide⟩
theorem witness_DecompressRefusesTruncation :
    let s := input [0x58#8, 0x6C#8]
    s.inOpen = false ∧ s.outOpen = false ∧ s.inStore.present = true ∧ s.outStore.creatable = true ∧ inSteady s ∧
    s.inStore.data.length ≤ 2 ^ 32 - 1 ∧ treeNodes treeV1 ≤ 511 ∧ (ser treeV1).drop 16 ≠ [] ∧
    bitsOf s.inStore.data ++ (ser treeV1).drop 16 = ser treeV1 :=
  ⟨rfl, rfl, rfl, rfl, ⟨rfl, rfl⟩, by decide, by decide, by decide, by decide⟩
/-- V1, then V40. -/
theorem witness_RoundTrip :
    ∃ s u s' u', inSteady s ∧ outSteady s ∧ exec .compress s = .next u ∧ u.err = 0#4 ∧
      s'.inStore.data = u.outStore.data ∧ inSteady s' ∧ outSteady s' ∧ exec .decompress s' = .next u' ∧ u'.err = 0#4 := by
  obtain ⟨u, h⟩ := exec_next .compress (input [0x61#8, 0x61#8, 0x61#8, 0x61#8])
  have a : (after .compress (input [0x61#8, 0x61#8, 0x61#8, 0x61#8])).map (fun t => t.err) = some 0#4 := by decide +kernel
  have d : (after .compress (input [0x61#8, 0x61#8, 0x61#8, 0x61#8])).map (fun t => t.outStore.data) =
      some [0x58#8, 0x6C#8, 0x40#8, 0x20#8] := by decide +kernel
  obtain ⟨u', h'⟩ := exec_next .decompress (input [0x58#8, 0x6C#8, 0x40#8, 0x20#8])
  have a' : (after .decompress (input [0x58#8, 0x6C#8, 0x40#8, 0x20#8])).map (fun t => t.err) = some 0#4 := by
    decide +kernel
  simp only [after, h, Option.map_some, Option.some.injEq] at a d
  simp only [after, h', Option.map_some, Option.some.injEq] at a'
  exact ⟨_, u, _, u', ⟨rfl, rfl⟩, ⟨rfl, rfl⟩, h, a, d.symm, ⟨rfl, rfl⟩, ⟨rfl, rfl⟩, h', a'⟩
theorem witness_MacrosLeaveNothing :
    ∃ t, exec .decompress (input [0x58#8, 0x6C#8, 0x40#8, 0x20#8]) = .next t ∧ t.err = 0#4 := by
  obtain ⟨u', h'⟩ := exec_next .decompress (input [0x58#8, 0x6C#8, 0x40#8, 0x20#8])
  have a' : (after .decompress (input [0x58#8, 0x6C#8, 0x40#8, 0x20#8])).map (fun t => t.err) = some 0#4 := by
    decide +kernel
  simp only [after, h', Option.map_some, Option.some.injEq] at a'
  exact ⟨u', h', a'⟩
theorem witness_MissingPreconditions :
    State.reset.inOpen = false ∧ State.reset.outOpen = false ∧ State.reset.tree = none ∧
    (planted treeV1 State.reset).tree ≠ none ∧ { State.reset with enc := [true] }.enc ≠ [] ∧ (reader []).inOpen = true ∧
    (writer 0#8 0#3).outOpen = true := by decide
/-- The codeword 00 of 0x63 before the bits 11, and the one bit 0, which ends inside the tree. -/
theorem witness_DecodeWithoutWriter :
    let s := { planted treeV2 (reader [0x30#8]) with pad := 4#3 }
    let s' := { planted treeV2 (reader [0x30#8]) with pad := 7#3 }
    (Readable s ∧ s.tree = some treeV2 ∧ isInternal treeV2 = true ∧ s.outOpen = false ∧
      (bitsAhead s).take ((bitsAhead s).length - s.pad.toNat) = [false, false] ++ [true, true] ∧
      nodeAt treeV2 [false, false] = some (.leaf 0x63#8)) ∧
    Readable s' ∧ nodeAt treeV2 ((bitsAhead s').take ((bitsAhead s').length - s'.pad.toNat)) =
      some (.internal (.leaf 0x63#8) (.leaf 0x62#8)) :=
  ⟨⟨⟨rfl, ⟨rfl, rfl⟩, by decide, by decide⟩, rfl, rfl, rfl, by decide, by decide⟩,
    ⟨rfl, ⟨rfl, rfl⟩, by decide, by decide⟩, by decide⟩

end Sys2Proof.Tests
end

section
/-! PROOFS. The state of the block (10_state.md): what the host's moves and reads give (R25, R40 to R42, R76), what
every command leaves alone (R20 to R38), that every command ends (R269), and the invariants of R44 along every step. -/

namespace Sys2Proof.Machine

/-! ## Registers (R25, R40, R42) -/

/-- A register narrower than 32 bits reads with zeros above it, here spelled as the spec's `{0, r}` (R23, R26, R28). -/
theorem setWidth_eq_zero_append {v w : Nat} (x : BitVec w) : x.setWidth (v + w) = 0#v ++ x := by
  simpa using BitVec.setWidth_eq_append (x := x) (Nat.le_add_left w v)

/-- `CBITSk` stands at offset `0x20 + 4k` (R40). -/
theorem regRead_cbits (s : State) {k : Nat} (hk : k < 8) :
    regRead (0x20 + 4 * k) s = s.cbits.extractLsb' (224 - 32 * k) 32 := by
  interval_cases k <;> rfl

/-- The offsets of R40 that show something; `CMD` is not among them. -/
def readableOffsets : List Nat :=
  [0x04, 0x08, 0x0C, 0x10, 0x14, 0x20, 0x24, 0x28, 0x2C, 0x30, 0x34, 0x38, 0x3C, 0x40, 0x44, 0x48, 0x4C]

theorem regRead_unlisted (s : State) {offset : Nat} (h : offset ∉ readableOffsets) : regRead offset s = 0#32 := by
  unfold regRead
  split
  case h_18 => rfl
  all_goals exact absurd (by decide) h

/-- Settles O8: each listed offset by the map of R40, the others by `regRead_unlisted`. -/
theorem registerMap : Obligations.RegisterMap := fun s =>
  ⟨rfl, rfl, setWidth_eq_zero_append s.err, rfl, rfl, setWidth_eq_zero_append s.clen, fun _ => regRead_cbits s,
    setWidth_eq_zero_append s.pad, setWidth_eq_zero_append s.treebits, rfl, setWidth_eq_zero_append s.nnodes,
    fun _ => regRead_unlisted s⟩

/-- The seven bits of `STATUS`, from six flags and a 0 for `BUSY` (R25). -/
theorem getLsbD_statusWord (s : State) (k : Nat) :
    (statusWord s).getLsbD k =
      [false, faultPending s, s.inOpen, s.outOpen, treeValid s, s.tabValid, s.brEof].getD k false := by
  have flags : ∀ (eof tab tree out inp err : Bool) (k : Fin 7),
      ((BitVec.ofBool eof ++ BitVec.ofBool tab ++ BitVec.ofBool tree ++ BitVec.ofBool out ++ BitVec.ofBool inp ++
        BitVec.ofBool err ++ 0#1).setWidth 32).getLsbD k = [false, err, inp, out, tree, tab, eof].getD k false := by
    decide +kernel
  by_cases hk : k < 7
  · exact flags _ _ _ _ _ _ ⟨k, hk⟩
  · have hlow : (statusWord s).getLsbD k = false := by
      rw [statusWord, BitVec.getLsbD_setWidth, BitVec.getLsbD_of_ge _ k (by omega), Bool.and_false]
    rw [hlow, List.getD_eq_default _ _ (by simpa using hk)]

theorem faultPending_iff (s : State) : faultPending s = true ↔ s.err ≠ 0#4 := by
  simp [faultPending]

theorem treeValid_iff (s : State) : treeValid s = true ↔ s.tree ≠ none := by
  simp [treeValid, Option.isSome_iff_ne_none]

/-- Settles O9, each bit read off `getLsbD_statusWord`. -/
theorem statusBits : Obligations.StatusBits := by
  intro s
  have bit := getLsbD_statusWord s
  refine ⟨rfl, fun _ => rfl, bit 0, ?_, bit 2, bit 3, ?_, bit 5, bit 6, fun k hk => ?_⟩
  · exact (bit 1) ▸ faultPending_iff s
  · exact (bit 4) ▸ treeValid_iff s
  · rw [bit k, List.getD_eq_default _ _ hk]

theorem regRead_reset (offset : Nat) : regRead offset State.reset = 0#32 := by
  unfold regRead
  split <;> rfl

/-- Settles O10: the registers by `regRead_reset`, the elements by the values written in `State.reset`. -/
theorem resetValues : Obligations.ResetValues :=
  ⟨regRead_reset, rfl, rfl, rfl, rfl, rfl, rfl, rfl, rfl, rfl, rfl, rfl, slotGet_emptyFreq, rfl, rfl,
    slotGet_emptyCode, rfl, rfl, rfl⟩

/-! ## The host's moves (R76) -/

/-- With a move pending, a step is that move. -/
theorem step_of_host {s : State} {op : HostOp} {rest : List HostOp} (h : s.host = op :: rest) :
    step s = hostStep op { s with host := rest } := by
  simp only [step, nextMove, h]

theorem step_idle {s : State} (h : s.host = []) : step s = .next s := by
  simp only [step, nextMove, h]

theorem hostStep_write_ignored {offset : Nat} (h : offset ≠ 0x00) (w : Word) (s : State) :
    hostStep (.write offset w) s = .next s := if_neg h

/-- `INIT` is hardware reset (R121, R290, R291). -/
theorem exec_init (s : State) : exec .init s = .next (resetBlock s) := rfl

/-- Settles O7: a step is the pending move (`step_of_host`), and each move by its arm of `hostStep`. -/
theorem hostMoves : Obligations.HostMoves := by
  intro s
  refine ⟨step_idle, fun offset rest h => step_of_host h, fun offset w rest ho h => ?_, fun rest h => step_of_host h,
    fun st rest hc h => ?_, fun st rest hc h => ?_⟩
  · rw [step_of_host h, hostStep_write_ignored ho]
  · rw [step_of_host h]
    exact if_pos (by simp [mayAttachIn, hc])
  · rw [step_of_host h]
    exact if_pos (by simp [mayAttachOut, hc])

/-! ## The invariants of R44 -/

/-- Settles O17: the reset state is what a reset of the block leaves. -/
theorem resetMeetsInv : Obligations.ResetMeetsInv := (live_resetBlock State.reset).inv

/-- The host's own fields and the bound stores are outside the block: only an open reader's cursor ties the invariants
to one of them, the input store (R44(d)). -/
theorem Inv.outside {s : State} (hi : Inv s) (st : InStore) (o : OutStore) (ops : List HostOp) (v : Word)
    (hc : s.inOpen = true → s.inPos.toNat ≤ st.data.length ∧ st.data.length ≤ Config.lenMax) :
    Inv { s with inStore := st, outStore := o, host := ops, rdata := v } :=
  { hi with cursorInside := hc }

/-- What holds between commands holds where an illegal word raises (R94). -/
theorem Inv.hurt {s : State} (hi : Inv s) (p : Phase) : Hurt (setPhase p s) :=
  { hi with }

theorem mayAttachIn_cursor {st : InStore} {s : State} (h : mayAttachIn st s = true) (ho : s.inOpen = true) :
    s.inPos.toNat ≤ st.data.length ∧ st.data.length ≤ Config.lenMax := by
  simpa [mayAttachIn, ho] using h

theorem exec_inv {i : Instr} {s t : State} (hi : Inv s) (h0 : s.err = 0#4) (h : exec i s = .next t) : Inv t :=
  runCommand_inv (bodyOf_sound i) hi h0 (by rw [← exec_eq, h])

/-- The four ways of the issue rule (R122): `INIT`, a word ignored, an illegal word, a command. -/
theorem issue_inv {w : Word} {s t : State} (hi : Inv s) (h : issue w s = .next t) : Inv t := by
  by_cases hw : w = initWord
  · rw [issue, if_pos hw, exec_init] at h
    cases h
    exact (live_resetBlock s).inv
  · by_cases h0 : s.err = 0#4
    · rw [issue_decoded hw h0] at h
      cases hd : decode w with
      | illegal why =>
        rw [hd] at h
        cases h
        exact (hi.hurt .misc).inv _ _
      | instr i =>
        rw [hd] at h
        exact exec_inv hi h0 h
    · rw [issue_sticky hw h0] at h
      cases h
      exact hi

theorem hostStep_inv {op : HostOp} {s t : State} (hi : Inv s) (h : hostStep op s = .next t) : Inv t := by
  cases op with
  | write offset w =>
    by_cases ho : offset = cmdOffset
    · rw [hostStep, if_pos ho] at h
      exact issue_inv hi h
    · rw [hostStep_write_ignored ho] at h
      cases h
      exact hi
  | read offset =>
    cases h
    exact hi.outside s.inStore s.outStore s.host _ hi.cursorInside
  | attachIn st =>
    by_cases ha : mayAttachIn st s = true
    · rw [hostStep, if_pos ha] at h
      cases h
      exact hi.outside st s.outStore s.host s.rdata (mayAttachIn_cursor ha)
    · rw [hostStep, if_neg ha] at h
      cases h
  | attachOut st =>
    by_cases ha : mayAttachOut st s = true
    · rw [hostStep, if_pos ha] at h
      cases h
      exact hi.outside s.inStore st s.host s.rdata hi.cursorInside
    · rw [hostStep, if_neg ha] at h
      cases h
  | reset =>
    cases h
    exact (live_resetBlock s).inv

/-- Settles O18: the host's next move keeps the invariants, a command because its body is sound. -/
theorem stepKeepsInv : Obligations.StepKeepsInv := by
  intro s t hi h
  cases hh : s.host with
  | nil =>
    rw [step_idle hh] at h
    cases h
    exact hi
  | cons op rest =>
    rw [step_of_host hh] at h
    exact hostStep_inv (hi.outside s.inStore s.outStore rest s.rdata hi.cursorInside) h

/-! ## What every command keeps

A relation that holds between the start and the end of every command's body, also of those that reset the block. -/

/-- What is outside the block stays; `ERR` and `ERRINFO` stay or are cleared together; an empty queue stays empty. -/
structure BodyKeeps (s t : State) : Prop where
  outside : t.cfg = s.cfg ∧ t.host = s.host ∧ t.rdata = s.rdata
  fault : (t.err = s.err ∧ t.errinfo = s.errinfo) ∨ (t.err = 0#4 ∧ t.errinfo = 0#32)
  queue : s.pq = [] → t.pq = []

/-- An update of none of these fields is within the relation. -/
theorem BodyKeeps.of_eq {s t : State}
    (h : (t.cfg, t.host, t.rdata, t.err, t.errinfo, t.pq) = (s.cfg, s.host, s.rdata, s.err, s.errinfo, s.pq)) :
    BodyKeeps s t := by
  simp only [Prod.mk.injEq] at h
  obtain ⟨hcfg, hhost, hrdata, herr, hinfo, hpq⟩ := h
  exact ⟨⟨hcfg, hhost, hrdata⟩, .inl ⟨herr, hinfo⟩, fun h0 => hpq.trans h0⟩

theorem BodyKeeps.trans {a b c : State} (h1 : BodyKeeps a b) (h2 : BodyKeeps b c) : BodyKeeps a c where
  outside := by
    obtain ⟨k1, k2, k3⟩ := h1.outside
    obtain ⟨l1, l2, l3⟩ := h2.outside
    exact ⟨l1.trans k1, l2.trans k2, l3.trans k3⟩
  fault := by
    rcases h2.fault with ⟨e, i⟩ | hz
    · rw [e, i]
      exact h1.fault
    · exact .inr hz
  queue h := h2.queue (h1.queue h)

theorem bodyKeeps_updates : Updates BodyKeeps where
  refl _ := .of_eq rfl
  trans _ _ _ := BodyKeeps.trans
  reader := by
    rintro s _ ⟨_, _, _, _, _, _, _, _, rfl, _⟩
    exact .of_eq rfl
  writer := by
    rintro s _ ⟨_, _, _, _, _, rfl, _⟩
    exact .of_eq rfl
  openW _ := .of_eq rfl
  openR _ := .of_eq rfl
  rewind _ := .of_eq rfl
  closeR _ := .of_eq rfl
  closeW _ := .of_eq rfl
  reset _ := ⟨⟨rfl, rfl, rfl⟩, .inr ⟨rfl, rfl⟩, fun _ => rfl⟩
  phase _ _ := .of_eq rfl
  results _ _ _ _ := .of_eq rfl
  counters _ _ _ := .of_eq rfl
  freq _ _ := .of_eq rfl
  enc _ _ := .of_eq rfl
  table _ _ _ := .of_eq rfl
  ptr _ _ := .of_eq rfl
  tree _ _ _ _ _ _ := .of_eq rfl
  build _ _ _ _ _ _ _ := ⟨⟨rfl, rfl, rfl⟩, .inl ⟨rfl, rfl⟩, fun _ => rfl⟩

/-! ## The frame of a command -/

/-- The state with everything blanked that the rule of command `i` may write (the lists of Safety.lean), and with it the
queue and the count of draws, for which there are no lists. What is left is the frame of `i`. -/
def frameOf (i : Instr) (s : State) : State :=
  { s with
    result := if opcode i ∈ writersOfResult then 0#32 else s.result
    clen := if opcode i ∈ writersOfCodeword then 0#8 else s.clen
    cbits := if opcode i ∈ writersOfCodeword then 0#256 else s.cbits
    pad := if opcode i ∈ writersOfPad then 0#3 else s.pad
    treebits := if opcode i ∈ writersOfTreebits then 0#12 else s.treebits
    nnodes := if opcode i ∈ writersOfTree then 0#9 else s.nnodes
    tree := if opcode i ∈ writersOfTree then none else s.tree
    ptr := if opcode i ∈ writersOfPtr then none else s.ptr
    freq := if opcode i ∈ writersOfFreq then emptyFreq else s.freq
    code := if opcode i ∈ writersOfTable then emptyCode else s.code
    tabValid := if opcode i ∈ writersOfTable then false else s.tabValid
    enc := if opcode i ∈ writersOfEnc then [] else s.enc
    outOpen := if opcode i ∈ usersOfWriter then false else s.outOpen
    bwBuf := if opcode i ∈ usersOfWriter then 0#8 else s.bwBuf
    bwCnt := if opcode i ∈ usersOfWriter then 0#3 else s.bwCnt
    outStore := if opcode i ∈ usersOfWriter then State.reset.outStore else s.outStore
    inOpen := if opcode i ∈ usersOfReader then false else s.inOpen
    inPos := if opcode i ∈ usersOfReader then 0#32 else s.inPos
    brBuf := if opcode i ∈ usersOfReader then 0#8 else s.brBuf
    brAvail := if opcode i ∈ usersOfReader then 0 else s.brAvail
    brEof := if opcode i ∈ usersOfReader then false else s.brEof
    inStore := if opcode i ∈ usersOfReader then State.reset.inStore else s.inStore
    pq := []
    draws := 0 }

/-- A command's body keeps its frame, however it ends. -/
theorem bodyOf_frame {i : Instr} (h0 : opcode i ∉ resetters) : Keeps (frameOf i) (bodyOf i) := by
  refine bodyOf_keeps i h0 (fun h => ⟨?_, ?_⟩) (fun h => ⟨?_, ?_⟩) ?_ ?_ ?_ ?_ ?_ ?_ ?_ ?_ ?_
  · rintro s _ ⟨_, _, _, _, _, _, _, _, rfl, _⟩
    simp only [frameOf, if_pos h]
  · intro s _ _ _ _ _
    simp only [frameOf, if_pos h]
  · rintro s _ ⟨_, _, _, _, _, rfl, _⟩
    simp only [frameOf, if_pos h]
  · intro s _ _ _ _
    simp only [frameOf, if_pos h]
  all_goals
    intro h
    intros
    simp only [frameOf, if_pos h]

/-- The two ways a command ends (R122): well, or in fault entry, each from an end state `s'` of its body that keeps what
every body keeps and, unless the command resets the block, the command's frame. -/
theorem exec_cases (i : Instr) (s : State) :
    ∃ s', BodyKeeps s s' ∧ (opcode i ∉ resetters → frameOf i s' = frameOf i (setPhase (phaseOf i) s)) ∧
      (exec i s = .next (setPhase .idle s') ∨ ∃ c, exec i s = .next (faultEntry (opcode i) c s')) := by
  have hb : BodyKeeps s (endState (bodyOf i (setPhase (phaseOf i) s))) :=
    (bodyKeeps_updates.phase s (phaseOf i)).trans (bodyKeeps_updates.body i _)
  have hk := fun h0 : opcode i ∉ resetters => bodyOf_frame h0 (setPhase (phaseOf i) s)
  rw [exec_eq]
  rcases runCommand_cases i (bodyOf i) s with ⟨s', e, e'⟩ | ⟨c, s', e, e'⟩ <;> rw [e] at hb hk
  · exact ⟨s', hb, hk, .inl e'⟩
  · exact ⟨s', hb, hk, .inr ⟨c, e'⟩⟩

/-- Settles O16: a command ends well or in fault entry, and both leave `PHASE` idle and no queue. -/
theorem everyCommandEnds : Obligations.EveryCommandEnds := by
  intro i s
  obtain ⟨s', hb, _, e | ⟨c, e⟩⟩ := exec_cases i s
  · exact ⟨_, e, rfl, hb.queue⟩
  · exact ⟨_, e, rfl, fun _ => rfl⟩

/-- The state with everything blanked that the frame of R122 writes: `PHASE`, and what fault entry writes (R256). -/
def blankFault (s : State) : State :=
  { s with
    err := 0#4, errinfo := 0#32, phase := .idle, inOpen := false, outOpen := false, bwBuf := 0#8, bwCnt := 0#3
    outStore := State.reset.outStore, pq := [] }

/-- A command keeps the part of its frame that fault entry cannot write, fault or not. -/
theorem exec_frame {i : Instr} {s t : State} (h0 : opcode i ∉ resetters) (h : exec i s = .next t) :
    blankFault (frameOf i t) = blankFault (frameOf i s) := by
  obtain ⟨s', _, hk, e | ⟨c, e⟩⟩ := exec_cases i s <;> rw [e] at h <;> cases h
  · calc blankFault (frameOf i (setPhase .idle s')) = blankFault (frameOf i s') := rfl
      _ = blankFault (frameOf i (setPhase (phaseOf i) s)) := congrArg blankFault (hk h0)
      _ = blankFault (frameOf i s) := rfl
  · calc blankFault (frameOf i (faultEntry (opcode i) c s')) = blankFault (frameOf i s') := by
          simp only [faultEntry_eq, frameOf, blankFault]
      _ = blankFault (frameOf i (setPhase (phaseOf i) s)) := congrArg blankFault (hk h0)
      _ = blankFault (frameOf i s) := rfl

/-- Each list of writers or users ends with the commands that reset the block. -/
theorem not_resetter {b : Byte} {l : List Byte} (h : b ∉ l ++ resetters) : b ∉ resetters :=
  fun hb => h (List.mem_append_right l hb)

/-- What is outside the block is kept by every command, fault or not. -/
theorem exec_outside {i : Instr} {s t : State} (h : exec i s = .next t) :
    t.cfg = s.cfg ∧ t.host = s.host ∧ t.rdata = s.rdata := by
  obtain ⟨s', hb, _, e | ⟨c, e⟩⟩ := exec_cases i s <;> rw [e] at h <;> cases h
  · exact hb.outside
  · rw [faultEntry_eq]
    exact hb.outside

/-- Settles O21: each register is in the frame of a command that is none of its writers. -/
theorem registerWriters : Obligations.RegisterWriters := by
  intro i s t h
  refine ⟨fun hw => ?_, fun hw => ⟨?_, ?_⟩, fun hw => ?_, fun hw => ?_, fun hw => ?_, exec_outside h⟩ <;>
    have hk := exec_frame (not_resetter hw) h
  · simpa [blankFault, frameOf, hw] using congrArg State.result hk
  · simpa [blankFault, frameOf, hw] using congrArg State.clen hk
  · simpa [blankFault, frameOf, hw] using congrArg State.cbits hk
  · simpa [blankFault, frameOf, hw] using congrArg State.pad hk
  · simpa [blankFault, frameOf, hw] using congrArg State.treebits hk
  · simpa [blankFault, frameOf, hw] using congrArg State.nnodes hk

/-- Settles O22: each table is in the frame of a command that is none of its writers. -/
theorem tableWriters : Obligations.TableWriters := by
  intro i s t h
  refine ⟨fun hw => ?_, fun hw => ?_, fun hw => ?_, fun hw => ⟨?_, ?_⟩, fun hw => ?_⟩ <;>
    have hk := exec_frame (not_resetter hw) h
  · simpa [blankFault, frameOf, hw] using congrArg State.freq hk
  · simpa [blankFault, frameOf, hw] using congrArg State.tree hk
  · simpa [blankFault, frameOf, hw] using congrArg State.ptr hk
  · simpa [blankFault, frameOf, hw] using congrArg State.code hk
  · simpa [blankFault, frameOf, hw] using congrArg State.tabValid hk
  · simpa [blankFault, frameOf, hw] using congrArg State.enc hk

/-- A command that leaves `ERR` clear has ended well, and keeps its whole frame. -/
theorem exec_frame_ok {i : Instr} {s t : State} (h0 : opcode i ∉ resetters) (h : exec i s = .next t)
    (he : t.err = 0#4) : ∃ s', t = setPhase .idle s' ∧ frameOf i s' = frameOf i (setPhase (phaseOf i) s) := by
  obtain ⟨s', _, hk, e | ⟨c, e⟩⟩ := exec_cases i s <;> rw [e] at h <;> cases h
  · exact ⟨s', rfl, hk h0⟩
  · rw [faultEntry_eq] at he
    exact absurd he (errCode_legal _).2

/-- Settles O23: without a fault each handle is in the frame of a command that is none of its users. -/
theorem handleUsers : Obligations.HandleUsers := by
  intro i s t _ h he
  refine ⟨fun hw => ?_, fun hr => ?_⟩
  · obtain ⟨s', rfl, hk⟩ := exec_frame_ok (not_resetter hw) h he
    refine ⟨?_, ?_, ?_, ?_⟩
    · simpa [frameOf, hw] using congrArg State.outOpen hk
    · simpa [frameOf, hw] using congrArg State.bwBuf hk
    · simpa [frameOf, hw] using congrArg State.bwCnt hk
    · simpa [frameOf, hw] using congrArg State.outStore hk
  · obtain ⟨s', rfl, hk⟩ := exec_frame_ok (not_resetter hr) h he
    refine ⟨?_, ?_, ?_, ?_, ?_, ?_⟩
    · simpa [frameOf, hr] using congrArg State.inOpen hk
    · simpa [frameOf, hr] using congrArg State.inPos hk
    · simpa [frameOf, hr] using congrArg State.brBuf hk
    · simpa [frameOf, hr] using congrArg State.brAvail hk
    · simpa [frameOf, hr] using congrArg State.brEof hk
    · simpa [frameOf, hr] using congrArg State.inStore hk

/-! ## Faults (R26, R27, R256) -/

/-- What fault entry records, the phase code widened as the spec writes it. -/
theorem faultEntry_errinfo (op : Byte) (c : Cause) (s : State) :
    (faultEntry op c s).errinfo = c.datum ++ op ++ (0#4 ++ phaseCode s.phase) ++ subCode c.sub := by
  rw [faultEntry_eq, ← setWidth_eq_zero_append]

/-- Settles O14: a body keeps `ERR` and `ERRINFO` unless it resets the block; where it raises, fault entry records the
command's opcode and the phase, which only `COMPRESS` and `DECOMPRESS` change. -/
theorem faultsAreRecorded : Obligations.FaultsAreRecorded := by
  intro i s t h
  obtain ⟨s', hb, hk, e | ⟨c, e⟩⟩ := exec_cases i s <;> rw [e] at h <;> cases h
  · by_cases h0 : opcode i ∈ resetters
    · exact hb.fault.imp_right fun hz => .inl ⟨h0, hz⟩
    · have herr : s'.err = s.err := by simpa [frameOf] using congrArg State.err (hk h0)
      have hinfo : s'.errinfo = s.errinfo := by simpa [frameOf] using congrArg State.errinfo (hk h0)
      exact .inl ⟨herr, hinfo⟩
  · have hphase : opcode i ∉ resetters → s'.phase = phaseOf i := fun h0 => by
      simpa [frameOf] using congrArg State.phase (hk h0)
    refine .inr (.inr ⟨c.sub, c.datum, s'.phase, ?_, faultEntry_errinfo _ _ _, hphase, ?_⟩) <;> rw [faultEntry_eq]
    exact ⟨rfl, rfl, rfl, rfl⟩

/-! ## LOOKUP (R173, R174) -/

/-- Settles O43, by the two ways a look-up ends; the bits of `V` by `getLsbD_codewordValue`. -/
theorem lookupShowsTheCodeword : Obligations.LookupShowsTheCodeword := by
  intro v s
  refine ⟨fun c hc hlen => ⟨codewordValue c, ?_, fun j hj => getLsbD_codewordValue c (by omega) j hj⟩, fun hn => ?_⟩
  · rcases lookupCode_cases v (setPhase .table s) with ⟨h, _⟩ | ⟨d, h, e⟩
    · exact absurd (hc.symm.trans h) (by simp)
    · obtain rfl : c = d := Option.some.inj (hc.symm.trans h)
      exact exec_ok (i := .lookup v) (Micro.bind_ok e)
  · rcases lookupCode_cases v (setPhase .table s) with ⟨_, e⟩ | ⟨d, h, _⟩
    · exact exec_error (i := .lookup v) (Micro.bind_error e)
    · exact absurd (hn.symm.trans h) (by simp)

end Sys2Proof.Machine
end

section
/-! PROOFS. The two stores (20_memory.md): `IN` is never written (R62), `OUT` only grows (R63), stores that stay healthy
never break (R75), and the table does not outlive the tree it was made from (R74, R295). -/

namespace Sys2Proof.Machine

variable {α β : Type}

/-! ## Where a command's body ends -/

/-- The state the body of command `i`, issued in `s`, ends in, well or by raising. -/
def endOf (i : Instr) (s : State) : State := endState (bodyOf i (setPhase (phaseOf i) s))

/-- The frame of R122 finishes from there: it ends the command well or enters the fault. -/
theorem exec_endOf {i : Instr} {s t : State} (h : exec i s = .next t) :
    t = setPhase .idle (endOf i s) ∨ ∃ c, t = faultEntry (opcode i) c (endOf i s) := by
  rw [exec_eq] at h
  rcases runCommand_cases i (bodyOf i) s with ⟨s', e, e'⟩ | ⟨c, s', e, e'⟩ <;> rw [e'] at h <;> cases h <;>
    rw [endOf, e]
  · exact .inl rfl
  · exact .inr ⟨c, rfl⟩

/-! ## What every command keeps of the stores -/

/-- `IN` keeps its presence and length, and all of itself with nothing planned (R62); `OUT` stays creatable or not
(R63), and with nothing planned its health stays (R75). -/
structure StoresKept (s t : State) : Prop where
  present : t.inStore.present = s.inStore.present
  inLength : t.inStore.data.length = s.inStore.data.length
  inUnplanned : s.inStore.plan = [] → t.inStore = s.inStore
  creatable : t.outStore.creatable = s.outStore.creatable
  outUnplanned : s.outStore.plan = [] → t.outStore.plan = [] ∧ t.outStore.ok = s.outStore.ok

theorem StoresKept.of_eq {s t : State} (hi : t.inStore = s.inStore) (ho : t.outStore = s.outStore) :
    StoresKept s t := by
  constructor <;> simp [hi, ho]

theorem StoresKept.trans {a b c : State} (h1 : StoresKept a b) (h2 : StoresKept b c) : StoresKept a c where
  present := h2.present.trans h1.present
  inLength := h2.inLength.trans h1.inLength
  inUnplanned h := by
    have hb := h1.inUnplanned h
    exact (h2.inUnplanned (hb ▸ h)).trans hb
  creatable := h2.creatable.trans h1.creatable
  outUnplanned h := by
    obtain ⟨hp, hk⟩ := h1.outUnplanned h
    obtain ⟨hp', hk'⟩ := h2.outUnplanned hp
    exact ⟨hp', hk'.trans hk⟩

theorem ReaderOnly.storesKept {s t : State} (h : ReaderOnly s t) : StoresKept s t := by
  obtain ⟨_, _, _, _, _, ok, plan, data, rfl, hl, hp, _⟩ := h
  refine ⟨rfl, hl, fun h0 => ?_, rfl, fun h0 => ⟨h0, rfl⟩⟩
  obtain ⟨rfl, rfl, rfl⟩ := hp h0
  rw [← h0]

theorem WriterOnly.storesKept {s t : State} (h : WriterOnly s t) : StoresKept s t := by
  obtain ⟨_, _, ok, plan, ext, rfl, hp⟩ := h
  exact ⟨rfl, rfl, fun _ => rfl, rfl, fun h0 => (hp h0).symm⟩

theorem storesKept_updates : Updates StoresKept where
  refl _ := .of_eq rfl rfl
  trans _ _ _ := StoresKept.trans
  reader _ _ := ReaderOnly.storesKept
  writer _ _ := WriterOnly.storesKept
  openW _ := ⟨rfl, rfl, fun _ => rfl, rfl, fun h0 => ⟨h0, rfl⟩⟩
  openR _ := .of_eq rfl rfl
  rewind _ := .of_eq rfl rfl
  closeR _ := .of_eq rfl rfl
  closeW _ := .of_eq rfl rfl
  reset _ := .of_eq rfl rfl
  phase _ _ := .of_eq rfl rfl
  results _ _ _ _ := .of_eq rfl rfl
  counters _ _ _ := .of_eq rfl rfl
  freq _ _ := .of_eq rfl rfl
  enc _ _ := .of_eq rfl rfl
  table _ _ _ := .of_eq rfl rfl
  ptr _ _ := .of_eq rfl rfl
  tree _ _ _ _ _ _ := .of_eq rfl rfl
  build _ _ _ _ _ _ _ := .of_eq rfl rfl

/-- Fault entry does to the stores what one of the writer's operations could do: append a byte, ask and be refused, or
nothing (R256, R261). -/
theorem faultEntry_stores (op : Byte) (c : Cause) (s : State) :
    ∃ u, WriterOnly s u ∧ (faultEntry op c s).inStore = u.inStore ∧ (faultEntry op c s).outStore = u.outStore := by
  rw [faultEntry_eq]
  by_cases ho : s.outOpen = true
  · by_cases hc : s.bwCnt ≠ 0#3 ∧ c.sub ≠ .outBroken
    · by_cases hk : (outAsk s.outStore).ok = true
      · exact ⟨_, writerOnly_append s.bwBuf s, rfl, by simp only [if_pos ho, if_pos hc, if_pos hk]⟩
      · exact ⟨_, writerOnly_ask s, rfl, by simp only [if_pos ho, if_pos hc, if_neg hk]⟩
    · exact ⟨s, .refl s, rfl, by simp only [if_pos ho, if_neg hc]⟩
  · exact ⟨s, .refl s, rfl, by simp only [if_neg ho]⟩

theorem faultEntry_storesKept (op : Byte) (c : Cause) (s : State) : StoresKept s (faultEntry op c s) := by
  obtain ⟨u, hu, hi, ho⟩ := faultEntry_stores op c s
  exact hu.storesKept.trans (.of_eq hi ho)

theorem exec_storesKept {i : Instr} {s t : State} (h : exec i s = .next t) : StoresKept s t :=
  storesKept_updates.command faultEntry_storesKept h

/-- Settles O20: nothing a command is made of writes `IN`. -/
theorem inputNeverWritten : Obligations.InputNeverWritten := by
  intro i s t h
  have hk := exec_storesKept h
  exact ⟨hk.present, hk.inLength, hk.inUnplanned⟩

/-! ## OUT grows at its end (R63) -/

/-- The bytes of `OUT` are those before, and what was appended. -/
def OutGrows (s t : State) : Prop := s.outStore.data <+: t.outStore.data

theorem OutGrows.of_eq {s t : State} (h : t.outStore = s.outStore) : OutGrows s t := by
  rw [OutGrows, h]

theorem OutGrows.trans {a b c : State} (h1 : OutGrows a b) (h2 : OutGrows b c) : OutGrows a c :=
  List.IsPrefix.trans h1 h2

theorem WriterOnly.outGrows {s t : State} (h : WriterOnly s t) : OutGrows s t := by
  obtain ⟨_, _, _, _, ext, rfl, _⟩ := h
  exact ⟨ext, rfl⟩

theorem ReaderOnly.outGrows {s t : State} (h : ReaderOnly s t) : OutGrows s t := by
  obtain ⟨_, _, _, _, _, _, _, _, rfl, _⟩ := h
  exact .of_eq rfl

theorem OutGrows.bind {x : Micro α} {g : α → Micro β} (hx : Always OutGrows x) (hg : ∀ a, Always OutGrows (g a)) :
    Always OutGrows (x >>= g) := Always.bind (R := OutGrows) (fun _ _ _ => OutGrows.trans) hx hg

theorem writeBits_outGrows (bs : Bits) : Always OutGrows (writeBits bs) := fun s => (writeBits_always bs s).outGrows

theorem closeW_outGrows : Always OutGrows closeW := by
  intro s
  have hf : OutGrows s (endState (flushW s)) := (flushW_always s).outGrows
  rcases closeW_cases s with ⟨_, e⟩ | ⟨s1, _, hk, e⟩ | ⟨c, s1, _, hk, e⟩ <;> rw [e]
  · exact .of_eq rfl
  · rw [hk] at hf
    exact hf.trans (.of_eq rfl)
  · rw [hk] at hf
    exact hf

theorem serTree_outGrows : Always OutGrows serTree := by
  intro s
  rcases serTree_cases s with ⟨_, e⟩ | ⟨t, s1, _, hk, e⟩ | ⟨t, c, s1, _, hk, e⟩ <;> rw [e]
  · exact .of_eq rfl
  · have hw := writeBits_outGrows (ser t) s
    rw [hk] at hw
    exact hw.trans (.of_eq rfl)
  · have hw := writeBits_outGrows (ser t) s
    rw [hk] at hw
    exact hw

theorem wrPad_outGrows : Always OutGrows wrPad :=
  OutGrows.bind (fun _ => .of_eq rfl) fun _ => OutGrows.bind (fun _ => .of_eq rfl) fun _ => writeBits_outGrows _

theorem decBit_outGrows (b : Bool) : Always OutGrows (decBit b) := by
  intro s
  rcases decBit_cases b s with ⟨_, e⟩ | ⟨_, _, _, e⟩ | ⟨_, v, s1, _, _, hk, e⟩ | ⟨_, v, c, s1, _, _, hk, e⟩ |
    ⟨_, _, _, _, _, e⟩ <;> rw [e]
  · exact .of_eq rfl
  · exact .of_eq rfl
  · have hw : OutGrows s (endState (writeByte v s)) := writeBits_outGrows _ s
    rw [hk] at hw
    exact hw.trans (.of_eq rfl)
  · have hw : OutGrows s (endState (writeByte v s)) := writeBits_outGrows _ s
    rw [hk] at hw
    exact hw
  · exact .of_eq rfl

theorem decodeLoop_outGrows (n : Nat) : Always OutGrows (decodeLoop n) := by
  induction n with
  | zero => exact fun _ => .of_eq rfl
  | succ n ih =>
    exact OutGrows.bind (fun s => (readBit_always s).outGrows) fun b => OutGrows.bind (decBit_outGrows b) fun _ => ih

theorem decodePayload_outGrows : Always OutGrows decodePayload := by
  intro s
  rcases decodePayload_cases s with ⟨_, e⟩ | ⟨_, _, e⟩ | ⟨_, _, e⟩ <;> rw [e]
  · exact .of_eq rfl
  · exact .of_eq rfl
  · exact decodeLoop_outGrows _ { s with ptr := some [] }

/-- A command that is no user of the writer has `OUT` in its frame. -/
theorem bodyOf_outStore {i : Instr} (hw : opcode i ∉ usersOfWriter) : Keeps State.outStore (bodyOf i) := fun s => by
  simpa [frameOf, hw] using congrArg State.outStore (bodyOf_frame (not_resetter hw) s)

/-- Every body but the three with `OPENW`'s in them lets `OUT` only grow. -/
theorem bodyOf_outGrows {i : Instr} (hw : i ≠ .openw) (hc : i ≠ .compress) (hd : i ≠ .decompress) :
    Always OutGrows (bodyOf i) := by
  cases i with
  | openw => exact absurd rfl hw
  | compress => exact absurd rfl hc
  | decompress => exact absurd rfl hd
  | init => exact fun _ => .of_eq rfl
  | wrbit a => exact fun s => (writeBit_always _ s).outGrows
  | wrbyte a => exact writeBits_outGrows _
  | closew => exact closeW_outGrows
  | sertree => exact serTree_outGrows
  | wrpad => exact wrPad_outGrows
  | wrenc => exact fun s => writeBits_outGrows s.enc s
  | decbit a => exact OutGrows.bind (decBit_outGrows _) fun _ _ => .of_eq rfl
  | decode => exact decodePayload_outGrows
  | _ => exact fun s => .of_eq (bodyOf_outStore (by simp [opcode, usersOfWriter, resetters]) s)

theorem exec_outGrows {i : Instr} {s t : State} (hw : i ≠ .openw) (hc : i ≠ .compress) (hd : i ≠ .decompress)
    (h : exec i s = .next t) : OutGrows s t := by
  have hb : OutGrows s (endOf i s) := bodyOf_outGrows hw hc hd (setPhase (phaseOf i) s)
  rcases exec_endOf h with rfl | ⟨c, rfl⟩
  · exact hb
  · obtain ⟨u, hu, _, ho⟩ := faultEntry_stores (opcode i) c (endOf i s)
    exact hb.trans (hu.outGrows.trans (.of_eq ho))

/-- Settles O19: the three commands that open the writer may start `OUT` afresh, every other only appends. -/
theorem outOnlyAppended : Obligations.OutOnlyAppended := by
  intro i s t h
  refine ⟨(exec_storesKept h).creatable, ?_⟩
  by_cases hi : i = .openw ∨ i = .compress ∨ i = .decompress
  · exact ⟨[], t.outStore.data, rfl, .inr ⟨rfl, hi⟩⟩
  · obtain ⟨hw, hc, hd⟩ : i ≠ .openw ∧ i ≠ .compress ∧ i ≠ .decompress := by simpa only [not_or] using hi
    obtain ⟨ext, he⟩ := exec_outGrows hw hc hd h
    exact ⟨s.outStore.data, ext, he.symm, .inl rfl⟩

/-! ## Broken stores (R75)

A broken-store cause is raised only in a state that shows the store broken; healthy stores stay healthy, so no command
can raise one. -/

/-- If the cause is a broken store, then the store is broken in this state. -/
def BreakShown (c : Cause) (s : State) : Prop :=
  (c.sub = .inBroken → s.inStore.ok = false) ∧ (c.sub = .outBroken → s.outStore.ok = false)

/-- The cause is no broken store. -/
def NoBreak (c : Cause) : Prop := c.sub ≠ .inBroken ∧ c.sub ≠ .outBroken

/-- Where `x` raises, a broken store shows. -/
def ShowsBreak (x : Micro α) : Prop := ∀ s c s', x s = .error c s' → BreakShown c s'

/-- An operation that raises no broken store at all has nothing to show. -/
theorem Raises.showsBreak {x : Micro α} (h : Raises NoBreak x) : ShowsBreak x := by
  intro s c s' e
  obtain ⟨hi, ho⟩ := h s c s' e
  exact ⟨fun hc => absurd hc hi, fun hc => absurd hc ho⟩

namespace ShowsBreak

theorem bind {x : Micro α} {g : α → Micro β} (hx : ShowsBreak x) (hg : ∀ a, ShowsBreak (g a)) :
    ShowsBreak (x >>= g) := by
  intro s c s'' e
  rcases Micro.bind_error_inv e with h1 | ⟨a, s', _, h2⟩
  · exact hx s c s'' h1
  · exact hg a s' c s'' h2

theorem pure (a : α) : ShowsBreak (pure a : Micro α) := (Raises.pure a).showsBreak

theorem look (f : State → α) : ShowsBreak (look f) := (Raises.look f).showsBreak

theorem change (f : State → State) : ShowsBreak (change f) := (Raises.change f).showsBreak

theorem raise (sub : Sub) (d : Byte) (h : NoBreak ⟨sub, d⟩) : ShowsBreak (raiseErr sub d : Micro α) :=
  (Raises.raise h).showsBreak

theorem iteB {b : Bool} {x y : Micro α} (hx : ShowsBreak x) (hy : ShowsBreak y) : ShowsBreak (if b then x else y) := by
  cases b
  · exact hy
  · exact hx

/-! ### The store accesses -/

theorem readBit : ShowsBreak readBit := by
  intro s c s' e
  rcases readBit_cases s with ⟨_, k⟩ | ⟨_, _, _, k⟩ | ⟨_, _, _, hk, k⟩ | ⟨_, _, _, _, k⟩ | ⟨_, _, k⟩ <;> rw [k] at e <;>
    cases e
  · exact ⟨nofun, nofun⟩
  · exact ⟨fun _ => hk, nofun⟩

theorem writeBit (b : Bool) : ShowsBreak (writeBit b) := by
  intro s c s' e
  rcases writeBit_cases b s with ⟨_, k⟩ | ⟨_, _, k⟩ | ⟨_, _, _, k⟩ | ⟨_, _, hk, k⟩ <;> rw [k] at e <;> cases e
  · exact ⟨nofun, nofun⟩
  · exact ⟨nofun, fun _ => hk⟩

theorem flushW : ShowsBreak flushW := by
  intro s c s' e
  rcases flushW_cases s with ⟨_, k⟩ | ⟨_, _, k⟩ | ⟨_, hk, k⟩ <;> rw [k] at e <;> cases e
  exact ⟨nofun, fun _ => hk⟩

/-! ### The operations made of them -/

theorem readBits (n : Nat) : ShowsBreak (readBits n) := by
  induction n with
  | zero => exact pure _
  | succ n ih => exact readBit.bind fun _ => ih.bind fun _ => pure _

theorem readByte : ShowsBreak readByte := (readBits 8).bind fun _ => pure _

theorem writeBits (bs : Bits) : ShowsBreak (writeBits bs) := by
  induction bs with
  | nil => exact pure ()
  | cons b bs ih => exact (writeBit b).bind fun _ => ih

theorem closeW : ShowsBreak closeW := by
  intro s c s' e
  rcases closeW_cases s with ⟨_, k⟩ | ⟨_, _, _, k⟩ | ⟨c', s1, _, hf, k⟩ <;> rw [k] at e <;> cases e
  · exact ⟨nofun, nofun⟩
  · exact flushW _ _ _ hf

theorem tally : ShowsBreak tally := by
  have hl : ∀ n, ShowsBreak (tallyLoop n) := by
    intro n
    induction n with
    | zero => exact pure ()
    | succ n ih =>
      exact readByte.bind fun v => (look _).bind fun _ =>
        iteB (pure ()) ((freqAdd_raises (fun _ => ⟨nofun, nofun⟩) v 1#32).showsBreak.bind fun _ => ih)
  exact fun s => hl (readTurns s) s

theorem encSym (v : Byte) : ShowsBreak (encSym v) :=
  (encSym_raises (fun _ => ⟨nofun, nofun⟩) ⟨nofun, nofun⟩ v).showsBreak

theorem encodeInput : ShowsBreak encodeInput := by
  have hl : ∀ n, ShowsBreak (encodeLoop n) := by
    intro n
    induction n with
    | zero => exact pure ()
    | succ n ih => exact readByte.bind fun v => (look _).bind fun _ => iteB (pure ()) ((encSym v).bind fun _ => ih)
  exact fun s => hl (readTurns s) s

theorem serTree : ShowsBreak serTree := by
  intro s c s' e
  rcases serTree_cases s with ⟨_, k⟩ | ⟨_, _, _, _, k⟩ | ⟨t, c', s1, _, hw, k⟩ <;> rw [k] at e <;> cases e
  · exact ⟨nofun, nofun⟩
  · exact writeBits _ _ _ _ hw

theorem countNode : ShowsBreak countNode := by
  intro s c s' e
  rcases countNode_cases s with ⟨_, k⟩ | ⟨_, k, _⟩ <;> rw [k] at e <;> cases e
  exact ⟨nofun, nofun⟩

theorem getTree (n : Nat) : ShowsBreak (getTree n) := by
  induction n with
  | zero => exact raise .treeTooBig 0#8 ⟨nofun, nofun⟩
  | succ n ih =>
    intro s
    rw [getTree_succ]
    refine (readBit.bind fun t => (look _).bind fun _ =>
      iteB (raise .eofTag 0#8 ⟨nofun, nofun⟩) (countNode.bind fun _ => iteB ?leaf ?internal)) s
    case leaf => exact readByte.bind fun v => (look _).bind fun _ => iteB (raise .eofByte 0#8 ⟨nofun, nofun⟩) (pure _)
    case internal => exact ih.bind fun l => ih.bind fun r => pure _

theorem desTree : ShowsBreak desTree :=
  (change _).bind fun _ => (getTree _).bind fun _ => iteB (change _) (raise .rootLeaf 0#8 ⟨nofun, nofun⟩)

theorem wrPad : ShowsBreak wrPad := (look _).bind fun _ => (change _).bind fun _ => writeBits _

theorem wrEnc : ShowsBreak wrEnc := fun s => writeBits s.enc s

theorem rdPad : ShowsBreak rdPad :=
  readByte.bind fun _ => (look _).bind fun _ => iteB (raise .eofPad 0#8 ⟨nofun, nofun⟩)
    (Raises.iteP (Raises.raise ⟨nofun, nofun⟩) (Raises.change _)).showsBreak

theorem decBit (b : Bool) : ShowsBreak (decBit b) := by
  intro s c s' e
  rcases decBit_cases b s with ⟨_, k⟩ | ⟨_, _, _, k⟩ | ⟨_, _, _, _, _, _, k⟩ | ⟨_, v, c', s1, _, _, hw, k⟩ |
    ⟨_, _, _, _, _, k⟩ <;> rw [k] at e <;> cases e
  · exact ⟨nofun, nofun⟩
  · exact ⟨nofun, nofun⟩
  · exact writeBits _ _ _ _ hw

theorem decodePayload : ShowsBreak decodePayload := by
  have hl : ∀ n, ShowsBreak (decodeLoop n) := by
    intro n
    induction n with
    | zero => exact pure ()
    | succ n ih => exact readBit.bind fun b => (decBit b).bind fun _ => ih
  intro s c s' e
  rcases decodePayload_cases s with ⟨_, k⟩ | ⟨_, _, k⟩ | ⟨_, _, k⟩ <;> rw [k] at e
  · cases e
    exact ⟨nofun, nofun⟩
  · cases e
    exact ⟨nofun, nofun⟩
  · exact hl _ _ _ _ e

theorem openR : ShowsBreak openR := (openR_raises ⟨nofun, nofun⟩ ⟨nofun, nofun⟩ ⟨nofun, nofun⟩).showsBreak

theorem openW : ShowsBreak openW := (openW_raises ⟨nofun, nofun⟩ ⟨nofun, nofun⟩).showsBreak

theorem rewindR : ShowsBreak rewindR := (rewindR_raises ⟨nofun, nofun⟩).showsBreak

theorem buildTree : ShowsBreak buildTree := (buildTree_raises ⟨nofun, nofun⟩).showsBreak

theorem mkTab : ShowsBreak mkTab := (mkTab_raises ⟨nofun, nofun⟩ fun _ => ⟨nofun, nofun⟩).showsBreak

theorem requireClosed : ShowsBreak requireClosed := (requireClosed_raises ⟨nofun, nofun⟩).showsBreak

theorem compressCall : ShowsBreak compressCall := by
  refine requireClosed.bind fun _ => (change _).bind fun _ => (change _).bind fun _ => ?_
  refine openR.bind fun _ => openW.bind fun _ => (change _).bind fun _ => tally.bind fun _ => ?_
  refine (change _).bind fun _ => buildTree.bind fun _ => (change _).bind fun _ => mkTab.bind fun _ => ?_
  refine (change _).bind fun _ => rewindR.bind fun _ => encodeInput.bind fun _ => (change _).bind fun _ => ?_
  refine serTree.bind fun _ => (change _).bind fun _ => wrPad.bind fun _ => (change _).bind fun _ => ?_
  exact wrEnc.bind fun _ => (change _).bind fun _ => flushW.bind fun _ => (change _).bind fun _ => change _

theorem decompressCall : ShowsBreak decompressCall := by
  refine requireClosed.bind fun _ => (change _).bind fun _ => (change _).bind fun _ => ?_
  refine openR.bind fun _ => openW.bind fun _ => (change _).bind fun _ => desTree.bind fun _ => ?_
  refine (change _).bind fun _ => rdPad.bind fun _ => (change _).bind fun _ => decodePayload.bind fun _ => ?_
  exact (change _).bind fun _ => flushW.bind fun _ => (change _).bind fun _ => change _

theorem body (i : Instr) : ShowsBreak (bodyOf i) := by
  cases i with
  | nop => exact pure ()
  | init | pending | iseof | fclr | fread => exact change _
  | openw => exact openW
  | wrbit a => exact writeBit _
  | wrbyte a => exact writeBits _
  | closew => exact closeW
  | openr => exact openR
  | rdbit => exact readBit.bind fun _ => change _
  | rdbyte => exact readByte.bind fun _ => change _
  | closer => exact (closeR_raises ⟨nofun, nofun⟩).showsBreak
  | rewind => exact rewindR
  | fadd a n => exact (freqAdd_raises (fun _ => ⟨nofun, nofun⟩) a _).showsBreak
  | tally => exact tally
  | build => exact buildTree
  | mktab => exact mkTab
  | lookup a => exact (lookupCode_raises (fun _ => ⟨nofun, nofun⟩) a).showsBreak.bind fun _ => change _
  | encsym a => exact encSym a
  | encode => exact encodeInput
  | sertree => exact serTree
  | destree => exact desTree
  | wrpad => exact wrPad
  | wrenc => exact wrEnc
  | compress => exact compressCall
  | rdpad => exact rdPad
  | decbit a => exact (decBit _).bind fun _ => change _
  | decode => exact decodePayload
  | decompress => exact decompressCall

end ShowsBreak

theorem StoresKept.inSteady {s t : State} (h : StoresKept s t) (hs : inSteady s) : inSteady t := by
  rw [Machine.inSteady, h.inUnplanned hs.2]
  exact hs

theorem StoresKept.outSteady {s t : State} (h : StoresKept s t) (hs : outSteady s) : outSteady t := by
  obtain ⟨hp, hk⟩ := h.outUnplanned hs.2
  exact ⟨hk.trans hs.1, hp⟩

theorem BreakShown.noBreak {c : Cause} {s : State} (h : BreakShown c s) (hi : inSteady s) (ho : outSteady s) :
    NoBreak c :=
  ⟨fun hc => by simpa [hi.1] using h.1 hc, fun hc => by simpa [ho.1] using h.2 hc⟩

/-- From healthy stores that stay so, the cause a body raises is no broken store. -/
theorem bodyOf_noBreak {i : Instr} {s s' : State} {c : Cause} (hi : inSteady s) (ho : outSteady s)
    (e : bodyOf i s = .error c s') : NoBreak c := by
  have hk := storesKept_updates.body i s
  rw [e] at hk
  exact (ShowsBreak.body i s c s' e).noBreak (hk.inSteady hi) (hk.outSteady ho)

/-- A body that ends well with no fault pending before leaves none (R26). -/
theorem bodyOf_err {i : Instr} {s s' : State} (h0 : s.err = 0#4) (e : bodyOf i s = .ok () s') : s'.err = 0#4 := by
  have hk := bodyKeeps_updates.body i s
  rw [e] at hk
  rcases hk.fault with ⟨he, _⟩ | ⟨he, _⟩
  · exact he.trans h0
  · exact he

/-- No other sub-cause has the code of a broken store (R258). -/
theorem NoBreak.subCode_ne {c : Cause} (h : NoBreak c) :
    subCode c.sub ≠ subCode .inBroken ∧ subCode c.sub ≠ subCode .outBroken := by
  have hcode : ∀ sub : Sub, (subCode sub = subCode .inBroken → sub = .inBroken) ∧
      (subCode sub = subCode .outBroken → sub = .outBroken) := by
    intro sub
    cases sub <;> decide
  exact ⟨mt (hcode c.sub).1 h.1, mt (hcode c.sub).2 h.2⟩

/-- The low byte of `ERRINFO` after fault entry is the sub-cause's code (R27). -/
theorem faultEntry_sub (op : Byte) (c : Cause) (s : State) :
    (faultEntry op c s).errinfo.extractLsb' 0 8 = subCode c.sub := by
  rw [faultEntry_errinfo]
  exact BitVec.extractLsb'_append_eq_right

/-- Settles O24: only a body that raises leaves a fault, and its cause is no broken store. -/
theorem healthyStoresNeverBreak : Obligations.HealthyStoresNeverBreak := by
  intro i s t h0 hi ho h
  have hk := exec_storesKept h
  refine ⟨hk.inSteady hi, hk.outSteady ho, fun hne => ?_⟩
  rw [exec_eq] at h
  rcases runCommand_cases i (bodyOf i) s with ⟨s', e, e'⟩ | ⟨c, s', e, e'⟩ <;> rw [e'] at h <;> cases h
  · exact absurd (bodyOf_err (s := setPhase (phaseOf i) s) h0 e) hne
  · rw [faultEntry_sub]
    exact (bodyOf_noBreak (s := setPhase (phaseOf i) s) hi ho e).subCode_ne

/-! ## The table and the tree (R74, R295) -/

/-- The table: `CODE` and `TAB.valid` (R31, R170). -/
def tableOf (s : State) : CodeTable × Bool := (s.code, s.tabValid)

theorem tableOf_faultEntry (op : Byte) (c : Cause) (s : State) : tableOf (faultEntry op c s) = tableOf s := by
  rw [faultEntry_eq]
  rfl

theorem buildTree_empties : Always (fun _ t => tableOf t = (emptyCode, false)) buildTree := by
  intro s
  rcases buildTree_cases s with ⟨_, d, e⟩ | ⟨b, d, _, e⟩ | ⟨_, t, d, _, _, e⟩ <;> rw [e] <;> rfl

/-- `DesTree` drops the tree with its table first, and nothing after that writes the table (R193). -/
theorem desTree_empties : Always (fun _ t => tableOf t = (emptyCode, false)) desTree := by
  have hr : ReaderBlind tableOf := by
    rintro s _ ⟨_, _, _, _, _, _, _, _, rfl, _⟩
    rfl
  have hk : Keeps tableOf (getTree (Config.nodeCap + 1) >>= fun r =>
      if isInternal r then change (fun s => { s with tree := some r, ptr := some [] }) else raiseErr .rootLeaf) :=
    (getTree_keeps hr (fun _ _ => rfl) _).bind fun r => .iteB (.change fun _ => rfl) (.raise _ _ _)
  exact fun s => hk (dropTree s)

theorem exec_empties {i : Instr} (hb : Always (fun _ t => tableOf t = (emptyCode, false)) (bodyOf i)) {s t : State}
    (h : exec i s = .next t) : tableOf t = (emptyCode, false) := by
  have he : tableOf (endOf i s) = (emptyCode, false) := hb (setPhase (phaseOf i) s)
  rcases exec_endOf h with rfl | ⟨c, rfl⟩
  · exact he
  · exact (tableOf_faultEntry _ _ _).trans he

/-- Settles O45: both bodies end with the table empty, fault or not, and `LOOKUP` on an empty entry is O43's. -/
theorem tableNeverOutlivesTheTree : Obligations.TableNeverOutlivesTheTree := by
  intro s t h
  have he : tableOf t = (emptyCode, false) := by
    rcases h with h | h
    · exact exec_empties (i := .build) buildTree_empties h
    · exact exec_empties (i := .destree) desTree_empties h
  obtain ⟨hcode, hvalid⟩ := Prod.mk.inj he
  refine ⟨hvalid, fun v => ?_⟩
  have hn : slotGet t.code v = none := by rw [hcode, slotGet_emptyCode]
  exact ⟨hn, (lookupShowsTheCodeword v t).2 hn⟩

end Sys2Proof.Machine
end

section
/-! PROOFS. The command word (30_encoding.md): decode and encode undo each other, and the decoder answers the one row of
the opcode map that matches the word (R90 to R97). -/

namespace Sys2Proof.Machine

/-! ## The decoder, row by row (R96) -/

/-- A word that a row matches decodes to the command that the row builds from the word's fields. -/
theorem decode_of_rowMatches {r : OpcodeRow} (hr : r ∈ opcodeTable) {w : Word} (h : rowMatches r w = true) :
    decode w = .instr (r.build (aField w) (nField w)) := by
  obtain ⟨hop, hfits⟩ := (rowMatches_iff r w).1 h
  simp only [decode, decodeFields, hop, find_row hr, hfits, if_true]

/-- A word that decodes to a command matches a row that builds it. -/
theorem rowMatches_of_decode {w : Word} {i : Instr} (h : decode w = .instr i) :
    ∃ r ∈ opcodeTable, rowMatches r w = true ∧ r.build (aField w) (nField w) = i := by
  unfold decode decodeFields at h
  split at h
  case h_1 => cases h
  case h_2 r hfind =>
    have hop : r.op = opField w := by simpa using List.find?_some hfind
    split at h
    case isTrue hfits =>
      cases h
      exact ⟨r, List.mem_of_find?_eq_some hfind, (rowMatches_iff r w).2 ⟨hop.symm, hfits⟩, rfl⟩
    case isFalse => cases h

/-- A word that no row matches is illegal (R94). -/
theorem decode_illegal {w : Word} (h : ∀ r ∈ opcodeTable, rowMatches r w = false) : ∃ why, decode w = .illegal why := by
  cases hd : decode w with
  | illegal why => exact ⟨why, rfl⟩
  | instr i =>
    obtain ⟨r, hr, hm, _⟩ := rowMatches_of_decode hd
    exact absurd ((h r hr).symm.trans hm) (by decide)

/-- Settles O1: the command's own row matches its word and builds it again. -/
theorem decodeOfEncode : Obligations.DecodeOfEncode := by
  intro i hwf
  obtain ⟨r, hr, hm, hb⟩ := Sys2Proof.Laws.OpcodeRow.every i hwf
  rw [decode_of_rowMatches hr hm, hb]

/-- Settles O2: the command that a row builds has that row's `op` and the operand fields of the word. -/
theorem encodeOfDecode : Obligations.EncodeOfDecode := by
  intro w i h
  obtain ⟨r, hr, hm, rfl⟩ := rowMatches_of_decode h
  obtain ⟨hop, hfits⟩ := (rowMatches_iff r w).1 hm
  obtain ⟨ho, ha, hn, hwf⟩ := instr_of_row hr (aField w) (nField w) hfits
  exact ⟨hwf, by rw [encode, ho, ha, hn, ← hop, packWord_fields]⟩

/-- Settles O3: a word decodes by the row that matches it, and is illegal where none does; rows differ in `op`, which
every mask keeps. -/
theorem decodeIsTheMatchingRow : Obligations.DecodeIsTheMatchingRow := by
  intro w
  refine ⟨fun r hr hm => decode_of_rowMatches hr hm, decode_illegal, opcodeTable_pairwise.imp ?_⟩
  rintro r r' hne ⟨hm, hm'⟩
  exact hne (((rowMatches_iff r w).1 hm).1.symm.trans ((rowMatches_iff r' w).1 hm').1)

/-- Settles O4: an illegal word is not `INIT`'s, so the issue rule takes its fault; the `op` values are counted. -/
theorem illegalWordFaults : Obligations.IllegalWordFaults := by
  refine ⟨fun w s h0 hno => ?_, by decide +kernel⟩
  obtain ⟨why, hd⟩ := decode_illegal hno
  have hw : w ≠ initWord := by
    rintro rfl
    rw [decode_initWord] at hd
    cases hd
  rw [issue_decoded hw h0, hd]
  rfl

/-- Settles O5, each word decoded by the table. -/
theorem specWordsDecode : Obligations.SpecWordsDecode := by
  unfold Obligations.SpecWordsDecode
  decide +kernel

end Sys2Proof.Machine
end

section
/-! PROOFS. The codes and streams of the data formats (30_encoding.md R101 to R106), command by command: `MKTAB`,
`SERTREE`, `WRPAD`, `WRENC` and `DECODE`. -/

namespace Sys2Proof.Machine

/-- A command that leaves `ERR` clear has run its body to the end. -/
theorem exec_ok_inv {i : Instr} {s t : State} (h : exec i s = .next t) (he : t.err = 0#4) :
    ∃ s', bodyOf i (setPhase (phaseOf i) s) = .ok () s' ∧ t = setPhase .idle s' := by
  rw [exec_eq] at h
  rcases runCommand_cases i (bodyOf i) s with ⟨s', e, e'⟩ | ⟨c, s', _, e'⟩ <;> rw [e'] at h <;> cases h
  · exact ⟨s', e, rfl⟩
  · rw [faultEntry_eq] at he
    exact absurd he (errCode_legal _).2

/-! ## MKTAB and the codewords (R104, R179) -/

/-- In a tree of at most 511 nodes no codeword is longer than 255 bits (R9). -/
theorem codewordOf_length_le_max {T : HuffTree} (hn : treeNodes T ≤ 511) {b : Byte} {c : Bits}
    (h : codewordOf T b = some c) : c.length ≤ 255 := by
  have hc := codewordOf_length_le h
  have hd := treeDepth_lt T
  have hl := treeNodes_eq T
  omega

/-- A `MKTAB` that does not fault leaves the tree and the table of its codewords. -/
theorem mktab_ok {s t : State} (h : exec .mktab s = .next t) (he : t.err = 0#4) :
    ∃ T, s.tree = some T ∧ t.tree = some T ∧ ∀ b, slotGet t.code b = codewordOf T b := by
  obtain ⟨s', e, rfl⟩ := exec_ok_inv h he
  change mkTab _ = _ at e
  rcases mkTab_cases (setPhase (phaseOf .mktab) s) with ⟨_, k⟩ | ⟨_, _, _, _, _, k⟩ | ⟨T, code, hT, _, hcode, k⟩ <;>
    rw [k] at e <;> cases e
  exact ⟨T, hT, hT, hcode⟩

/-- Settles O42: the table is the tree's codewords, whose laws are those of paths to leaves. -/
theorem codewordsArePrefixFree : Obligations.CodewordsArePrefixFree := by
  intro s t hi h _ he
  obtain ⟨T, hsT, htT, hcode⟩ := mktab_ok h he
  have hroot := hi.rootInternal T hsT
  obtain ⟨hnodes, _, _⟩ := hi.nodesCounted T hsT
  refine ⟨T, htT, fun b => ?_, fun b c hc => ?_, fun b b' c c' hc hc' hp => ?_⟩
  · rw [hcode, ← codewordOf_isSome_iff, Option.isSome_iff_ne_none]
  · rw [hcode] at hc
    exact ⟨codewordOf_ne_nil hroot hc, codewordOf_length_le_max hnodes hc, nodeAt_of_codewordOf hc⟩
  · rw [hcode] at hc hc'
    exact codewordOf_prefixFree hc hc' hp

/-! ## SERTREE (R191) -/

/-- Through an open writer into a healthy store, at any offset, `SerTree` writes `Ser(T)` and records its length. -/
theorem serTree_writes {s : State} {T : HuffTree} (hT : s.tree = some T) (ho : s.outOpen = true) (hs : outSteady s) :
    ∃ buf cnt data,
      serTree s = .ok () { wroteTo s buf cnt data with treebits := BitVec.ofNat 12 (ser T).length } ∧
      bitsWritten (wroteTo s buf cnt data) = bitsWritten s ++ ser T := by
  obtain ⟨buf, cnt, data, hw, hbits, _⟩ := writeBits_steady (ser T) s ho hs
  refine ⟨buf, cnt, data, ?_, hbits⟩
  rcases serTree_cases s with ⟨hn, _⟩ | ⟨t, s1, ht, hw', e⟩ | ⟨t, c, s1, ht, hw', _⟩
  · exact absurd (hT.symm.trans hn) (by simp)
  · obtain rfl : T = t := Option.some.inj (hT.symm.trans ht)
    cases hw.symm.trans hw'
    rw [e, ser_length]
  · obtain rfl : T = t := Option.some.inj (hT.symm.trans ht)
    cases hw.symm.trans hw'

/-- Settles O46, by `serTree_writes` in the frame of the command. -/
theorem sertreeWritesTheTree : Obligations.SertreeWritesTheTree := by
  intro s T hT ho hs
  obtain ⟨buf, cnt, data, e, hbits⟩ := serTree_writes (s := setPhase .serialize s) hT ho hs
  exact ⟨ser_length T, _, exec_ok (i := .sertree) e, hbits, rfl, rfl⟩

/-! ## WRPAD and WRENC (R211, R213) -/

/-- R211's count in one expression. -/
theorem padCount_eq (n : Nat) : padCount n = (8 - n % 8) % 8 := by
  unfold padCount
  split <;> omega

/-- The count completes the bits to whole bytes (R105). -/
theorem padCount_completes (n : Nat) : padCount n < 8 ∧ (n + padCount n) % 8 = 0 := by
  rw [padCount_eq]
  omega

/-- `WrPad` writes the count as one byte, with `PAD` already set. -/
theorem wrPad_eq {s : State} {p : Nat} (hp : padCount (s.treebits.toNat + s.enc.length) = p) :
    wrPad s = writeBits (byteBits (BitVec.ofNat 8 p)) { s with pad := BitVec.ofNat 3 p } := by
  rw [← hp]
  rfl

/-- A whole number of bytes leaves as many bits pending as before. -/
theorem bwCnt_of_wrote_byte {s t : State} {v : Byte} (h : bitsWritten t = bitsWritten s ++ byteBits v) :
    t.bwCnt = s.bwCnt := by
  apply BitVec.eq_of_toNat_eq
  rw [bwCnt_of_bitsWritten t, bwCnt_of_bitsWritten s, h, List.length_append, byteBits_length, Nat.add_mod_right]

/-- A command whose body stops in a run of bits to a broken store takes `OUT_BROKEN`, the buffer lost (R256). -/
theorem exec_writeBits_broken {i : Instr} {s s1 : State} {bs : Bits}
    (hbody : bodyOf i (setPhase (phaseOf i) s) = writeBits bs s1) (ho : s1.outOpen = true)
    (hb : (outAsk s1.outStore).ok = false) (hn : 8 ≤ s1.bwCnt.toNat + bs.length) :
    exec i s = .next (faultEntry (opcode i) ⟨.outBroken, 0#8⟩ { s1 with outStore := outAsk s1.outStore }) := by
  obtain ⟨buf, cnt, e⟩ := writeBits_broken bs s1 ho hb hn
  rw [exec_error (hbody.trans e)]
  exact congrArg _ (faultEntry_broken (opcode i) 0#8 (s := { s1 with outStore := outAsk s1.outStore }) ho buf cnt)

/-- Settles O49: both commands are a run of bits, which `writeBits_broken` and `writeBits_steady` describe. -/
theorem wrpadAndWrenc : Obligations.WrpadAndWrenc := by
  refine ⟨fun s ho hb => ⟨?_, fun hn => ?_⟩, fun s ho hs => ⟨?_, ?_⟩⟩
  · generalize hp : (8 - (s.treebits.toNat + s.enc.length) % 8) % 8 = p
    rw [← padCount_eq] at hp
    exact exec_writeBits_broken (i := .wrpad) (s1 := { setPhase .padding s with pad := BitVec.ofNat 3 p })
      (wrPad_eq hp) ho hb (by simp)
  · exact exec_writeBits_broken (i := .wrenc) (s1 := setPhase .payload s) rfl ho hb hn
  · obtain ⟨hlt, hmod⟩ := padCount_completes (s.treebits.toNat + s.enc.length)
    generalize hp : padCount (s.treebits.toNat + s.enc.length) = p at hlt hmod
    obtain ⟨buf, cnt, data, e, hbits, _⟩ := writeBits_steady (byteBits (BitVec.ofNat 8 p))
      { setPhase .padding s with pad := BitVec.ofNat 3 p } ho hs
    obtain rfl : cnt = s.bwCnt := bwCnt_of_wrote_byte hbits
    have ebody : wrPad (setPhase .padding s) = .ok () _ := (wrPad_eq (s := setPhase .padding s) hp).trans e
    exact ⟨_, p, exec_ok (i := .wrpad) ebody, hlt, hmod, rfl, hbits, rfl, rfl⟩
  · obtain ⟨buf, cnt, data, e, hbits, _⟩ := writeBits_steady s.enc (setPhase .payload s) ho hs
    exact ⟨_, exec_ok (i := .wrenc) e, hbits, rfl⟩

/-! ## DECODE (R235) -/

/-- `Decode` feeds the bits ahead but the last `PAD` to the traversal, from the root. -/
theorem decodePayload_steady {s : State} {T : HuffTree} (hr : Readable s) (hT : s.tree = some T)
    (hroot : isInternal T = true) (ho : s.outOpen = true) (hs : outSteady s) :
    ∃ pos buf avail wbuf wcnt data path,
      decodePayload s = .ok () (replayTo s pos buf avail wbuf wcnt data path) ∧
      bitsAhead (replayTo s pos buf avail wbuf wcnt data path) =
        (bitsAhead s).drop ((bitsAhead s).length - s.pad.toNat) ∧
      bitsWritten (replayTo s pos buf avail wbuf wcnt data path) = bitsWritten s ++
        bitsOf (replay T T ((bitsAhead s).take ((bitsAhead s).length - s.pad.toNat))) ∧
      (LowZero s → LowZero (replayTo s pos buf avail wbuf wcnt data path)) ∧
      ∃ l r, nodeAt T path = some (.internal l r) := by
  obtain ⟨l, r, rfl⟩ := isInternal_eq hroot
  have hr0 : Readable { s with ptr := some [] } := ⟨hr.isOpen, hr.steady, hr.inside, hr.short⟩
  obtain ⟨pos, buf, avail, wbuf, wcnt, data, path, e, hahead, _, hbits, hzero, hnode⟩ :=
    decodeLoop_steady ((bitsAhead s).length - s.pad.toNat) hr0 ho hs hT hroot rfl (nodeAt_nil _) (Nat.sub_le _ _)
  refine ⟨pos, buf, avail, wbuf, wcnt, data, path, ?_, hahead, hbits, hzero, hnode⟩
  rcases decodePayload_cases s with ⟨hn, _⟩ | ⟨_, hc, _⟩ | ⟨_, _, e'⟩
  · exact absurd (hT.symm.trans hn) (by simp)
  · exact absurd (hr.isOpen.symm.trans hc) (by decide)
  · rw [e', bitsLeft_eq hr.inside]
    exact e

/-- Settles O54, by `decodePayload_steady` in the frame of the command. -/
theorem decodeReplaysThePayload : Obligations.DecodeReplaysThePayload := by
  intro s T hr hT hroot ho hs
  obtain ⟨pos, buf, avail, wbuf, wcnt, data, path, e, hahead, hbits, _, l, r, hnode⟩ :=
    decodePayload_steady (s := setPhase .decode s) ⟨hr.isOpen, hr.steady, hr.inside, hr.short⟩ hT hroot ho hs
  exact ⟨_, path, l, r, exec_ok (i := .decode) e, hbits, hahead, rfl, hnode, rfl⟩

end Sys2Proof.Machine
end

section
/-! PROOFS. The file format through `DECOMPRESS` and `COMPRESS` (30_encoding.md R103 to R106): each stage of a call is a
lemma that hands the state it reaches to the `rest` of the call, and the stages are joined in the order of R215 and
R237. -/

namespace Sys2Proof.Machine

/-! ## Opening and closing a call (R215, R237) -/

/-- The block once a call has opened both handles: reset, the output emptied. -/
def callOpened (s : State) : State :=
  { resetBlock s with
    inOpen := true, outOpen := true, outStore := { s.outStore with data := [] }, phase := .opening }

theorem openR_ok {s : State} (hi : s.inOpen = false) (hp : s.inStore.present = true) (hl : inLen s ≤ Config.lenMax) :
    openR s = .ok () (restartReader { s with inOpen := true }) := by
  simp [openR, hi, hp, Nat.not_lt.2 hl]

theorem openW_ok {s : State} (ho : s.outOpen = false) (hc : s.outStore.creatable = true) :
    openW s = .ok () (clearWriter { s with outStore := { s.outStore with data := [] }, outOpen := true }) := by
  simp [openW, ho, hc]

/-- The opening lines of a call, `rest` being those after. -/
theorem call_opens {s : State} (hi : s.inOpen = false) (ho : s.outOpen = false) (hp : s.inStore.present = true)
    (hc : s.outStore.creatable = true) (hl : inLen s ≤ Config.lenMax) (rest : Micro Unit) :
    (requireClosed >>= fun _ => change resetBlock >>= fun _ => change (setPhase .opening) >>= fun _ =>
      openR >>= fun _ => openW >>= fun _ => rest) s = rest (callOpened s) := by
  have hclosed : requireClosed s = .ok () s := by simp [requireClosed, hi, ho]
  have hr := openR_ok (s := setPhase .opening (resetBlock s)) rfl hp hl
  have hw := openW_ok (s := restartReader { setPhase .opening (resetBlock s) with inOpen := true }) rfl hc
  rw [Micro.bind_ok hclosed, bind_change, bind_change, Micro.bind_ok hr, Micro.bind_ok hw]
  rfl

theorem bitsAhead_callOpened (s : State) : bitsAhead (callOpened s) = bitsOf s.inStore.data := rfl

theorem bitsWritten_callOpened (s : State) : bitsWritten (callOpened s) = [] := rfl

theorem callOpened_lowZero (s : State) : LowZero (callOpened s) := fun _ _ => BitVec.getLsbD_zero

/-- The last lines of a call, `discard` dropping what the call leaves: the last byte is completed with zeros and
both handles close. -/
theorem call_closes {s : State} (hs : outSteady s) (hz : LowZero s) (discard : State → State) :
    ∃ data, (change (setPhase .close) >>= fun _ => flushW >>= fun _ => change closeBoth >>= fun _ => change discard) s =
        .ok () (discard (closeBoth (wroteTo (setPhase .close s) 0#8 0#3 data))) ∧
      bitsOf data = bitsWritten s ++ List.replicate ((8 - (bitsWritten s).length % 8) % 8) false := by
  obtain ⟨data, e, hbits⟩ := flushW_steady_empty (S := setPhase .close s) hs hz
  refine ⟨data, ?_, hbits⟩
  rw [bind_change, Micro.bind_ok e]
  rfl

/-- A byte sequence is told by its bits (R66). -/
theorem bitsOf_injective {vs ws : List Byte} (h : bitsOf vs = bitsOf ws) : vs = ws := by
  rw [← wholeBytes_bitsOf vs, h, wholeBytes_bitsOf]

/-! ## The stages of DECOMPRESS (R193, R231, R235) -/

/-- Standing at `Ser(T)`, `DesTree` makes `T` the tree and stops right after it. -/
theorem desTree_steady {s : State} {T : HuffTree} {rest : Bits} (hr : Readable s) (heof : s.brEof = false)
    (hahead : bitsAhead s = ser T ++ rest) (hroot : isInternal T = true) (hn : treeNodes T ≤ 511) :
    ∃ pos buf avail,
      desTree s = .ok () { readNodes (dropTree s) pos buf avail (BitVec.ofNat 9 (treeNodes T)) with
        tree := some T, ptr := some [] } ∧
      bitsAhead (readTo s pos buf avail) = rest ∧ pos.toNat ≤ inLen s := by
  have hdepth := treeDepth_lt T
  have hleaves := treeNodes_eq T
  obtain ⟨pos, buf, avail, nn, e, hrest, hpos, hcount⟩ := getTree_ser T (Config.nodeCap + 1) (s := dropTree s)
    ⟨hr.isOpen, hr.steady, hr.inside, hr.short⟩ heof hahead (by rw [Config.nodeCap]; omega)
    (by rw [dropTree_nnodes, BitVec.toNat_zero]; omega)
  obtain rfl : nn = BitVec.ofNat 9 (treeNodes T) := by
    rw [dropTree_nnodes, BitVec.toNat_zero, Nat.zero_add] at hcount
    rw [← hcount, BitVec.ofNat_toNat, BitVec.setWidth_eq]
  refine ⟨pos, buf, avail, ?_, hrest, hpos⟩
  unfold desTree
  rw [bind_change, Micro.bind_ok e, hroot]
  rfl

/-- Standing at a padding byte up to 7, `RdPad` records it and stops right after it. -/
theorem rdPad_steady {s : State} {p : Byte} {rest : Bits} (hr : Readable s) (heof : s.brEof = false)
    (hahead : bitsAhead s = byteBits p ++ rest) (hp : p.toNat ≤ 7) :
    ∃ pos buf avail, rdPad s = .ok () { readTo s pos buf avail with pad := BitVec.ofNat 3 p.toNat } ∧
      bitsAhead (readTo s pos buf avail) = rest ∧ pos.toNat ≤ inLen s := by
  obtain ⟨pos, buf, avail, hrest, hpos, e⟩ := rdPad_ahead hr heof (by rw [hahead]; simp)
  have hbyte : byteOfBits ((bitsAhead s).take 8) = p := by
    rw [hahead, List.take_left' (byteBits_length p), byteOfBits_byteBits]
  rw [hahead, List.drop_left' (byteBits_length p)] at hrest
  rw [hbyte, if_neg (Nat.not_lt.2 hp)] at e
  exact ⟨pos, buf, avail, e, hrest, hpos⟩

/-- The call after the tree and the padding count: the reader stands at the payload. -/
def headerRead (s : State) (T : HuffTree) (p : Byte) (pos : Word) (buf : BitVec 8) (avail : Fin 9) : State :=
  { callOpened s with
    phase := .rdpad, inPos := pos, brBuf := buf, brAvail := avail
    tree := some T, ptr := some [], nnodes := BitVec.ofNat 9 (treeNodes T), pad := BitVec.ofNat 3 p.toNat }

/-- The two stages that read what stands before the payload (R103), `rest` being those after. -/
theorem call_reads_header {s : State} {T : HuffTree} {p : Byte} {payload : Bits} (hin : inSteady s)
    (hl : inLen s ≤ Config.lenMax) (hroot : isInternal T = true) (hn : treeNodes T ≤ 511) (hp : p.toNat ≤ 7)
    (hfile : bitsOf s.inStore.data = ser T ++ byteBits p ++ payload) (rest : Micro Unit) :
    ∃ pos buf avail,
      (change (setPhase .deserialize) >>= fun _ => desTree >>= fun _ => change (setPhase .rdpad) >>= fun _ =>
        rdPad >>= fun _ => rest) (callOpened s) = rest (headerRead s T p pos buf avail) ∧
      bitsAhead (headerRead s T p pos buf avail) = payload ∧ pos.toNat ≤ inLen s := by
  rw [List.append_assoc] at hfile
  obtain ⟨pos1, buf1, avail1, e1, hahead1, hpos1⟩ := desTree_steady (s := setPhase .deserialize (callOpened s))
    ⟨rfl, hin, Nat.zero_le _, hl⟩ rfl hfile hroot hn
  obtain ⟨pos, buf, avail, e2, hahead2, hpos2⟩ := rdPad_steady (s := setPhase .rdpad
    { readNodes (dropTree (setPhase .deserialize (callOpened s))) pos1 buf1 avail1 (BitVec.ofNat 9 (treeNodes T)) with
      tree := some T, ptr := some [] }) ⟨rfl, hin, hpos1, hl⟩ rfl hahead1 hp
  refine ⟨pos, buf, avail, ?_, hahead2, hpos2⟩
  rw [bind_change, Micro.bind_ok e1, bind_change, Micro.bind_ok e2]
  rfl

/-- Settles O55: the stages of R237 one after the other; what the traversal writes is whole bytes, so the close adds
nothing to them. -/
theorem decompressReplaysTheFile : Obligations.DecompressReplaysTheFile := by
  intro s T p payload hi ho hpresent hcreatable hin hout hlen hroot hn hp hfile
  obtain ⟨pos, buf, avail, eheader, hahead, hpos⟩ := call_reads_header hin hlen hroot hn hp hfile
    (change (setPhase .decode) >>= fun _ => decodePayload >>= fun _ => change (setPhase .close) >>= fun _ =>
      flushW >>= fun _ => change closeBoth >>= fun _ => change discardTree)
  obtain ⟨pos', buf', avail', wbuf, wcnt, data, path, edecode, _, hbits, hzero, _⟩ := decodePayload_steady
    (s := setPhase .decode (headerRead s T p pos buf avail)) ⟨rfl, hin, hpos, hlen⟩ rfl hroot rfl hout
  obtain ⟨out, eclose, hclose⟩ := call_closes
    (s := replayTo (setPhase .decode (headerRead s T p pos buf avail)) pos' buf' avail' wbuf wcnt data path) hout
    (hzero (callOpened_lowZero s)) discardTree
  have ecall : decompressCall (setPhase .idle s) = .ok () _ :=
    (call_opens (s := setPhase .idle s) hi ho hpresent hcreatable hlen _).trans
      (eheader.trans ((Micro.bind_ok edecode).trans eclose))
  refine ⟨_, exec_ok (i := .decompress) ecall, ?_, rfl⟩
  have hpad : (BitVec.ofNat 3 p.toNat).toNat = p.toNat := by
    rw [BitVec.toNat_ofNat, Nat.mod_eq_of_lt (by omega)]
  have hwritten : bitsWritten (setPhase .decode (headerRead s T p pos buf avail)) = [] := bitsWritten_callOpened s
  have hpayload : bitsAhead (setPhase .decode (headerRead s T p pos buf avail)) = payload := hahead
  have hpadding : (setPhase .decode (headerRead s T p pos buf avail)).pad.toNat = p.toNat := hpad
  rw [hwritten, hpayload, hpadding, List.nil_append] at hbits
  rw [hbits, bitsOf_length, Nat.mul_mod_right] at hclose
  exact bitsOf_injective (hclose.trans (List.append_nil _))

/-! ## The tree that the counts of an input give (R154, R156, R158) -/

/-- The counted slots are the bytes that occur. -/
theorem mem_nonZeroSlots_of_counts {f : FreqTable} {bytes : List Byte} (hf : ∀ b, (slotGet f b).toNat = bytes.count b)
    (b : Byte) : b ∈ nonZeroSlots f ↔ b ∈ bytes := by
  rw [mem_nonZeroSlots, ← List.count_pos_iff, ← hf b, Nat.pos_iff_ne_zero, ne_eq, ne_eq, not_iff_not]
  exact BitVec.toNat_eq (y := 0#32)

theorem leafQueue_leaves (f : FreqTable) : (leafQueue f).flatMap (fun e => leafBytes e.2) = nonZeroSlots f := by
  simp [leafQueue, leafBytes, List.flatMap_map]

/-- A merged tree has one leaf for each counted slot (R161). -/
theorem GreedyMerge.leaves_of_slots {f : FreqTable} {t : HuffTree} (h : GreedyMerge (leafQueue f) t) :
    (leafBytes t).Perm (nonZeroSlots f) := by
  have hp := h.leafBytes_perm
  rwa [leafQueue_leaves] at hp

theorem eq_leaf_of_leafBytes {t : HuffTree} {b : Byte} (h : leafBytes t = [b]) : t = .leaf b := by
  cases t with
  | leaf v =>
    obtain rfl : v = b := List.singleton_inj.1 h
    rfl
  | internal l r =>
    have hlen := congrArg List.length h
    have hl := treeLeaves_pos l
    have hr := treeLeaves_pos r
    rw [leafBytes_length, treeLeaves, List.length_singleton] at hlen
    omega

/-- The trees that `Build` can make of a non-empty input: R158's for one byte value, and for more a merged tree with one
leaf for each (R156, R161). -/
theorem BuildsFrom.cases {bytes : List Byte} {T : HuffTree} (h : BuildsFrom bytes T) (hne : bytes ≠ []) :
    (∃ b, (∀ x, x ∈ bytes ↔ x = b) ∧ T = .internal (.leaf b) (.leaf (b + 1#8))) ∨
    (isInternal T = true ∧ (leafBytes T).Nodup ∧ ∀ x, x ∈ leafBytes T ↔ x ∈ bytes) := by
  obtain ⟨f, t, hf, hmerge, rfl⟩ := h
  have hleaves := hmerge.leaves_of_slots
  have hmem := mem_nonZeroSlots_of_counts hf
  match hslots : nonZeroSlots f with
  | [] =>
    obtain ⟨x, hx⟩ := List.exists_mem_of_ne_nil bytes hne
    rw [← hmem, hslots] at hx
    cases hx
  | [b] =>
    rw [hslots] at hleaves
    rw [eq_leaf_of_leafBytes (List.perm_singleton.1 hleaves)]
    exact .inl ⟨b, fun x => by rw [← hmem, hslots, List.mem_singleton], rfl⟩
  | b :: c :: rest =>
    have hroot : isInternal t = true := hmerge.internal (.inl (by simp [leafQueue, hslots]))
    obtain ⟨l, r, rfl⟩ := isInternal_eq hroot
    exact .inr ⟨rfl, hleaves.nodup_iff.2 (nonZeroSlots_nodup f), fun x => hleaves.mem_iff.trans (hmem x)⟩

/-- What `COMPRESS` needs of its tree: an `Internal` root, no repeated leaf, a leaf for every byte of the input. -/
theorem BuildsFrom.spec {bytes : List Byte} {T : HuffTree} (h : BuildsFrom bytes T) (hne : bytes ≠ []) :
    isInternal T = true ∧ (leafBytes T).Nodup ∧ ∀ b ∈ bytes, b ∈ leafBytes T := by
  rcases h.cases hne with ⟨b, hall, rfl⟩ | ⟨hroot, hnodup, hmem⟩
  · exact ⟨rfl, by simp [leafBytes], fun x hx => by simp [leafBytes, (hall x).1 hx]⟩
  · exact ⟨hroot, hnodup, fun x hx => (hmem x).2 hx⟩

/-- A tree without repeated leaf values serializes to less than `TREEBITS` can hold (R9, R102). -/
theorem ser_length_lt {T : HuffTree} (h : (leafBytes T).Nodup) : (ser T).length < 2 ^ 12 := by
  have hl := byte_nodup_length_le h
  rw [leafBytes_length] at hl
  rw [ser_length]
  omega

/-! ## The stages of COMPRESS (R154, R156, R171, R177, R191, R211, R213) -/

/-- The first pass over an input that `OPENR` admits counts its bytes. -/
theorem tally_steady {s : State} (hr : Readable s) (heof : s.brEof = false) {bytes : List Byte}
    (hahead : bitsAhead s = bitsOf bytes) (hfreq : s.freq = emptyFreq) (hlen : bytes.length ≤ Config.freqMax) :
    ∃ pos buf avail d f, tally s = .ok () { readOut s pos buf avail d with freq := f } ∧
      (∀ b, (slotGet f b).toNat = bytes.count b) ∧ pos.toNat ≤ inLen s := by
  have hzero : ∀ b, (slotGet s.freq b).toNat = 0 := fun b => by rw [hfreq, slotGet_emptyFreq, BitVec.toNat_zero]
  obtain ⟨pos, buf, avail, d, f, e, hcount, _, hpos⟩ := tallyLoop_steady (readTurns s) hr heof readTurns_enough (by
    intro b
    rw [hzero, Nat.zero_add]
    rw [hahead, wholeBytes_bitsOf]
    exact List.count_le_length.trans hlen)
  rw [hahead, wholeBytes_bitsOf] at hcount
  exact ⟨pos, buf, avail, d, f, e, fun b => by rw [hcount, hzero, Nat.zero_add], hpos⟩

/-- `MkTab` on a tree without repeated leaf values. -/
theorem mkTab_steady {s : State} {T : HuffTree} (hT : s.tree = some T) (hn : (leafBytes T).Nodup) :
    ∃ code, mkTab s = .ok () { s with code := code, tabValid := true } ∧ ∀ b, slotGet code b = codewordOf T b := by
  rcases mkTab_cases s with ⟨hnone, _⟩ | ⟨t, _, ht, hdup, _⟩ | ⟨t, code, ht, _, hcode, e⟩
  · exact absurd (hT.symm.trans hnone) (by simp)
  · obtain rfl : T = t := Option.some.inj (hT.symm.trans ht)
    exact absurd hn hdup
  · obtain rfl : T = t := Option.some.inj (hT.symm.trans ht)
    exact ⟨code, e, hcode⟩

/-- The call after pass 1: the bytes counted, the reader at the end. -/
def callCounted (s : State) (pos : Word) (buf : BitVec 8) (avail : Fin 9) (d : Nat) (f : FreqTable) : State :=
  { callOpened s with
    phase := .pass1, inPos := pos, brBuf := buf, brAvail := avail, brEof := true, draws := d, freq := f }

/-- The call with the tree built and the table made from it. -/
def callTabled (s : State) (T : HuffTree) (pos : Word) (buf : BitVec 8) (avail : Fin 9) (d : Nat) (f : FreqTable)
    (code : CodeTable) : State :=
  { callCounted s pos buf avail d f with
    phase := .table
    tree := some T, ptr := some [], nnodes := BitVec.ofNat 9 (treeNodes T), code := code, tabValid := true }

/-- The call after pass 2: the payload in `ENC`. -/
def callEncoded (s : State) (T : HuffTree) (pos : Word) (buf : BitVec 8) (avail : Fin 9) (d : Nat) (f : FreqTable)
    (code : CodeTable) : State :=
  { callTabled s T pos buf avail d f code with phase := .pass2, enc := payloadOf T s.inStore.data }

/-- Pass 1 of `COMPRESS`, `rest` being the stages after. -/
theorem call_counts {s : State} (hin : inSteady s) (hl : inLen s ≤ Config.lenMax) (rest : Micro Unit) :
    ∃ pos buf avail d f,
      (change (setPhase .pass1) >>= fun _ => tally >>= fun _ => rest) (callOpened s) =
        rest (callCounted s pos buf avail d f) ∧
      (∀ b, (slotGet f b).toNat = s.inStore.data.count b) ∧ pos.toNat ≤ inLen s := by
  obtain ⟨pos, buf, avail, d, f, e, hcount, hpos⟩ := tally_steady (s := setPhase .pass1 (callOpened s))
    ⟨rfl, hin, Nat.zero_le _, hl⟩ rfl (bitsAhead_callOpened s) rfl hl
  refine ⟨pos, buf, avail, d, f, ?_, hcount, hpos⟩
  rw [bind_change, Micro.bind_ok e]
  rfl

/-- From the counts to the table of a tree that `Build` can make of them, `rest` being the stages after. -/
theorem call_tables {s : State} (pos : Word) (buf : BitVec 8) (avail : Fin 9) (d : Nat) {f : FreqTable}
    (hne : s.inStore.data ≠ []) (hcount : ∀ b, (slotGet f b).toNat = s.inStore.data.count b) (rest : Micro Unit) :
    ∃ T d' code, BuildsFrom s.inStore.data T ∧
      (change (setPhase .build) >>= fun _ => buildTree >>= fun _ => change (setPhase .table) >>= fun _ =>
        mkTab >>= fun _ => rest) (callCounted s pos buf avail d f) = rest (callTabled s T pos buf avail d' f code) ∧
      ∀ b, slotGet code b = codewordOf T b := by
  have hslots : nonZeroSlots f ≠ [] := by
    obtain ⟨x, hx⟩ := List.exists_mem_of_ne_nil _ hne
    exact List.ne_nil_of_mem ((mem_nonZeroSlots_of_counts hcount x).2 hx)
  obtain ⟨t, d', hmerge, e⟩ := buildTree_greedy (s := setPhase .build (callCounted s pos buf avail d f)) hslots
  have hbuilds : BuildsFrom s.inStore.data (rootOf t) := ⟨f, t, hcount, hmerge, rfl⟩
  obtain ⟨_, hnodup, _⟩ := hbuilds.spec hne
  obtain ⟨code, e', hcode⟩ := mkTab_steady
    (s := setPhase .table (built (setPhase .build (callCounted s pos buf avail d f)) (rootOf t) d')) rfl hnodup
  refine ⟨rootOf t, d', code, hbuilds, ?_, hcode⟩
  rw [bind_change, Micro.bind_ok e, bind_change, Micro.bind_ok e']
  rfl

/-- Pass 2 of `COMPRESS`, `rest` being the stages after. -/
theorem call_encodes {s : State} {T : HuffTree} {pos : Word} (buf : BitVec 8) (avail : Fin 9) (d : Nat) (f : FreqTable)
    {code : CodeTable} (hin : inSteady s) (hl : inLen s ≤ Config.lenMax) (hpos : pos.toNat ≤ inLen s)
    (hcode : ∀ b, slotGet code b = codewordOf T b) (hall : ∀ b ∈ s.inStore.data, b ∈ leafBytes T)
    (hfit : (payloadOf T s.inStore.data).length ≤ s.cfg.encCap.toNat) (rest : Micro Unit) :
    ∃ pos' buf' avail' d',
      (change (setPhase .pass2) >>= fun _ => rewindR >>= fun _ => encodeInput >>= fun _ => rest)
        (callTabled s T pos buf avail d f code) = rest (callEncoded s T pos' buf' avail' d' f code) := by
  obtain ⟨_, pos', buf', avail', d', e, rfl⟩ := rewind_encode_steady
    (S := setPhase .pass2 (callTabled s T pos buf avail d f code)) ⟨rfl, hin, hpos, hl⟩ rfl hcode hall hfit
  obtain ⟨_, s1, erewind, eencode⟩ := Micro.bind_ok_inv e
  refine ⟨pos', buf', avail', d', ?_⟩
  rw [bind_change, Micro.bind_ok erewind, Micro.bind_ok eencode]
  rfl

/-- The writer moved on in phase `ph`, with these counters recorded. -/
def callWrote (s : State) (ph : Phase) (buf : BitVec 8) (cnt : BitVec 3) (data : List Byte) (bits : BitVec 12)
    (pad : BitVec 3) : State :=
  { wroteTo s buf cnt data with phase := ph, treebits := bits, pad := pad }

/-- The stages that write: tree, padding count, payload, and zeros to a whole byte (R103). -/
theorem call_writes {s : State} {T : HuffTree} (hT : s.tree = some T) (hn : (leafBytes T).Nodup) (ho : s.outOpen = true)
    (hs : outSteady s) (hz : LowZero s) (h0 : bitsWritten s = []) (discard : State → State) :
    ∃ data,
      (change (setPhase .serialize) >>= fun _ => serTree >>= fun _ => change (setPhase .padding) >>= fun _ =>
        wrPad >>= fun _ => change (setPhase .payload) >>= fun _ => wrEnc >>= fun _ =>
        change (setPhase .close) >>= fun _ => flushW >>= fun _ => change closeBoth >>= fun _ => change discard) s =
      .ok () (discard (closeBoth (callWrote s .close 0#8 0#3 data (BitVec.ofNat 12 (ser T).length)
        (BitVec.ofNat 3 (paddingOf T s.enc))))) ∧
      bitsOf data = fileBits T s.enc := by
  have htree : (BitVec.ofNat 12 (ser T).length).toNat = (ser T).length := by
    rw [BitVec.toNat_ofNat, Nat.mod_eq_of_lt (ser_length_lt hn)]
  obtain ⟨s1, buf1, cnt1, data1, e1, hs1, hw1, hz1⟩ := serTree_steady (S := setPhase .serialize s) hT ho hs hz
  replace hs1 : s1 = callWrote s .serialize buf1 cnt1 data1 (BitVec.ofNat 12 (ser T).length) s.pad := hs1
  subst hs1
  obtain ⟨s2, buf2, cnt2, data2, e2, hs2, hw2, hz2⟩ := wrPad_steady (p := paddingOf T s.enc)
    (S := setPhase .padding (callWrote s .serialize buf1 cnt1 data1 (BitVec.ofNat 12 (ser T).length) s.pad))
    (congrArg (fun n => padCount (n + s.enc.length)) htree) ho hs hz1
  replace hs2 : s2 = callWrote s .padding buf2 cnt2 data2 (BitVec.ofNat 12 (ser T).length)
    (BitVec.ofNat 3 (paddingOf T s.enc)) := hs2
  subst hs2
  obtain ⟨s3, buf3, cnt3, data3, e3, hs3, hw3, hz3⟩ := wrEnc_steady
    (S := setPhase .payload (callWrote s .padding buf2 cnt2 data2 (BitVec.ofNat 12 (ser T).length)
      (BitVec.ofNat 3 (paddingOf T s.enc)))) ho hs hz2
  replace hs3 : s3 = callWrote s .payload buf3 cnt3 data3 (BitVec.ofNat 12 (ser T).length)
    (BitVec.ofNat 3 (paddingOf T s.enc)) := hs3
  obtain ⟨data, e4, hdata⟩ := call_closes (s := s3) (by rw [hs3]; exact hs) hz3 discard
  have hwritten : bitsWritten s3 = ser T ++ byteBits (BitVec.ofNat 8 (paddingOf T s.enc)) ++ s.enc := by
    calc bitsWritten s3
        = bitsWritten (callWrote s .padding buf2 cnt2 data2 _ _) ++ s.enc := hw3
      _ = bitsWritten (callWrote s .serialize buf1 cnt1 data1 _ _) ++ _ ++ s.enc := congrArg (· ++ s.enc) hw2
      _ = bitsWritten s ++ ser T ++ _ ++ s.enc := congrArg (· ++ _ ++ s.enc) hw1
      _ = _ := by rw [h0, List.nil_append]
  have hcount : (8 - (bitsWritten s3).length % 8) % 8 = paddingOf T s.enc := by
    rw [hwritten, paddingOf, padCount_eq, List.length_append, List.length_append, byteBits_length]
    omega
  refine ⟨data, ?_, by rw [hdata, hcount, hwritten, fileBits]⟩
  rw [bind_change, Micro.bind_ok e1, bind_change, Micro.bind_ok e2, bind_change, Micro.bind_ok e3, e4, hs3]
  rfl

/-- Settles O50: the stages of R215 one after the other, for the tree that the merges of this call lead to. -/
theorem compressWritesTheFile : Obligations.CompressWritesTheFile := by
  intro s hi ho hpresent hcreatable hin hout hne hlen hfit
  obtain ⟨pos, buf, avail, d, f, ecount, hcount, hpos⟩ := call_counts hin hlen _
  obtain ⟨T, d1, code, hbuilds, etable, hcode⟩ := call_tables pos buf avail d hne hcount _
  obtain ⟨hroot, hnodup, hall⟩ := hbuilds.spec hne
  obtain ⟨pos', buf', avail', d', eencode⟩ := call_encodes buf avail d1 f hin hlen hpos hcode hall (hfit T hbuilds) _
  obtain ⟨data, ewrite, hdata⟩ := call_writes (s := callEncoded s T pos' buf' avail' d' f code) rfl hnodup rfl hout
    (callOpened_lowZero s) (bitsWritten_callOpened s) discardCall
  have ecall : compressCall (setPhase .idle s) = .ok () _ :=
    (call_opens (s := setPhase .idle s) hi ho hpresent hcreatable hlen _).trans
      (ecount.trans (etable.trans (eencode.trans ewrite)))
  refine ⟨_, T, exec_ok (i := .compress) ecall, hbuilds, hroot, hnodup, hall, ?_, hdata, rfl⟩
  rcases hbuilds.cases hne with ⟨b, hb, hT⟩ | ⟨_, _, hmem⟩
  · exact .inl ⟨b, fun x hx => (hb x).1 hx, hT⟩
  · exact .inr fun b hb => (hmem b).1 hb

end Sys2Proof.Machine
end

section
/-! PROOFS. The control commands `NOP` and `INIT` and the issue rule that every command goes through (40_control.md
R120 to R122). -/

namespace Sys2Proof.Machine

/-- `NOP` passes through its phase and leaves `PHASE` idle (R120, R122). -/
theorem exec_nop (s : State) : exec .nop s = .next (setPhase .idle s) := rfl

theorem setPhase_idle_of_idle {s : State} (h : s.phase = .idle) : setPhase .idle s = s := by
  rw [← h]
  rfl

theorem encode_nop : encode .nop = 0x00000000#32 := by decide

theorem encode_init : encode .init = initWord := by decide

theorem decode_zero : decode 0x00000000#32 = .instr .nop := by
  rw [← encode_nop]
  exact decodeOfEncode .nop rfl

/-- `INIT` is honoured whatever fault is pending (R122). -/
theorem issue_initWord (s : State) : issue initWord s = exec .init s := if_pos rfl

/-- A whole word fetched at the width of `CMD` is the word itself. -/
theorem withFetchWord_toNat (w : Word) (s : State) : s.withFetchWord 32 w.toNat = pushCommand w s := by
  rw [State.withFetchWord, Nat.mod_eq_of_lt w.isLt, BitVec.ofNat_toNat, BitVec.setWidth_eq]

/-- Settles O6: a step on a pushed word is `issue` of it, whose branches are `issue_decoded`, `issue_sticky`,
`issue_instr` and `issue_initWord`. -/
theorem stepRunsDecodedCommand : Obligations.StepRunsDecodedCommand := by
  refine ⟨fun w s h0 hw => ?_, fun w s he hw => ?_, fun w i s h0 hd => ?_, issue_initWord⟩
  · rw [step_pushCommand, issue_decoded hw h0]
    cases decode w <;> rfl
  · rw [step_pushCommand, issue_sticky hw he]
  · rw [withFetchWord_toNat, step_pushCommand, issue_instr h0 hd]
    exact ⟨rfl, rfl⟩

/-- Settles O11: `INIT` is `resetBlock` (`exec_init`), which hardware reset is too, and no other word gets past a
pending fault (`issue_sticky`). -/
theorem initResetsTheBlock : Obligations.InitResetsTheBlock := by
  refine ⟨encode_init, exec_init State.reset, fun w s he hw => issue_sticky hw he, fun s => ⟨?_, ?_, ?_⟩⟩
  · exact exec_init s
  · exact issue_initWord s
  · exact (exec_init s).symm

/-- Settles O26: `NOP` only writes `PHASE`, which an idle block holds already; with a fault pending the word is
ignored. -/
theorem nopDoesNothing : Obligations.NopDoesNothing := by
  refine ⟨encode_nop, fun s hidle => ?_⟩
  have hnop : exec .nop s = .next s := by rw [exec_nop, setPhase_idle_of_idle hidle]
  refine ⟨hnop, ?_⟩
  by_cases h0 : s.err = 0#4
  · rw [issue_instr h0 decode_zero, hnop]
  · exact issue_sticky (by decide) h0

end Sys2Proof.Machine
end

section
/-! PROOFS. Bit I/O (41_bit_io.md): the eleven commands of the two handles from the case lemmas of their bodies, a byte
at any bit offset (R132), and the two laws of R147 by induction over scripts. -/

namespace Sys2Proof.Machine

/-! ## Bits of a byte (R66) -/

theorem getElem_byteBits (v : Byte) {i : Nat} (h : i < (byteBits v).length) : (byteBits v)[i] = v.getLsbD (7 - i) := by
  rw [byteBits_length] at h
  interval_cases i <;> rfl

/-- What `v[j] <- b` leaves at each bit. -/
theorem getLsbD_setBit (v : BitVec 8) (j : Nat) (b : Bool) {k : Nat} (hk : k < 8) :
    (setBit v j b).getLsbD k = if k = j then b else v.getLsbD k := by
  rcases lt_trichotomy k j with h | rfl | h
  · simp [setBit, hk, h, h.ne]
  · simp [setBit, hk]
  · have h0 : k - j ≠ 0 := by omega
    simp [setBit, hk, h.ne', h.not_gt, h0]

/-- The buffer's pending bits, over zeros, with the first bits of `v` behind them (R132). -/
theorem byteBits_or_shiftRight {u v : Byte} {c : Nat} (hc : c < 8) (h0 : ∀ k, k < 8 - c → u.getLsbD k = false) :
    byteBits (u ||| v >>> c) = (byteBits u).take c ++ (byteBits v).take (8 - c) := by
  refine List.ext_getElem (by simp; omega) fun i hi _ => ?_
  rw [byteBits_length] at hi
  rw [getElem_byteBits, BitVec.getLsbD_or, BitVec.getLsbD_ushiftRight, List.getElem_append]
  split
  case isTrue h =>
    have hi' : i < c := by simp at h; omega
    simp [getElem_byteBits, BitVec.getLsbD_of_ge v (c + (7 - i)) (by omega)]
  case isFalse h =>
    have hi' : c ≤ i := by simp at h; omega
    have hidx : c + (7 - i) = 7 - (i - c) := by omega
    simp [getElem_byteBits, h0 (7 - i) (by omega), hidx, Nat.min_eq_left hc.le]

/-- The last `c` bits of `v`, over zeros (R132). -/
theorem byteBits_shiftLeft (v : Byte) {c : Nat} (hc : c < 8) :
    byteBits (v <<< (8 - c)) = (byteBits v).drop (8 - c) ++ List.replicate (8 - c) false := by
  refine List.ext_getElem (by simp) fun i hi _ => ?_
  rw [byteBits_length] at hi
  rw [getElem_byteBits, BitVec.getLsbD_shiftLeft, List.getElem_append]
  split
  case isTrue h =>
    have hi' : i < c := by simp at h; omega
    have hidx : 7 - i - (8 - c) = 7 - (8 - c + i) := by omega
    simp [getElem_byteBits, hidx]
    omega
  case isFalse h =>
    have hi' : c ≤ i := by simp at h; omega
    simp
    omega

/-- Bit `j` of a byte sequence is bit `7 - j mod 8` of byte `j div 8` (R66, R147). -/
theorem getElem?_bitsOf (vs : List Byte) {j : Nat} (h : j < 8 * vs.length) :
    (bitsOf vs)[j]? = some ((vs.getD (j / 8) 0#8).getLsbD (7 - j % 8)) := by
  induction vs generalizing j with
  | nil => simp at h
  | cons v vs ih =>
    rw [bitsOf_cons]
    rcases lt_or_ge j 8 with hj | hj
    · rw [List.getElem?_append_left (by simpa using hj), List.getElem?_eq_getElem (by simpa using hj), getElem_byteBits]
      simp [Nat.div_eq_of_lt hj, Nat.mod_eq_of_lt hj]
    · obtain ⟨i, rfl⟩ : ∃ i, j = i + 8 := ⟨j - 8, by omega⟩
      rw [List.getElem?_append_right (by simp), byteBits_length, Nat.add_sub_cancel,
        ih (by simp at h; omega)]
      simp

theorem zextBit_eq (b : Bool) : zextBit b = 0#31 ++ BitVec.ofBool b := setWidth_eq_zero_append (v := 31) _

theorem zextByte_eq (v : Byte) : v.setWidth 32 = 0#24 ++ v := setWidth_eq_zero_append (v := 24) v

/-! ## WriteBit, case by case (R131) -/

theorem writeBit_buffers {s : State} (b : Bool) (ho : s.outOpen = true) (hc : s.bwCnt.toNat < 7) :
    writeBit b s = .ok () { s with bwBuf := setBit s.bwBuf (7 - s.bwCnt.toNat) b, bwCnt := s.bwCnt + 1#3 } := by
  simpa [ho, hc, hc.ne] using writeBit_cases b s

theorem writeBit_appends {s : State} (b : Bool) (ho : s.outOpen = true) (hc : s.bwCnt.toNat = 7)
    (hok : (outAsk s.outStore).ok = true) :
    writeBit b s = .ok () (clearWriter { s with outStore := memAppend (outAsk s.outStore) (setBit s.bwBuf 0 b) }) := by
  simpa [ho, hc, hok] using writeBit_cases b s

theorem writeBit_broken {s : State} (b : Bool) (ho : s.outOpen = true) (hc : s.bwCnt.toNat = 7)
    (hb : (outAsk s.outStore).ok = false) :
    writeBit b s = .error ⟨.outBroken, 0#8⟩ { s with bwBuf := setBit s.bwBuf 0 b, outStore := outAsk s.outStore } := by
  simpa [ho, hc, hb] using writeBit_cases b s

theorem bwCnt_succ {c : BitVec 3} (h : c.toNat < 7) : (c + 1#3).toNat = c.toNat + 1 := by
  rw [BitVec.toNat_add_of_lt (by simp; omega)]
  rfl

/-- An append changes the store's bytes and takes one answer of the environment. -/
theorem memAppend_outAsk (st : OutStore) (v : Byte) :
    memAppend (outAsk st) v = { outAsk st with data := st.data ++ [v] } := by
  obtain ⟨ok, plan, h, _⟩ := outAsk_eq st
  rw [h]
  rfl

/-! ## Settled: one bit -/

/-- Settles O28: the three ways `WriteBit` can end through an open writer, in the frame of the command. -/
theorem wrbitWritesOneBit : Obligations.WrbitWritesOneBit := by
  intro a s ho
  refine ⟨fun k hk => getLsbD_setBit _ _ _ hk, fun hc => ?_, fun hc hok => ?_, fun hc hb => ?_⟩
  · exact exec_ok (i := .wrbit a) (writeBit_buffers (s := setPhase .bitio s) _ ho hc)
  · rw [exec_ok (i := .wrbit a) (writeBit_appends (s := setPhase .bitio s) _ ho hc hok), setPhase_outStore,
      memAppend_outAsk]
    rfl
  · exact exec_error (i := .wrbit a) (writeBit_broken (s := setPhase .bitio s) _ ho hc hb)

/-! ## A byte at any offset (R132) -/

/-- Bits that just fill the buffer are appended with what was pending, as one byte. -/
theorem writeBits_fills (bs : Bits) {s : State} (ho : s.outOpen = true) (hok : (outAsk s.outStore).ok = true)
    (hn : s.bwCnt.toNat + bs.length = 8) :
    ∃ w, writeBits bs s = .ok () (clearWriter { s with outStore := memAppend (outAsk s.outStore) w }) ∧
      byteBits w = (byteBits s.bwBuf).take s.bwCnt.toNat ++ bs := by
  induction bs generalizing s with
  | nil =>
    have := s.bwCnt.isLt
    simp at hn
    omega
  | cons b bs ih =>
    rw [List.length_cons] at hn
    have hset := take_setBit s.bwBuf s.bwCnt.toNat s.bwCnt.isLt b
    rcases Nat.lt_or_ge s.bwCnt.toNat 7 with hc | hc
    · have e := writeBit_buffers b ho hc
      obtain ⟨w, e', hw⟩ := ih (s := { s with bwBuf := setBit s.bwBuf (7 - s.bwCnt.toNat) b, bwCnt := s.bwCnt + 1#3 })
        ho hok (by rw [bwCnt_succ hc]; omega)
      refine ⟨w, (Micro.bind_ok e).trans e', ?_⟩
      rw [hw, bwCnt_succ hc, hset]
      simp
    · have h7 : s.bwCnt.toNat = 7 := by have := s.bwCnt.isLt; omega
      obtain rfl : bs = [] := List.eq_nil_of_length_eq_zero (by omega)
      refine ⟨setBit s.bwBuf 0 b, Micro.bind_ok (writeBit_appends b ho h7 hok), ?_⟩
      rw [h7] at hset ⊢
      rw [← hset]
      exact (List.take_of_length_le (by simp)).symm

/-- Bits that leave room in the buffer stay pending, zeros below them. -/
theorem writeBits_stays_pending (bs : Bits) {s : State} (ho : s.outOpen = true) (hz : LowZero s)
    (hn : s.bwCnt.toNat + bs.length < 8) :
    ∃ buf cnt, writeBits bs s = .ok () { s with bwBuf := buf, bwCnt := cnt } ∧
      cnt.toNat = s.bwCnt.toNat + bs.length ∧
      byteBits buf = (byteBits s.bwBuf).take s.bwCnt.toNat ++ bs ++
        List.replicate (8 - (s.bwCnt.toNat + bs.length)) false := by
  induction bs generalizing s with
  | nil => exact ⟨s.bwBuf, s.bwCnt, rfl, rfl, by simpa using byteBits_zeroFill s.bwBuf _ s.bwCnt.isLt hz⟩
  | cons b bs ih =>
    rw [List.length_cons] at hn
    have hc : s.bwCnt.toNat < 7 := by omega
    obtain ⟨buf, cnt, e, hcnt, hbuf⟩ := ih
      (s := { s with bwBuf := setBit s.bwBuf (7 - s.bwCnt.toNat) b, bwCnt := s.bwCnt + 1#3 }) ho
      (fun k hk => by
        rw [bwCnt_succ hc] at hk
        rw [getLsbD_setBit_low _ _ _ (by omega) (by omega)]
        exact hz k (by omega))
      (by rw [bwCnt_succ hc]; omega)
    rw [bwCnt_succ hc] at hcnt hbuf
    have hlen : s.bwCnt.toNat + 1 + bs.length = s.bwCnt.toNat + (b :: bs).length := by simp; omega
    rw [hlen] at hcnt hbuf
    refine ⟨buf, cnt, (Micro.bind_ok (writeBit_buffers b ho hc)).trans e, hcnt, ?_⟩
    rw [hbuf, take_setBit _ _ s.bwCnt.isLt]
    simp

/-- `WriteByte` through an open writer: the first `8 - c` bits of `v` fill the buffer, the last `c` stay (R132). -/
theorem writeByte_appends {s : State} (v : Byte) (ho : s.outOpen = true) (hz : LowZero s)
    (hok : (outAsk s.outStore).ok = true) :
    writeByte v s = .ok () { s with
      outStore := memAppend (outAsk s.outStore) (s.bwBuf ||| (v >>> s.bwCnt.toNat))
      bwBuf := v <<< (8 - s.bwCnt.toNat) } := by
  have hc := s.bwCnt.isLt
  obtain ⟨w, e, hw⟩ := writeBits_fills ((byteBits v).take (8 - s.bwCnt.toNat)) ho hok (by simp; omega)
  obtain ⟨buf, cnt, e', hcnt, hbuf⟩ := writeBits_stays_pending ((byteBits v).drop (8 - s.bwCnt.toNat))
    (s := clearWriter { s with outStore := memAppend (outAsk s.outStore) w }) ho (fun _ _ => BitVec.getLsbD_zero)
    (by simp; omega)
  have hlen : ((byteBits v).drop (8 - s.bwCnt.toNat)).length = s.bwCnt.toNat := by simp; omega
  simp only [clearWriter_bwCnt, BitVec.toNat_zero, List.take_zero, List.nil_append, Nat.zero_add, hlen] at hcnt hbuf
  obtain rfl : w = s.bwBuf ||| (v >>> s.bwCnt.toNat) :=
    byteBits_injective (hw.trans (byteBits_or_shiftRight hc hz).symm)
  obtain rfl : buf = v <<< (8 - s.bwCnt.toNat) := byteBits_injective (hbuf.trans (byteBits_shiftLeft v hc).symm)
  obtain rfl : cnt = s.bwCnt := BitVec.eq_of_toNat_eq hcnt
  rw [writeByte, ← List.take_append_drop (8 - s.bwCnt.toNat) (byteBits v), writeBits_append, Micro.bind_ok e, e']
  rfl

/-- Settles O29: `writeByte_appends` on a healthy store, `exec_writeBits_broken` on a broken one. -/
theorem wrbyteWritesOneByte : Obligations.WrbyteWritesOneByte := by
  intro v s ho hz
  refine ⟨fun hok => ?_, fun hb => ?_⟩
  · rw [exec_ok (i := .wrbyte v) (writeByte_appends (s := setPhase .bitio s) v ho hz hok), setPhase_outStore,
      memAppend_outAsk]
    rfl
  · exact exec_writeBits_broken (i := .wrbyte v) (s1 := setPhase .bitio s) rfl ho hb (by simp)

/-! ## Reading (R137, R138) -/

/-- `RDBIT` with a bit ahead. -/
theorem exec_rdbit_ahead {s : State} (h : Readable s) {b : Bool} {rest : Bits} (hb : bitsAhead s = b :: rest) :
    ∃ pos buf avail,
      exec .rdbit s = .next { readTo s pos buf avail with result := 0#31 ++ BitVec.ofBool b, phase := .idle } ∧
      bitsAhead (readTo s pos buf avail) = rest ∧ pos.toNat ≤ inLen s := by
  obtain ⟨pos, buf, avail, e, hrest, hpos⟩ :=
    readBit_ahead (s := setPhase .bitio s) ⟨h.isOpen, h.steady, h.inside, h.short⟩ hb
  refine ⟨pos, buf, avail, ?_, hrest, hpos⟩
  rw [← zextBit_eq]
  exact exec_ok (i := .rdbit) (Micro.bind_ok e)

theorem readBit_past_end {s : State} (ho : s.inOpen = true) (ha : s.brAvail = 0) (hp : inLen s ≤ s.inPos.toNat) :
    readBit s = .ok (Config.drawBit s.draws) { s with brEof := true, draws := s.draws + 1 } := by
  simpa [ho, ha, hp, Nat.not_lt.2 hp] using readBit_cases s

theorem readBit_refill_broken {s : State} (ho : s.inOpen = true) (ha : s.brAvail = 0) (hp : s.inPos.toNat < inLen s)
    (hb : (inAsk s.inStore s.inPos.toNat).ok = false) :
    readBit s = .error ⟨.inBroken, 0#8⟩ { s with inStore := inAsk s.inStore s.inPos.toNat } := by
  simpa [ho, ha, hp, Nat.not_le.2 hp, hb] using readBit_cases s

/-- `RDBIT` at the end of the input. -/
theorem exec_rdbit_end {s : State} (ho : s.inOpen = true) (ha : s.brAvail = 0) (hp : inLen s ≤ s.inPos.toNat) :
    exec .rdbit s = .next { s with
      brEof := true, draws := s.draws + 1, result := 0#31 ++ BitVec.ofBool (Config.drawBit s.draws)
      phase := .idle } := by
  rw [← zextBit_eq]
  exact exec_ok (i := .rdbit) (Micro.bind_ok (readBit_past_end (s := setPhase .bitio s) ho ha hp))

/-- Settles O32: a bit ahead, the end of the input, and a refill that fails, each a case of `readBit_cases`. -/
theorem rdbitReadsOneBit : Obligations.RdbitReadsOneBit := by
  refine ⟨fun s b rest hr hb => ?_, fun s => exec_rdbit_end, fun s ho ha hp hb => ?_⟩
  · obtain ⟨pos, buf, avail, e, hrest, hpos⟩ := exec_rdbit_ahead hr hb
    exact ⟨_, e, rfl, hrest, hpos, rfl⟩
  · exact exec_error (i := .rdbit) (Micro.bind_error (readBit_refill_broken (s := setPhase .bitio s) ho ha hp hb))

/-- Settles O33: `readByte_ahead` and `readByte_end` in the frame of the command. -/
theorem rdbyteReadsOneByte : Obligations.RdbyteReadsOneByte := by
  intro s hr
  have hr' : Readable (setPhase .bitio s) := ⟨hr.isOpen, hr.steady, hr.inside, hr.short⟩
  refine ⟨fun hn => ?_, fun hn => ?_⟩
  · obtain ⟨pos, buf, avail, e, hrest, _⟩ := readByte_ahead hr' hn
    exact ⟨_, exec_ok (i := .rdbyte) (Micro.bind_ok e), zextByte_eq _, hrest, rfl⟩
  · obtain ⟨pos, buf, avail, d, v, e, hrest, _⟩ := readByte_end hr' hn
    exact ⟨_, v, exec_ok (i := .rdbyte) (Micro.bind_ok e), zextByte_eq _, hrest, rfl, rfl⟩

/-! ## Opening, closing, views (R133, R136, R139, R140, R143 to R146) -/

theorem openW_twice {s : State} (ho : s.outOpen = true) : openW s = .error ⟨.alreadyOpen, 0#8⟩ s := by
  simpa [ho] using openW_cases s

theorem openW_uncreatable {s : State} (ho : s.outOpen = false) (hc : s.outStore.creatable = false) :
    openW s = .error ⟨.outOpenFail, 0#8⟩ s := by
  simpa [ho, hc] using openW_cases s

theorem openR_twice {s : State} (ho : s.inOpen = true) : openR s = .error ⟨.alreadyOpen, 0#8⟩ s := by
  simpa [ho] using openR_cases s

theorem openR_absent {s : State} (ho : s.inOpen = false) (hp : s.inStore.present = false) :
    openR s = .error ⟨.inOpenFail, 0#8⟩ s := by
  simpa [ho, hp] using openR_cases s

theorem openR_too_long {s : State} (ho : s.inOpen = false) (hp : s.inStore.present = true)
    (hl : Config.lenMax < inLen s) : openR s = .error ⟨.inTooLong, 0#8⟩ s := by
  simpa [ho, hp, hl, Nat.not_le.2 hl] using openR_cases s

/-- Settles O27: the branches of `openW_cases` and `openR_cases`, in order. -/
theorem openCommands : Obligations.OpenCommands := by
  refine ⟨by decide, by decide, fun s => ⟨fun ho => ?_, fun ho hc => ?_, fun ho hc => ?_⟩,
    fun s => ⟨fun ho => ?_, fun ho hp => ?_, fun ho hp hl => ?_, fun ho hp hl => ?_⟩⟩
  · exact exec_error (i := .openw) (openW_twice (s := setPhase .opening s) ho)
  · exact exec_error (i := .openw) (openW_uncreatable (s := setPhase .opening s) ho hc)
  · exact exec_ok (i := .openw) (openW_ok (s := setPhase .opening s) ho hc)
  · exact exec_error (i := .openr) (openR_twice (s := setPhase .opening s) ho)
  · exact exec_error (i := .openr) (openR_absent (s := setPhase .opening s) ho hp)
  · exact exec_error (i := .openr) (openR_too_long (s := setPhase .opening s) ho hp hl)
  · exact exec_ok (i := .openr) (openR_ok (s := setPhase .opening s) ho hp hl)

/-- Settles O30: each of the three only sets `RESULT`. -/
theorem viewsInResult : Obligations.ViewsInResult := by
  intro s
  refine ⟨?_, ?_, fun slot => rfl⟩
  · rw [← setWidth_eq_zero_append]
    rfl
  · rw [← zextBit_eq]
    rfl

/-- `CLOSEW`'s body through an open writer is `FlushW`, then the handle closes (R139). -/
theorem closeW_open {s : State} (ho : s.outOpen = true) :
    closeW s = (flushW >>= fun _ => change fun t => { t with outOpen := false }) s := by
  rcases closeW_cases s with ⟨hc, _⟩ | ⟨s1, _, hf, e⟩ | ⟨c, s1, _, hf, e⟩
  · exact absurd (ho.symm.trans hc) (by decide)
  · rw [e, Micro.bind_ok hf]
    rfl
  · rw [e, Micro.bind_error hf]

theorem flushW_none_pending {s : State} (hc : s.bwCnt = 0#3) : flushW s = .ok () s := by
  simpa [hc] using flushW_cases s

theorem flushW_appends {s : State} (hc : s.bwCnt ≠ 0#3) (hok : (outAsk s.outStore).ok = true) :
    flushW s = .ok () (clearWriter { s with outStore := memAppend (outAsk s.outStore) s.bwBuf }) := by
  simpa [hc, hok] using flushW_cases s

theorem flushW_broken {s : State} (hc : s.bwCnt ≠ 0#3) (hb : (outAsk s.outStore).ok = false) :
    flushW s = .error ⟨.outBroken, 0#8⟩ { s with outStore := outAsk s.outStore } := by
  simpa [hc, hb] using flushW_cases s

theorem closeR_open {s : State} (ho : s.inOpen = true) : closeR s = .ok () { s with inOpen := false } := by
  simpa [ho] using closeR_cases s

theorem rewindR_open {s : State} (ho : s.inOpen = true) : rewindR s = .ok () (restartReader s) := by
  simpa [ho] using rewindR_cases s

/-- Settles O31: `CLOSEW` by the cases of `FlushW`, the reader's two by their own bodies. -/
theorem closeAndRewind : Obligations.CloseAndRewind := by
  intro s
  have hclose (ho : s.outOpen = true) := closeW_open (s := setPhase .close s) ho
  refine ⟨fun ho hc => ?_, fun ho hc hok => ?_, fun ho hc hb => ?_, fun ho => ?_, fun ho => ?_⟩
  · have e := flushW_none_pending (s := setPhase .close s) hc
    exact exec_ok (i := .closew) ((hclose ho).trans (Micro.bind_ok e))
  · have e := flushW_appends (s := setPhase .close s) hc hok
    rw [exec_ok (i := .closew) ((hclose ho).trans (Micro.bind_ok e)), setPhase_outStore, memAppend_outAsk]
    rfl
  · have e := flushW_broken (s := setPhase .close s) hc hb
    exact exec_error (i := .closew) ((hclose ho).trans (Micro.bind_error e))
  · exact exec_ok (i := .closer) (closeR_open (s := setPhase .close s) ho)
  · exact exec_ok (i := .rewind) (rewindR_open (s := setPhase .bitio s) ho)

/-! ## Scripts (R147) -/

/-- A script whose first word is that of a well-formed command runs that command first (R122). -/
theorem runWords_command {i : Instr} {w : Word} {ws : List Word} {s t : State} (h0 : s.err = 0#4)
    (hwf : i.wellFormed = true) (hw : encode i = w) (h : exec i s = .next t) :
    runWords (w :: ws) s = runWords ws t := by
  subst hw
  rw [runWords, step_pushCommand, issue_instr h0 (decodeOfEncode i hwf), h]

/-- The word of `WRBIT b`. -/
def wrbitWord (b : Bool) : Word := if b then 0x11010000#32 else 0x11000000#32

/-- The operand byte of `WRBIT b`. -/
def wrbitOperand (b : Bool) : Byte := if b then 1#8 else 0#8

theorem bitOperand_wrbitOperand (b : Bool) : bitOperand (wrbitOperand b) = b := by
  cases b <;> rfl

theorem encode_wrbit (b : Bool) :
    (Instr.wrbit (wrbitOperand b)).wellFormed = true ∧ encode (.wrbit (wrbitOperand b)) = wrbitWord b := by
  cases b <;> decide

/-- A script of `WRBIT`s into a healthy store writes its bits and changes nothing else. -/
theorem runWords_wrbits (bits : Bits) {s : State} (h0 : s.err = 0#4) (hidle : s.phase = .idle) (ho : s.outOpen = true)
    (hs : outSteady s) (hz : LowZero s) :
    ∃ buf cnt data, runWords (bits.map wrbitWord) s = .next (wroteTo s buf cnt data) ∧
      bitsWritten (wroteTo s buf cnt data) = bitsWritten s ++ bits ∧ LowZero (wroteTo s buf cnt data) := by
  induction bits generalizing s with
  | nil => exact ⟨s.bwBuf, s.bwCnt, s.outStore.data, rfl, (List.append_nil _).symm, hz⟩
  | cons b bits ih =>
    obtain ⟨buf, cnt, data, e, hbits, hz1⟩ := writeBits_steady [b] (setPhase .bitio s) ho hs
    have hone : exec (.wrbit (wrbitOperand b)) s = .next (wroteTo s buf cnt data) := by
      have hbody : bodyOf (.wrbit (wrbitOperand b)) = writeBits [b] := by
        simp [bodyOf, bitOperand_wrbitOperand, writeBits]
      rw [exec_ok ((congrFun hbody _).trans e)]
      exact congrArg (fun p => Host.Outcome.next { wroteTo s buf cnt data with phase := p }) hidle.symm
    obtain ⟨buf', cnt', data', e', hbits', hz'⟩ := ih (s := wroteTo s buf cnt data) h0 hidle ho hs (hz1 hz)
    refine ⟨buf', cnt', data', ?_, ?_, hz'⟩
    · rw [List.map_cons, runWords_command h0 (encode_wrbit b).1 (encode_wrbit b).2 hone, e']
      rfl
    · calc bitsWritten (wroteTo s buf' cnt' data')
        _ = bitsWritten (wroteTo s buf cnt data) ++ bits := hbits'
        _ = (bitsWritten s ++ [b]) ++ bits := congrArg (· ++ bits) hbits
        _ = bitsWritten s ++ b :: bits := by simp

/-- `CLOSEW` on a healthy store completes what was written to whole bytes with zeros. -/
theorem exec_closew_steady {s : State} (ho : s.outOpen = true) (hs : outSteady s) (hz : LowZero s) :
    ∃ u, exec .closew s = .next u ∧
      bitsOf u.outStore.data = bitsWritten s ++ List.replicate ((8 - s.bwCnt.toNat) % 8) false := by
  obtain ⟨data, e, hbits⟩ := flushW_steady (setPhase .close s) hs hz
  exact ⟨_, exec_ok (i := .closew) ((closeW_open (s := setPhase .close s) ho).trans (Micro.bind_ok e)), hbits⟩

/-- Settles O34: `OPENW`, then the script by `runWords_wrbits`, then the close fill; the lengths follow from
the bits. -/
theorem writerLaw : Obligations.WriterLaw := by
  intro bits s h0 ho hc hs
  have hopen := exec_ok (i := .openw) (openW_ok (s := setPhase .opening s) ho hc)
  obtain ⟨buf, cnt, data, e, hbits, hz⟩ :=
    runWords_wrbits bits (s := setPhase .idle (clearWriter { setPhase .opening s with
      outStore := { s.outStore with data := [] }, outOpen := true })) h0 rfl rfl hs (fun _ _ => BitVec.getLsbD_zero)
  have hwritten := hbits.trans (List.nil_append bits)
  generalize htdef : wroteTo _ buf cnt data = t at e hwritten hz
  have hto : t.outOpen = true := by rw [← htdef]; rfl
  have hts : outSteady t := by rw [← htdef]; exact hs
  obtain ⟨u, hu, hubits⟩ := exec_closew_steady hto hts hz
  have hcnt := bwCnt_of_bitsWritten t
  have htlen := bitsWritten_length t
  have hulen := congrArg List.length hubits
  rw [hwritten] at hcnt htlen hubits hulen
  rw [hcnt] at hubits hulen
  rw [bitsOf_length, List.length_append, List.length_replicate] at hulen
  exact ⟨t, u, (runWords_command h0 rfl (by decide) hopen).trans e, by omega, hcnt, hwritten, hu, by omega, hubits⟩

/-- After an `RDBIT` with a bit ahead the reader stands one bit further, ready for the next. -/
theorem rdbit_step {s : State} (h : Readable s) {b : Bool} {rest : Bits} (hb : bitsAhead s = b :: rest) :
    ∃ t, exec .rdbit s = .next t ∧ t.err = s.err ∧ Readable t ∧ bitsAhead t = rest ∧ t.brEof = s.brEof := by
  obtain ⟨pos, buf, avail, e, hrest, hpos⟩ := exec_rdbit_ahead h hb
  exact ⟨_, e, rfl, ⟨h.isOpen, h.steady, hpos, h.short⟩, hrest, rfl⟩

/-- `n` `RDBIT`s with `n` bits ahead take those bits, and the script goes on from there. -/
theorem runWords_rdbits (n : Nat) (ws : List Word) {s : State} (h0 : s.err = 0#4) (hr : Readable s)
    (hn : n ≤ (bitsAhead s).length) :
    ∃ t, runWords (List.replicate n 0x19000000#32 ++ ws) s = runWords ws t ∧ t.err = 0#4 ∧ Readable t ∧
      bitsAhead t = (bitsAhead s).drop n ∧ t.brEof = s.brEof := by
  induction n generalizing s with
  | zero => exact ⟨s, rfl, h0, hr, rfl, rfl⟩
  | succ n ih =>
    cases hb : bitsAhead s with
    | nil => rw [hb] at hn; simp at hn
    | cons b rest =>
      rw [hb, List.length_cons] at hn
      obtain ⟨s1, e, herr, hr1, hrest, heof⟩ := rdbit_step hr hb
      obtain ⟨t, e', ht0, htr, hta, hte⟩ := ih (herr.trans h0) hr1 (by rw [hrest]; omega)
      refine ⟨t, ?_, ht0, htr, by rw [hta, hrest, List.drop_succ_cons], hte.trans heof⟩
      rw [List.replicate_succ, List.cons_append, runWords_command h0 rfl (by decide) e, e']

/-- The state `OPENR` leaves: the whole input ahead. -/
theorem exec_openr_ok {s : State} (ho : s.inOpen = false) (hp : s.inStore.present = true) (hs : inSteady s)
    (hl : inLen s ≤ Config.lenMax) :
    ∃ t, exec .openr s = .next t ∧ t.err = s.err ∧ Readable t ∧ bitsAhead t = bitsOf s.inStore.data ∧
      t.brEof = false :=
  ⟨_, exec_ok (i := .openr) (openR_ok (s := setPhase .opening s) ho hp hl), rfl, ⟨rfl, hs, Nat.zero_le _, hl⟩, rfl, rfl⟩

/-- Settles O35: after `OPENR` and `j` `RDBIT`s the bits ahead are those of the input from `j` on; the next `RDBIT`
returns the first of them, or meets the end. -/
theorem readerLaw : Obligations.ReaderLaw := by
  intro s h0 ho hp hs hl
  obtain ⟨s1, eopen, herr, hr, hahead, heof⟩ := exec_openr_ok ho hp hs hl
  have hlen : (bitsAhead s1).length = 8 * inLen s := by rw [hahead, bitsOf_length, inLen]
  have hrun : ∀ j, j ≤ 8 * inLen s → ∃ t,
      runWords (0x18000000#32 :: List.replicate (j + 1) 0x19000000#32) s = runWords [0x19000000#32] t ∧
      t.err = 0#4 ∧ Readable t ∧ bitsAhead t = (bitsOf s.inStore.data).drop j ∧ t.brEof = false := by
    intro j hj
    obtain ⟨t, e, ht0, htr, hta, hte⟩ :=
      runWords_rdbits j [0x19000000#32] (herr.trans h0) hr (hj.trans hlen.ge)
    refine ⟨t, ?_, ht0, htr, hahead ▸ hta, hte.trans heof⟩
    rw [runWords_command h0 rfl (by decide) eopen, List.replicate_succ', e]
  refine ⟨fun j hj => ?_, ?_⟩
  · obtain ⟨t, e, ht0, htr, hta, hte⟩ := hrun j hj.le
    have hbit := getElem?_bitsOf s.inStore.data hj
    obtain ⟨hjlt, hbit⟩ := List.getElem?_eq_some_iff.1 hbit
    rw [List.drop_eq_getElem_cons hjlt, hbit] at hta
    obtain ⟨pos, buf, avail, elast, _, _⟩ := exec_rdbit_ahead htr hta
    exact ⟨_, e.trans (runWords_command ht0 rfl (by decide) elast), rfl, hte⟩
  · obtain ⟨t, e, ht0, htr, hta, _⟩ := hrun (8 * inLen s) le_rfl
    have hempty := bitsAhead_length t
    rw [hta, List.length_drop, bitsOf_length] at hempty
    have elast := exec_rdbit_end htr.isOpen (Fin.ext (by simp [inLen] at hempty ⊢; omega))
      (by simp only [inLen] at hempty ⊢; omega)
    exact ⟨_, e.trans (runWords_command ht0 rfl (by decide) elast), rfl⟩

end Sys2Proof.Machine
end

section
/-! PROOFS. The trie builder (42_trie_builder.md): the frequency table, the pass that counts the input, `RemoveMin` and
the tree that `BUILD` makes, then the refusals of `COMPRESS` before its tree is there (R215). -/

namespace Sys2Proof.Machine

/-! ## FCLR and FADD (R151, R152) -/

theorem slotSet_slotGet {α : Type} (t : Vector α 256) (b : Byte) : slotSet t b (slotGet t b) = t :=
  Vector.set_getElem_self _

theorem countOperand_toNat (n : Half) : (countOperand n).toNat = n.toNat :=
  BitVec.toNat_setWidth_of_le (by omega)

theorem freqAdd_fits {b : Byte} {n : Word} {s : State} (h : (slotGet s.freq b).toNat + n.toNat ≤ Config.freqMax) :
    freqAdd b n s = .ok () { s with freq := slotSet s.freq b (slotGet s.freq b + n) } :=
  if_neg (Nat.not_lt.2 h)

theorem freqAdd_overflows {b : Byte} {n : Word} {s : State}
    (h : Config.freqMax < (slotGet s.freq b).toNat + n.toNat) : freqAdd b n s = .error ⟨.freqOverflow, b⟩ s :=
  if_pos h

/-- `FADD` where the sum fits. -/
theorem exec_fadd_fits {slot : Byte} {n : Half} {s : State}
    (h : (slotGet s.freq slot).toNat + n.toNat ≤ Config.freqMax) :
    exec (.fadd slot n) s = .next { s with
      freq := slotSet s.freq slot (slotGet s.freq slot + countOperand n), phase := .idle } :=
  exec_ok (i := .fadd slot n) (freqAdd_fits (s := setPhase .misc s) (by rwa [countOperand_toNat]))

/-- Settles O36: `FADD` by whether the sum fits; adding 0 always does and writes the slot's own count back. -/
theorem fclrAndFadd : Obligations.FclrAndFadd := by
  refine fun s => ⟨exec_ok (i := .fclr) rfl, fun slot n => ⟨fun h => ?_, fun h => ?_, ?_⟩⟩
  · have hsum : BitVec.ofNat 32 ((slotGet s.freq slot).toNat + n.toNat) = slotGet s.freq slot + countOperand n := by
      rw [← countOperand_toNat n, BitVec.ofNat_add, BitVec.ofNat_toNat, BitVec.ofNat_toNat, BitVec.setWidth_eq,
        BitVec.setWidth_eq]
    rw [hsum, exec_fadd_fits h]
  · exact exec_error (i := .fadd slot n) (freqAdd_overflows (s := setPhase .misc s) (by rwa [countOperand_toNat]))
  · have hsame : slotGet s.freq slot + countOperand 0#16 = slotGet s.freq slot := BitVec.add_zero _
    rw [exec_fadd_fits (n := 0#16) (Nat.le_pred_of_lt (slotGet s.freq slot).isLt), hsame, slotSet_slotGet]

/-! ## TALLY (R154, R155) -/

theorem Readable.setPhase {s : State} (h : Readable s) (p : Phase) : Readable (setPhase p s) :=
  ⟨h.isOpen, h.steady, h.inside, h.short⟩

/-- A pass begun with `BR.eof` set ends at its first turn, whatever is ahead (R154, R177, R296). -/
theorem pass_after_end (g : Byte → Micro Unit) {s : State} (h : Readable s) (heof : s.brEof = true) :
    ∃ pos buf avail d,
      (readByte >>= fun v => look State.brEof >>= fun eof => if eof then pure () else g v) s =
        .ok () (readOut s pos buf avail d) := by
  by_cases h8 : 8 ≤ (bitsAhead s).length
  · obtain ⟨pos, buf, avail, e, _⟩ := readByte_ahead h h8
    have hstay : readTo s pos buf avail = readOut s pos buf avail s.draws := by
      rw [readTo, readOut, ← heof]
    refine ⟨pos, buf, avail, s.draws, ?_⟩
    rw [Micro.bind_ok e, hstay]
    rfl
  · obtain ⟨pos, buf, avail, d, _, e, _⟩ := readByte_end h (by omega)
    refine ⟨pos, buf, avail, d, ?_⟩
    rw [Micro.bind_ok e]
    rfl

/-- `Tally` where no counter overflows. -/
theorem tally_counts {s : State} (h : Readable s)
    (hfit : ∀ b, (slotGet s.freq b).toNat + (passBytes s).count b ≤ Config.freqMax) :
    ∃ pos buf avail d f, tally s = .ok () { readOut s pos buf avail d with freq := f } ∧
      (∀ b, (slotGet f b).toNat = (slotGet s.freq b).toNat + (passBytes s).count b) ∧
      (s.brEof = false → bitsAhead (readOut s pos buf avail d) = []) := by
  cases heof : s.brEof with
  | false =>
    have hpass : passBytes s = wholeBytes (bitsAhead s) := by rw [passBytes, heof]; rfl
    rw [hpass] at hfit ⊢
    obtain ⟨pos, buf, avail, d, f, e, hcount, hahead, _⟩ := tallyLoop_steady (readTurns s) h heof readTurns_enough hfit
    exact ⟨pos, buf, avail, d, f, e, hcount, fun _ => hahead⟩
  | true =>
    have hpass : passBytes s = [] := by rw [passBytes, heof]; rfl
    obtain ⟨pos, buf, avail, d, e⟩ := pass_after_end
      (fun v => freqAdd v 1#32 >>= fun _ => tallyLoop (inLen s - s.inPos.toNat + 1)) h heof
    exact ⟨pos, buf, avail, d, s.freq, e, fun b => by rw [hpass]; rfl, fun hf => by cases hf⟩

/-- `Tally` up to the first byte whose counter is then full. -/
theorem tally_overflows {s : State} (h : Readable s) {pre post : List Byte} {v : Byte}
    (hp : passBytes s = pre ++ v :: post) (hfit : ∀ b, (slotGet s.freq b).toNat + pre.count b ≤ Config.freqMax)
    (hfull : (slotGet s.freq v).toNat + pre.count v = Config.freqMax) :
    ∃ pos buf avail f, tally s = .error ⟨.freqOverflow, v⟩ { readTo s pos buf avail with freq := f } ∧
      (∀ b, (slotGet f b).toNat = (slotGet s.freq b).toNat + pre.count b) ∧
      bitsAhead (readTo s pos buf avail) = (bitsAhead s).drop (8 * (pre.length + 1)) := by
  have heof : s.brEof = false := by
    by_contra hne
    rw [passBytes, if_pos (by simpa using hne)] at hp
    simp at hp
  have hbytes : wholeBytes (bitsAhead s) = pre ++ v :: post := by
    rw [← hp, passBytes, heof]
    rfl
  have hturns : pre.length < readTurns s := by
    have hle := wholeBytes_length_le (bitsAhead s)
    have henough := readTurns_enough (s := s)
    rw [hbytes, List.length_append, List.length_cons] at hle
    omega
  exact tallyLoop_full pre h heof hturns hbytes hfit hfull

/-- Settles O37: `tally_counts` and `tally_overflows` in the frame of the command. -/
theorem tallyCountsTheInput : Obligations.TallyCountsTheInput := by
  refine fun s h => ⟨fun hfit => ?_, fun pre v post hp hfit hfull => ?_⟩
  · obtain ⟨pos, buf, avail, d, f, e, hcount, hahead⟩ := tally_counts (h.setPhase .pass1) hfit
    exact ⟨_, exec_ok (i := .tally) e, hcount, rfl, hahead, rfl⟩
  · obtain ⟨pos, buf, avail, f, e, hcount, hahead⟩ := tally_overflows (h.setPhase .pass1) hp hfit hfull
    exact ⟨_, exec_error (i := .tally) e, hcount, hahead, rfl⟩

/-! ## RemoveMin and one merge (R156, R157) -/

/-- The converse of `mem_leastEntries`. -/
theorem mem_leastEntries_of_le {q : List PQEntry} {x : PQEntry} (hx : x ∈ q) (hle : ∀ y ∈ q, x.freq ≤ y.freq) :
    x ∈ leastEntries q := by
  cases q with
  | nil => cases hx
  | cons e es =>
    obtain ⟨⟨z, hz, hzf⟩, hleast⟩ := leastFreq_spec e es
    have heq : x.freq = leastFreq e es := BitVec.le_antisymm (hzf ▸ hle z hz) (hleast x hx)
    exact List.mem_filter.2 ⟨hx, beq_iff_eq.2 heq⟩

theorem oldestEntry_seq_le (e : PQEntry) (es : List PQEntry) : ∀ y ∈ e :: es, (oldestEntry e es).seq ≤ y.seq := by
  induction es generalizing e with
  | nil =>
    intro y hy
    rw [List.mem_singleton.1 hy]
    exact BitVec.le_refl _
  | cons z zs ih =>
    have hfirst : (oldestEntry e (z :: zs)).seq ≤ (if z.seq < e.seq then z else e).seq := ih _ _ List.mem_cons_self
    have hle : (if z.seq < e.seq then z else e).seq ≤ e.seq ∧ (if z.seq < e.seq then z else e).seq ≤ z.seq := by
      split
      next h => exact ⟨BitVec.le_of_lt h, BitVec.le_refl _⟩
      next h => exact ⟨BitVec.le_refl _, BitVec.not_lt.1 h⟩
    intro y hy
    rcases List.mem_cons.1 hy with rfl | hy
    · exact BitVec.le_trans hfirst hle.1
    rcases List.mem_cons.1 hy with rfl | hy
    · exact BitVec.le_trans hfirst hle.2
    · exact ih _ y (List.mem_cons_of_mem _ hy)

/-- Under the `fifo` policy `RemoveMin` takes the one inserted first among the entries of least frequency (R157). -/
theorem pickMin_fifo {d d' : Nat} {q : List PQEntry} {x : PQEntry} (h : pickMin .fifo d q = some (x, d')) :
    ∀ y ∈ leastEntries q, x.seq ≤ y.seq := by
  unfold pickMin at h
  split at h
  next => cases h
  next e he =>
    cases h
    rw [he]
    exact oldestEntry_seq_le _ []
  next e e' es he =>
    cases h
    rw [he]
    exact oldestEntry_seq_le e (e' :: es)

theorem removeMin_picks {s s' : State} {x : PQEntry} (h : removeMin s = some (x, s')) :
    ∃ d, pickMin s.cfg.tiePolicy s.draws s.pq = some (x, d) := by
  unfold removeMin at h
  split at h
  next => cases h
  next e d he =>
    cases h
    exact ⟨d, he⟩

theorem removeMin_fifo {s s' : State} {x : PQEntry} (h : removeMin s = some (x, s')) (hp : s.cfg.tiePolicy = .fifo) :
    ∀ y ∈ s.pq, y.freq = x.freq → x.seq ≤ y.seq := by
  intro y hy hf
  obtain ⟨_, hle, _⟩ := removeMin_spec h
  obtain ⟨d, hpick⟩ := removeMin_picks h
  rw [hp] at hpick
  exact pickMin_fifo hpick y (mem_leastEntries_of_le hy (hf ▸ hle))

/-- With two entries or more a turn of the merge loop is two removals and one insertion (R156). -/
theorem mergeOnce_eq (q : Nat) {s : State} (h : 2 ≤ s.pq.length) :
    ∃ x s1 y s2, removeMin s = some (x, s1) ∧ removeMin s1 = some (y, s2) ∧
      mergeOnce q s = some { s2 with
        pq := s2.pq ++ [{ freq := x.freq + y.freq, seq := BitVec.ofNat 9 q, node := .internal x.node y.node }] } := by
  obtain ⟨x, s1, h1⟩ := removeMin_isSome (List.ne_nil_of_length_pos (by omega : 0 < s.pq.length))
  obtain ⟨hx, _, d, hs1⟩ := removeMin_spec h1
  have hlen : s1.pq.length = s.pq.length - 1 := by rw [hs1]; exact List.length_erase_of_mem hx
  obtain ⟨y, s2, h2⟩ := removeMin_isSome (List.ne_nil_of_length_pos (by omega : 0 < s1.pq.length))
  exact ⟨x, s1, y, s2, h1, h2, by simp [mergeOnce, h1, h2, Nat.lt_of_succ_le h]⟩

/-- Settles O38, by `removeMin_spec`, `removeMin_fifo` and `mergeOnce_eq`. -/
theorem removeMinTakesTheLeast : Obligations.RemoveMinTakesTheLeast := by
  refine ⟨fun s s' x h => ?_, fun s => removeMin_isSome, fun q s => mergeOnce_eq q⟩
  obtain ⟨hx, hle, d, hs'⟩ := removeMin_spec h
  exact ⟨hx, hle, by rw [hs'], removeMin_fifo h⟩

/-! ## BUILD (R156 to R161) -/

theorem rootOf_of_internal {t : HuffTree} (h : isInternal t = true) : rootOf t = t := by
  obtain ⟨l, r, rfl⟩ := isInternal_eq h
  rfl

/-- `Build` of an empty table (R159). -/
theorem buildTree_noSymbol {s : State} (h : nonZeroSlots s.freq = []) :
    ∃ d, buildTree s = .error ⟨.noSymbol, 0#8⟩ (notBuilt s d) := by
  simpa [h] using buildTree_cases s

/-- `Build` of one non-zero slot (R158). -/
theorem buildTree_single {s : State} {b : Byte} (h : nonZeroSlots s.freq = [b]) :
    ∃ d, buildTree s = .ok () (built s (.internal (.leaf b) (.leaf (b + 1#8))) d) := by
  simpa [h] using buildTree_cases s

/-- `Build` of two non-zero slots or more: no root has to be added to what the merges leave (R156, R161). -/
theorem buildTree_merges {s : State} (h : 2 ≤ (nonZeroSlots s.freq).length) :
    ∃ T d, buildTree s = .ok () (built s T d) ∧ GreedyMerge (leafQueue s.freq) T ∧ isInternal T = true := by
  obtain ⟨T, d, hmerge, e⟩ := buildTree_greedy (List.ne_nil_of_length_pos (by omega : 0 < (nonZeroSlots s.freq).length))
  have hroot : isInternal T = true := hmerge.internal (.inl (by rwa [leafQueue, List.length_map]))
  exact ⟨T, d, by rw [e, rootOf_of_internal hroot], hmerge, hroot⟩

/-- A tree with one leaf for each non-zero slot has `2L - 1` nodes (R161). -/
theorem treeNodes_of_slots {T : HuffTree} {slots : List Byte} (h : (leafBytes T).Perm slots) :
    treeNodes T = 2 * slots.length - 1 := by
  rw [treeNodes_eq, ← leafBytes_length, h.length_eq]

/-- Settles O39: no slot, one slot, and the greedy merge of two or more, whose leaves are the slots. -/
theorem buildMakesTheTree : Obligations.BuildMakesTheTree := by
  refine fun s => ⟨fun h => ?_, fun b h => ?_, fun h => ?_⟩
  · obtain ⟨d, e⟩ := buildTree_noSymbol (s := setPhase .build s) h
    exact ⟨d, exec_error (i := .build) e⟩
  · obtain ⟨d, e⟩ := buildTree_single (s := setPhase .build s) h
    exact ⟨d, exec_ok (i := .build) e⟩
  · obtain ⟨T, d, e, hmerge, hroot⟩ := buildTree_merges (s := setPhase .build s) h
    have hleaves := hmerge.leaves_of_slots
    exact ⟨T, d, exec_ok (i := .build) e, hmerge, hroot, hleaves, treeNodes_of_slots hleaves⟩

/-! ## Two slots (R160, R161) -/

theorem GreedyMerge.of_singleton {e : Nat × HuffTree} {t : HuffTree} (h : GreedyMerge [e] t) : t = e.2 := by
  cases h with
  | done => rfl
  | merge removed => simpa using removed.length_eq

/-- Of two entries the one with the smaller frequency is removed first (R156, R157). -/
theorem GreedyMerge.of_pair {x y : Nat × HuffTree} {t : HuffTree} (h : GreedyMerge [x, y] t) (hlt : x.1 < y.1) :
    t = .internal x.2 y.2 := by
  cases h with
  | @merge _ rest a b _ removed first _ next =>
    obtain rfl : a = x := by
      have hmem : a = x ∨ a = y := by simpa using removed.mem_iff.2 (List.mem_cons_self (a := a))
      refine hmem.resolve_right fun hy => ?_
      have := first x List.mem_cons_self
      rw [hy] at this
      omega
    obtain ⟨rfl, rfl⟩ : b = y ∧ rest = [] := by simpa using List.perm_singleton.1 (removed.cons_inv).symm
    exact next.of_singleton

/-- Settles O40: the one merge takes the smaller count first, whichever slot stands first in the table. -/
theorem twoSlotsByCount : Obligations.TwoSlotsByCount := by
  intro s t x y hslots hlt hexec
  have hperm : (nonZeroSlots s.freq).Perm [x, y] := by
    rcases hslots with h | h <;> rw [h]
    exact List.Perm.swap x y []
  obtain ⟨T, d, e, hmerge, _⟩ := buildTree_merges (s := setPhase .build s) (Nat.le_of_eq hperm.length_eq.symm)
  obtain rfl : T = .internal (.leaf x) (.leaf y) := (hmerge.perm (hperm.map _)).of_pair hlt
  cases hexec.symm.trans (exec_ok (i := .build) e)
  have hne : x ≠ y := fun h => by simp [h] at hlt
  exact ⟨rfl, by simp [codewordOf, hne], by simp [codewordOf]⟩

/-! ## Refusals of COMPRESS (R159, R215) -/

/-- The first lines of a call, `rest` being those after. -/
theorem call_resets {s : State} (hi : s.inOpen = false) (ho : s.outOpen = false) (rest : Micro Unit) :
    (requireClosed >>= fun _ => change resetBlock >>= fun _ => change (setPhase .opening) >>= fun _ => rest) s =
      rest (setPhase .opening (resetBlock s)) := by
  have hclosed : requireClosed s = .ok () s := by simp [requireClosed, hi, ho]
  rw [Micro.bind_ok hclosed]
  rfl

/-- Reading past the end fetches nothing, so a store that is broken, or about to be, is not noticed (R137). -/
theorem readBits_past_end (n : Nat) {s : State} (ho : s.inOpen = true) (ha : s.brAvail = 0)
    (hp : inLen s ≤ s.inPos.toNat) : ∃ bs d, readBits (n + 1) s = .ok bs { s with brEof := true, draws := d } := by
  induction n generalizing s with
  | zero => exact ⟨_, _, Micro.bind_ok (readBit_past_end ho ha hp)⟩
  | succ n ih =>
    obtain ⟨bs, d, e⟩ := ih (s := { s with brEof := true, draws := s.draws + 1 }) ho ha hp
    exact ⟨_, d, (Micro.bind_ok (readBit_past_end ho ha hp)).trans (Micro.bind_ok e)⟩

/-- `Tally` of an empty input counts nothing (R154, R155). -/
theorem tally_past_end {s : State} (ho : s.inOpen = true) (ha : s.brAvail = 0) (hp : inLen s ≤ s.inPos.toNat) :
    ∃ d, tally s = .ok () { s with brEof := true, draws := d } := by
  obtain ⟨bs, d, e⟩ := readBits_past_end 7 ho ha hp
  have ebyte : readByte s = .ok (byteOfBits bs) { s with brEof := true, draws := d } := Micro.bind_ok e
  exact ⟨d, Micro.bind_ok ebyte⟩

theorem nonZeroSlots_emptyFreq : nonZeroSlots emptyFreq = [] :=
  List.eq_nil_iff_forall_not_mem.2 fun b hb => (mem_nonZeroSlots _ b).1 hb (slotGet_emptyFreq b)

/-- Pass 1 of `COMPRESS` over an empty input, `rest` being the stages after. -/
theorem call_counts_nothing {s : State} (hempty : s.inStore.data = []) (rest : Micro Unit) :
    ∃ d, (change (setPhase .pass1) >>= fun _ => tally >>= fun _ => rest) (callOpened s) =
      rest (callCounted s 0#32 0#8 0 d emptyFreq) := by
  have hlen : inLen (setPhase .pass1 (callOpened s)) = 0 := List.length_eq_zero_iff.2 hempty
  obtain ⟨d, e⟩ := tally_past_end (s := setPhase .pass1 (callOpened s)) rfl rfl (hlen ▸ Nat.zero_le _)
  exact ⟨d, (bind_change _ _ _).trans (Micro.bind_ok e)⟩

/-- `COMPRESS` of an empty input gets as far as `Build` (R159). -/
theorem compressCall_empty {s : State} (hi : s.inOpen = false) (ho : s.outOpen = false)
    (hp : s.inStore.present = true) (hc : s.outStore.creatable = true) (hempty : s.inStore.data = []) :
    ∃ d d', compressCall s = .error ⟨.noSymbol, 0#8⟩
      (notBuilt (setPhase .build (callCounted s 0#32 0#8 0 d emptyFreq)) d') := by
  have hlen : inLen s ≤ Config.lenMax := by simp [inLen, hempty]
  obtain ⟨d, ecount⟩ := call_counts_nothing hempty _
  obtain ⟨d', ebuild⟩ := buildTree_noSymbol
    (s := setPhase .build (callCounted s 0#32 0#8 0 d emptyFreq)) nonZeroSlots_emptyFreq
  exact ⟨d, d', (call_opens hi ho hp hc hlen _).trans
    (ecount.trans ((bind_change _ _ _).trans (Micro.bind_error ebuild)))⟩

/-- `COMPRESS` of a missing input stops at the first opening (R215). -/
theorem compressCall_no_input {s : State} (hi : s.inOpen = false) (ho : s.outOpen = false)
    (hp : s.inStore.present = false) :
    compressCall s = .error ⟨.inOpenFail, 0#8⟩ (setPhase .opening (resetBlock s)) :=
  (call_resets hi ho _).trans (Micro.bind_error (openR_absent rfl hp))

/-- `COMPRESS` without an output stops at the second opening (R215). -/
theorem compressCall_no_output {s : State} (hi : s.inOpen = false) (ho : s.outOpen = false)
    (hp : s.inStore.present = true) (hl : inLen s ≤ Config.lenMax) (hc : s.outStore.creatable = false) :
    compressCall s = .error ⟨.outOpenFail, 0#8⟩
      (restartReader { setPhase .opening (resetBlock s) with inOpen := true }) := by
  have ein := openR_ok (s := setPhase .opening (resetBlock s)) rfl hp hl
  have eout := openW_uncreatable (s := restartReader { setPhase .opening (resetBlock s) with inOpen := true }) rfl hc
  exact (call_resets hi ho _).trans ((Micro.bind_ok ein).trans (Micro.bind_error eout))

/-- The fault word, from the phase the command stopped in (R27). -/
theorem faultEntry_errinfo_in (op : Byte) (c : Cause) {s : State} {p : Phase} (h : s.phase = p) :
    (faultEntry op c s).errinfo = c.datum ++ op ++ (0#4 ++ phaseCode p) ++ subCode c.sub := by
  rw [faultEntry_errinfo, h]

/-- Settles O51: where each call stops, and what fault entry makes of the state there. -/
theorem compressRefusals : Obligations.CompressRefusals := by
  refine fun s hi ho => ⟨fun hp hc hempty => ?_, fun hp => ?_, fun hp hl hc => ?_⟩
  · obtain ⟨d, d', e⟩ := compressCall_empty (s := setPhase .idle s) hi ho hp hc hempty
    exact ⟨_, exec_error (i := .compress) e, rfl, (faultEntry_errinfo_in _ _ (p := .build) rfl).trans (by decide),
      rfl, rfl, rfl, rfl⟩
  · have e := compressCall_no_input (s := setPhase .idle s) hi ho hp
    exact ⟨_, exec_error (i := .compress) e, rfl, (faultEntry_errinfo_in _ _ (p := .opening) rfl).trans (by decide),
      rfl⟩
  · have e := compressCall_no_output (s := setPhase .idle s) hi ho hp hl hc
    exact ⟨_, exec_error (i := .compress) e, rfl, (faultEntry_errinfo_in _ _ (p := .opening) rfl).trans (by decide),
      rfl⟩

end Sys2Proof.Machine
end

section
/-! PROOFS. The encoding table and pass 2 (43_encoding_table.md): what `MKTAB` records and which byte it refuses, then
what `ENCSYM` and `ENCODE` append and where they stop. -/

namespace Sys2Proof.Machine

/-! ## MKTAB (R171, R172) -/

/-- The walk stops at the first byte met before: the bytes ahead of it are new and unlike each other. -/
theorem firstRepeat_append (pre : List Byte) {seen : List Byte} {v : Byte} (post : List Byte) (hn : pre.Nodup)
    (hnew : ∀ b ∈ pre, b ∉ seen) (hv : v ∈ pre ∨ v ∈ seen) : firstRepeat seen (pre ++ v :: post) = some v := by
  induction pre generalizing seen with
  | nil =>
    have hseen : v ∈ seen := hv.resolve_left List.not_mem_nil
    exact if_pos hseen
  | cons w pre ih =>
    obtain ⟨hw, hn⟩ := List.nodup_cons.1 hn
    have hnext : firstRepeat seen (w :: (pre ++ v :: post)) = firstRepeat (w :: seen) (pre ++ v :: post) :=
      if_neg (hnew w List.mem_cons_self)
    have hnew' : ∀ b ∈ pre, b ∉ w :: seen := by
      intro b hb hmem
      rcases List.mem_cons.1 hmem with rfl | hold
      · exact hw hb
      · exact hnew b (List.mem_cons_of_mem w hb) hold
    have hv' : v ∈ pre ∨ v ∈ w :: seen := by
      simp only [List.mem_cons] at hv ⊢
      tauto
    exact hnext.trans (ih hn hnew' hv')

/-- `MkTab` on a tree whose first repeated leaf value is `v`. -/
theorem mkTab_repeat {s : State} {T : HuffTree} {v : Byte} (hT : s.tree = some T)
    (hr : firstRepeat [] (leafBytes T) = some v) : mkTab s = .error ⟨.dupLeaf, v⟩ (clearTable s) := by
  simp only [mkTab, hT, hr]

/-- Settles O41: `mkTab_steady` without a repeat; else `firstRepeat_append` names the byte of the fault. -/
theorem mktabRecordsThePaths : Obligations.MktabRecordsThePaths := by
  refine fun s T hT => ⟨fun hn => ?_, fun pre v post hp hn hv => ?_⟩
  · obtain ⟨code, e, hcode⟩ := mkTab_steady (s := setPhase .table s) hT hn
    exact ⟨code, exec_ok (i := .mktab) e, hcode⟩
  · have hr : firstRepeat [] (leafBytes T) = some v :=
      hp ▸ firstRepeat_append pre post hn (fun _ _ => List.not_mem_nil) (.inl hv)
    exact exec_error (i := .mktab) (mkTab_repeat (s := setPhase .table s) hT hr)

/-! ## ENCSYM (R175, R176) -/

theorem encSym_noEntry {v : Byte} {s : State} (h : slotGet s.code v = none) :
    encSym v s = .error ⟨.noEntry, v⟩ s := by
  rcases encSym_cases v s with ⟨_, e⟩ | ⟨c, hc, _⟩ | ⟨c, hc, _⟩
  · exact e
  all_goals exact absurd (h.symm.trans hc) (by simp)

theorem encSym_full {v : Byte} {s : State} {c : Bits} (h : slotGet s.code v = some c)
    (hbig : s.cfg.encCap.toNat < s.enc.length + c.length) : encSym v s = .error ⟨.encFull, 0#8⟩ s := by
  rcases encSym_cases v s with ⟨hc, _⟩ | ⟨_, _, _, e⟩ | ⟨d, hd, hfit, _⟩
  · exact absurd (h.symm.trans hc) (by simp)
  · exact e
  · obtain rfl : c = d := Option.some.inj (h.symm.trans hd)
    omega

theorem encSym_fits {v : Byte} {s : State} {c : Bits} (h : slotGet s.code v = some c)
    (hfit : s.enc.length + c.length ≤ s.cfg.encCap.toNat) : encSym v s = .ok () { s with enc := s.enc ++ c } := by
  rcases encSym_cases v s with ⟨hc, _⟩ | ⟨d, hd, hbig, _⟩ | ⟨d, hd, _, e⟩
  · exact absurd (h.symm.trans hc) (by simp)
  all_goals obtain rfl : c = d := Option.some.inj (h.symm.trans hd)
  · omega
  · exact e

/-! ## ENCODE (R177, R178) -/

/-- A pass that takes a byte `v` began before the end of input, and its bound on turns reaches `v` (log entry 14). -/
theorem pass_reaches {s : State} {pre post : List Byte} {v : Byte} (hp : passBytes s = pre ++ v :: post) :
    s.brEof = false ∧ wholeBytes (bitsAhead s) = pre ++ v :: post ∧ pre.length < readTurns s := by
  cases heof : s.brEof with
  | true => simp [passBytes, heof] at hp
  | false =>
    have hbytes : wholeBytes (bitsAhead s) = pre ++ v :: post := by simpa [passBytes, heof] using hp
    have hle := wholeBytes_length_le (bitsAhead s)
    have henough := readTurns_enough (s := s)
    rw [hbytes, List.length_append, List.length_cons] at hle
    exact ⟨rfl, hbytes, by omega⟩

/-- `Encode` where every byte has an entry and the codewords fit. -/
theorem encodeInput_appends {s : State} (h : Readable s) (hall : ∀ b ∈ passBytes s, slotGet s.code b ≠ none)
    (hfit : s.enc.length + (codesOf s.code (passBytes s)).length ≤ s.cfg.encCap.toNat) :
    ∃ pos buf avail d,
      encodeInput s = .ok () { readOut s pos buf avail d with enc := s.enc ++ codesOf s.code (passBytes s) } ∧
      (s.brEof = false → bitsAhead (readOut s pos buf avail d) = []) := by
  cases heof : s.brEof with
  | false =>
    have hpass : passBytes s = wholeBytes (bitsAhead s) := by rw [passBytes, heof]; rfl
    rw [hpass] at hall hfit ⊢
    obtain ⟨pos, buf, avail, d, e, hahead, _⟩ := encodeLoop_steady (readTurns s) h heof readTurns_enough
      (fun b hb => Option.isSome_iff_ne_none.2 (hall b hb)) hfit
    exact ⟨pos, buf, avail, d, e, fun _ => hahead⟩
  | true =>
    have hcodes : s.enc ++ codesOf s.code (passBytes s) = s.enc := by simp [passBytes, heof, codesOf]
    obtain ⟨pos, buf, avail, d, e⟩ := pass_after_end
      (fun v => encSym v >>= fun _ => encodeLoop (inLen s - s.inPos.toNat + 1)) h heof
    rw [hcodes]
    exact ⟨pos, buf, avail, d, e, fun hf => by cases hf⟩

/-- Settles O44: `ENCSYM` by its three ends; `ENCODE` by `encodeInput_appends`, and by `encodeLoop_stops` at the byte
that `EncSym` refuses. -/
theorem encodingAppendsCodewords : Obligations.EncodingAppendsCodewords := by
  refine ⟨fun v s => ⟨fun hn => ?_, fun c hc hbig => ?_, fun c hc hfit => ?_⟩, fun s h hall hfit => ?_,
    fun s pre v post c h hp hall hfit hstop => ?_⟩
  · exact exec_error (i := .encsym v) (encSym_noEntry (s := setPhase .pass2 s) hn)
  · exact exec_error (i := .encsym v) (encSym_full (s := setPhase .pass2 s) hc hbig)
  · exact exec_ok (i := .encsym v) (encSym_fits (s := setPhase .pass2 s) hc hfit)
  · obtain ⟨pos, buf, avail, d, e, hahead⟩ := encodeInput_appends (h.setPhase .pass2) hall hfit
    exact ⟨_, exec_ok (i := .encode) e, rfl, rfl, hahead, rfl⟩
  · obtain ⟨heof, hbytes, hturns⟩ := pass_reaches (s := setPhase .pass2 s) hp
    obtain ⟨pos, buf, avail, e, hahead⟩ :=
      encodeLoop_stops pre (h.setPhase .pass2) heof hturns hbytes hall hfit hstop
    exact ⟨_, exec_error (i := .encode) e, hahead, rfl⟩

end Sys2Proof.Machine
end

section
/-! PROOFS. The serializer's reader (44_serializer.md R193 to R195): the tree that `DESTREE` reads back and what it
refuses, in the command and in `DECOMPRESS` (R237). -/

namespace Sys2Proof.Machine

/-! ## DESTREE reads back Ser(T) (R193 to R195) -/

/-- Settles O47: `desTree_steady` in the frame of the command. -/
theorem destreeReadsTheTree : Obligations.DestreeReadsTheTree := by
  intro s T rest hr heof hahead hroot hn
  obtain ⟨pos, buf, avail, e, hrest, _⟩ := desTree_steady (hr.setPhase .deserialize) heof hahead hroot hn
  have hcount : (BitVec.ofNat 9 (treeNodes T)).toNat = treeNodes T := by
    rw [BitVec.toNat_ofNat, Nat.mod_eq_of_lt (by omega)]
  exact ⟨_, exec_ok (i := .destree) e, rfl, rfl, hcount, hrest, rfl⟩

/-! ## What a refused DESTREE leaves (R193, R256) -/

/-- What `Get` leaves alone and a fault in `DesTree` shows: tree, pointer, phase, and the writer. -/
def besideGet (s : State) : Option HuffTree × Option Bits × Phase × Bool × BitVec 3 × OutStore :=
  (s.tree, s.ptr, s.phase, s.outOpen, s.bwCnt, s.outStore)

theorem getTree_keeps_besideGet (n : Nat) : Keeps besideGet (getTree n) := by
  refine getTree_keeps ?_ (fun _ _ => rfl) n
  rintro s _ ⟨_, _, _, _, _, _, _, _, rfl, _⟩
  rfl

/-- Where `DesTree` raises no tree stands: it was dropped first and is set last. -/
theorem desTree_error_besideGet {s s' : State} {c : Cause} (e : desTree s = .error c s') :
    besideGet s' = besideGet (dropTree s) := by
  have hkeep := getTree_keeps_besideGet (Config.nodeCap + 1) (dropTree s)
  unfold desTree at e
  rw [bind_change] at e
  rcases Micro.bind_error_inv e with hget | ⟨r, s1, hget, hroot⟩ <;> rw [hget] at hkeep
  · exact hkeep
  · cases r <;> cases hroot
    exact hkeep

theorem desTree_error_of_getTree {s s' : State} {c : Cause}
    (e : getTree (Config.nodeCap + 1) (dropTree s) = .error c s') : desTree s = .error c s' :=
  (bind_change _ _ _).trans (Micro.bind_error e)

theorem Readable.dropTree {s : State} (h : Readable s) : Readable (dropTree s) :=
  ⟨h.isOpen, h.steady, h.inside, h.short⟩

/-- The fault word of a cause without a datum in phase `DESERIALIZE` (R27). -/
theorem faultEntry_errinfo_deserialize (op : Byte) (sub : Sub) {s : State} (h : s.phase = .deserialize) :
    (faultEntry op ⟨sub, 0#8⟩ s).errinfo = 0#8 ++ op ++ 0x0A#8 ++ subCode sub := by
  have hcode : 0#4 ++ phaseCode .deserialize = 0x0A#8 := by decide
  rw [faultEntry_errinfo_in op _ h, hcode]

/-- A refused `DESTREE` records the sub-cause in phase `DESERIALIZE` and leaves no tree. -/
theorem exec_destree_refused {s s' : State} {sub : Sub}
    (e : desTree (setPhase .deserialize s) = .error ⟨sub, 0#8⟩ s') :
    ∃ t, exec .destree s = .next t ∧ t.err = errCode (subErr sub) ∧ t.errinfo = 0#8 ++ 0x41#8 ++ 0x0A#8 ++ subCode sub ∧
      t.tree = none ∧ t.ptr = none ∧ t.nnodes = s'.nnodes := by
  have hkept := desTree_error_besideGet e
  simp only [besideGet, Prod.mk.injEq] at hkept
  obtain ⟨htree, hptr, hphase, _⟩ := hkept
  refine ⟨_, exec_error (i := .destree) e, ?_, faultEntry_errinfo_deserialize _ _ hphase, ?_, ?_, ?_⟩ <;> rw [faultEntry_eq]
  · exact htree
  · exact hptr

/-! ## Where DesTree raises (R193, R195) -/

/-- Once `BR.eof` is set it stays, so `Get` refuses after its first bit, before it counts a node (R193). -/
theorem getTree_after_end (n : Nat) {s : State} (h : Readable s) (heof : s.brEof = true) :
    ∃ s', getTree (n + 1) s = .error ⟨.eofTag, 0#8⟩ s' ∧ s'.nnodes = s.nnodes := by
  have hbit : ∃ b s', readBit s = .ok b s' ∧ s'.brEof = true ∧ s'.nnodes = s.nnodes := by
    cases hb : bitsAhead s with
    | nil => exact ⟨_, _, readBit_end h hb, rfl, rfl⟩
    | cons b rest =>
      obtain ⟨pos, buf, avail, e, _⟩ := readBit_ahead h hb
      exact ⟨_, _, e, heof, rfl⟩
  obtain ⟨b, s', e, heof', hnodes⟩ := hbit
  refine ⟨s', ?_, hnodes⟩
  rw [getTree_succ, Micro.bind_ok e, bind_look, if_pos heof']
  rfl

theorem desTree_after_end {s : State} (h : Readable s) (heof : s.brEof = true) :
    ∃ s', desTree s = .error ⟨.eofTag, 0#8⟩ s' ∧ s'.nnodes = 0#9 := by
  obtain ⟨s', e, hnodes⟩ := getTree_after_end Config.nodeCap h.dropTree heof
  exact ⟨s', desTree_error_of_getTree e, hnodes⟩

/-- A store that ends inside `Ser(T)`, whether its end has been met before or not. -/
theorem desTree_truncated {s : State} {T : HuffTree} {missing : Bits} (h : Readable s)
    (hs : bitsAhead s ++ missing = ser T) (hm : missing ≠ []) (hn : treeNodes T ≤ 511) :
    ∃ sub s', desTree s = .error ⟨sub, 0#8⟩ s' ∧ (sub = .eofTag ∨ sub = .eofByte) := by
  cases heof : s.brEof with
  | true =>
    obtain ⟨s', e, _⟩ := desTree_after_end h heof
    exact ⟨_, s', e, .inl rfl⟩
  | false =>
    have hdepth := treeDepth_lt T
    have hleaves := treeNodes_eq T
    obtain ⟨sub, s', e, hsub⟩ := getTree_truncated T (Config.nodeCap + 1) h.dropTree heof hm hs
      (by rw [Config.nodeCap]; omega) (by rw [dropTree_nnodes, BitVec.toNat_zero]; omega)
    exact ⟨sub, s', desTree_error_of_getTree e, hsub⟩

/-- A tree that is a single leaf is read, counted, and then refused. -/
theorem desTree_rootLeaf {s : State} {v : Byte} {rest : Bits} (h : Readable s) (heof : s.brEof = false)
    (hs : bitsAhead s = ser (.leaf v) ++ rest) :
    ∃ s', desTree s = .error ⟨.rootLeaf, 0#8⟩ s' ∧ s'.nnodes = 1#9 := by
  obtain ⟨pos, buf, avail, nn, e, _, _, hcount⟩ :=
    getTree_ser (.leaf v) (Config.nodeCap + 1) h.dropTree heof hs (Nat.succ_pos _)
      (by rw [dropTree_nnodes, treeNodes]; decide)
  refine ⟨readNodes (dropTree s) pos buf avail nn, ?_, BitVec.eq_of_toNat_eq hcount⟩
  unfold desTree
  rw [bind_change, Micro.bind_ok e]
  rfl

theorem desTree_tooBig {s : State} {T : HuffTree} {rest : Bits} (h : Readable s) (heof : s.brEof = false)
    (hs : bitsAhead s = ser T ++ rest) (hn : 511 < treeNodes T) :
    ∃ s', desTree s = .error ⟨.treeTooBig, 0#8⟩ s' ∧ s'.nnodes = 511#9 := by
  obtain ⟨s', e, hcount⟩ := getTree_tooBig T (Config.nodeCap + 1) h.dropTree heof hs
    (by rw [dropTree_nnodes, BitVec.toNat_zero]; omega) (by rw [dropTree_nnodes]; decide)
  exact ⟨s', desTree_error_of_getTree e, BitVec.eq_of_toNat_eq hcount⟩

/-- Settles O48: where `DesTree` raises in each case, and what the fault leaves by `exec_destree_refused`. -/
theorem destreeRefusals : Obligations.DestreeRefusals := by
  refine ⟨fun s T missing hr hs hm hn => ?_, fun s v rest hr heof hs => ?_, fun s T rest hr heof hs hn => ?_,
    fun s hr heof => ?_⟩ <;> replace hr := hr.setPhase .deserialize
  · obtain ⟨sub, s', e, hsub⟩ := desTree_truncated hr hs hm hn
    obtain ⟨t, et, herr, hinfo, htree, hptr, _⟩ := exec_destree_refused e
    rcases hsub with rfl | rfl
    · exact ⟨t, et, herr, htree, hptr, .inl (hinfo.trans (by decide))⟩
    · exact ⟨t, et, herr, htree, hptr, .inr (hinfo.trans (by decide))⟩
  · obtain ⟨s', e, hcount⟩ := desTree_rootLeaf hr heof hs
    obtain ⟨t, et, herr, hinfo, htree, _, hnodes⟩ := exec_destree_refused e
    exact ⟨t, et, herr, hinfo.trans (by decide), htree, hnodes.trans hcount⟩
  · obtain ⟨s', e, hcount⟩ := desTree_tooBig hr heof hs hn
    obtain ⟨t, et, herr, hinfo, htree, _, hnodes⟩ := exec_destree_refused e
    exact ⟨t, et, herr, hinfo.trans (by decide), htree, hnodes.trans hcount⟩
  · obtain ⟨s', e, hcount⟩ := desTree_after_end hr heof
    obtain ⟨t, et, herr, hinfo, htree, _, hnodes⟩ := exec_destree_refused e
    exact ⟨t, et, herr, hinfo.trans (by decide), htree, hnodes.trans hcount⟩

/-! ## DECOMPRESS of a truncated tree (R195, R237) -/

/-- With no bits pending fault entry has nothing to flush (R256, R261). -/
theorem faultEntry_outStore_of_none_pending (op : Byte) (c : Cause) {s : State} (h : s.bwCnt = 0#3) :
    (faultEntry op c s).outStore = s.outStore := by
  rw [faultEntry_eq]
  simp [h]

/-- The call stops inside `DesTree` when the store ends inside the tree. -/
theorem decompressCall_truncated {s : State} {T : HuffTree} {missing : Bits} (hi : s.inOpen = false)
    (ho : s.outOpen = false) (hp : s.inStore.present = true) (hc : s.outStore.creatable = true) (hin : inSteady s)
    (hl : inLen s ≤ Config.lenMax) (hn : treeNodes T ≤ 511) (hm : missing ≠ [])
    (hs : bitsOf s.inStore.data ++ missing = ser T) :
    ∃ sub s', decompressCall s = .error ⟨sub, 0#8⟩ s' ∧ (sub = .eofTag ∨ sub = .eofByte) ∧
      besideGet s' = besideGet (dropTree (setPhase .deserialize (callOpened s))) := by
  obtain ⟨sub, s', e, hsub⟩ := desTree_truncated (s := setPhase .deserialize (callOpened s))
    ⟨rfl, hin, Nat.zero_le _, hl⟩ hs hm hn
  exact ⟨sub, s', (call_opens hi ho hp hc hl _).trans ((bind_change _ _ _).trans (Micro.bind_error e)), hsub,
    desTree_error_besideGet e⟩

/-- Settles O56: the call stops by `decompressCall_truncated`, and fault entry finds no bits pending to flush. -/
theorem decompressRefusesTruncation : Obligations.DecompressRefusesTruncation := by
  intro s T missing hi ho hp hc hin hl hn hm hs
  obtain ⟨sub, s', e, hsub, hkept⟩ := decompressCall_truncated (s := setPhase .idle s) hi ho hp hc hin hl hn hm hs
  simp only [besideGet, Prod.mk.injEq] at hkept
  obtain ⟨htree, _, hphase, _, hpending, hstore⟩ := hkept
  have hinfo := faultEntry_errinfo_deserialize (opcode .decompress) sub hphase
  have hout := (faultEntry_outStore_of_none_pending (opcode .decompress) ⟨sub, 0#8⟩ hpending).trans hstore
  refine ⟨_, exec_error (i := .decompress) e, ?_, ?_, congrArg OutStore.data hout, ?_⟩
  · rw [faultEntry_eq]
    rcases hsub with rfl | rfl <;> rfl
  · rcases hsub with rfl | rfl
    · exact .inl (hinfo.trans (by decide))
    · exact .inr (hinfo.trans (by decide))
  · rw [faultEntry_eq]
    exact ⟨rfl, rfl, htree⟩

end Sys2Proof.Machine
end

section
/-! PROOFS. The decompressor (46_decompressor.md): the padding count, one step of the traversal, the replay without a
writer, and the round trip of R239 from what a `COMPRESS` and a `DECOMPRESS` that end without a fault have done. -/

namespace Sys2Proof.Machine

/-! ## RDPAD (R231, R232) -/

/-- Standing at a byte above 7, `RdPad` refuses it before `PAD` is written. -/
theorem rdPad_refuses {s : State} {v : Byte} {rest : Bits} (hr : Readable s) (heof : s.brEof = false)
    (hahead : bitsAhead s = byteBits v ++ rest) (hv : 7 < v.toNat) :
    ∃ pos buf avail, rdPad s = .error ⟨.padRange, v⟩ (readTo s pos buf avail) := by
  obtain ⟨pos, buf, avail, _, _, e⟩ := rdPad_ahead hr heof (by rw [hahead]; simp)
  have hbyte : byteOfBits ((bitsAhead s).take 8) = v := by
    rw [hahead, List.take_left' (byteBits_length v), byteOfBits_byteBits]
  rw [hbyte, if_pos hv] at e
  exact ⟨pos, buf, avail, e⟩

/-- Once `BR.eof` is set it stays, so `RdPad` refuses whatever byte it reads (R296). -/
theorem rdPad_after_end {s : State} (hr : Readable s) (heof : s.brEof = true) (h8 : 8 ≤ (bitsAhead s).length) :
    ∃ pos buf avail, rdPad s = .error ⟨.eofPad, 0#8⟩ (readTo s pos buf avail) := by
  obtain ⟨pos, buf, avail, e, _⟩ := readByte_ahead hr h8
  have heof' : (readTo s pos buf avail).brEof = true := heof
  refine ⟨pos, buf, avail, ?_⟩
  unfold rdPad
  rw [Micro.bind_ok e, bind_look, if_pos heof']
  rfl

/-- A store that ends inside the padding byte, or whose end has been met before. -/
theorem rdPad_eofPad {s : State} (hr : Readable s) (h : (bitsAhead s).length < 8 ∨ s.brEof = true) :
    ∃ s', rdPad s = .error ⟨.eofPad, 0#8⟩ s' ∧ s'.phase = s.phase ∧ s'.pad = s.pad := by
  rcases Nat.lt_or_ge (bitsAhead s).length 8 with hlt | h8
  · obtain ⟨pos, buf, avail, d, _, e⟩ := rdPad_end hr hlt
    exact ⟨_, e, rfl, rfl⟩
  · obtain ⟨pos, buf, avail, e⟩ := rdPad_after_end hr (h.resolve_left (Nat.not_lt.2 h8)) h8
    exact ⟨_, e, rfl, rfl⟩

theorem faultEntry_pad (op : Byte) (c : Cause) (s : State) : (faultEntry op c s).pad = s.pad := by
  rw [faultEntry_eq]

theorem faultEntry_err (op : Byte) (c : Cause) (s : State) : (faultEntry op c s).err = errCode (subErr c.sub) := by
  rw [faultEntry_eq]

/-- A refused `RDPAD` records sub-cause and byte in phase `RDPAD` and leaves `PAD`. -/
theorem exec_rdpad_refused {s s' : State} {c : Cause} (e : rdPad (setPhase .rdpad s) = .error c s')
    (hphase : s'.phase = .rdpad) (hpad : s'.pad = s.pad) :
    ∃ t, exec .rdpad s = .next t ∧ t.err = errCode (subErr c.sub) ∧
      t.errinfo = c.datum ++ 0x58#8 ++ 0x0B#8 ++ subCode c.sub ∧ t.pad = s.pad := by
  have hcode : 0#4 ++ phaseCode .rdpad = 0x0B#8 := by decide
  refine ⟨_, exec_error (i := .rdpad) e, faultEntry_err _ _ _, ?_, (faultEntry_pad _ _ _).trans hpad⟩
  rw [faultEntry_errinfo_in _ _ hphase, hcode]
  rfl

/-- Settles O52: `rdPad_steady` up to 7, `rdPad_refuses` above, and `rdPad_eofPad` at the end of the store. -/
theorem rdpadReadsTheCount : Obligations.RdpadReadsTheCount := by
  refine fun s hr => ⟨fun v rest heof hahead hv => ?_, fun v rest heof hahead hv => ?_, fun hend => ?_⟩
  · obtain ⟨pos, buf, avail, e, hrest, _⟩ := rdPad_steady (hr.setPhase .rdpad) heof hahead hv
    have hpad : (BitVec.ofNat 3 v.toNat).toNat = v.toNat := by
      rw [BitVec.toNat_ofNat, Nat.mod_eq_of_lt (by omega)]
    exact ⟨_, exec_ok (i := .rdpad) e, hpad, hrest, rfl⟩
  · obtain ⟨pos, buf, avail, e⟩ := rdPad_refuses (hr.setPhase .rdpad) heof hahead hv
    obtain ⟨t, et, herr, hinfo, hpad⟩ := exec_rdpad_refused e rfl rfl
    have hword : v ++ 0x58#8 ++ 0x0B#8 ++ 0x14#8 = v ++ 0x580B14#24 := by
      rw [BitVec.append_assoc, BitVec.append_assoc]
      rfl
    exact ⟨t, et, herr, hinfo.trans hword, hpad⟩
  · obtain ⟨s', e, hphase, hkept⟩ := rdPad_eofPad (hr.setPhase .rdpad) hend
    obtain ⟨t, et, herr, hinfo, hpad⟩ := exec_rdpad_refused e hphase hkept
    exact ⟨t, et, herr, hinfo.trans (by decide), hpad⟩

/-! ## DECBIT (R233, R234) -/

/-- A bit that leads to a leaf writes its byte through an open writer and returns to the root (R233). -/
theorem decBit_leaf {b : Bool} {s : State} {t l r : HuffTree} {v : Byte} {path : Bits} (ht : s.tree = some t)
    (hp : s.ptr = some path) (hnode : nodeAt t path = some (.internal l r)) (hc : (if b then r else l) = .leaf v)
    (ho : s.outOpen = true) (hs : outSteady s) :
    ∃ buf cnt data, decBit b s = .ok (true, v) { wroteTo s buf cnt data with ptr := some [] } ∧
      bitsWritten (wroteTo s buf cnt data) = bitsWritten s ++ byteBits v := by
  obtain ⟨buf, cnt, data, e, hbits, _⟩ := writeByte_steady v s ho hs
  have hchild := childAt_internal hnode b
  refine ⟨buf, cnt, data, ?_, hbits⟩
  unfold decBit
  simp only [ht, hp, hchild, hc, e]

/-- `RESULT` after a byte was emitted: bit 8 set over the byte (R234). -/
theorem emitted_result (v : Byte) : (BitVec.ofBool true ++ v).setWidth 32 = 0#23 ++ 1#1 ++ v := by
  rw [setWidth_eq_zero_append (v := 23), BitVec.append_assoc]
  rfl

/-- Settles O53, by the three ways a step from an `Internal` node can end. -/
theorem decbitTakesOneStep : Obligations.DecbitTakesOneStep := by
  refine fun a s T l r path hT hp hnode => ⟨fun l' r' hc => ?_, fun v hc ho hs => ?_, fun v hc ho => ?_⟩
  · have e := decBit_internal (s := setPhase .decode s) hT hp hnode hc
    exact exec_ok (i := .decbit a) (Micro.bind_ok e)
  · obtain ⟨buf, cnt, data, e, hbits⟩ := decBit_leaf (s := setPhase .decode s) hT hp hnode hc ho hs
    obtain rfl : cnt = s.bwCnt := bwCnt_of_wrote_byte hbits
    rw [← emitted_result]
    exact ⟨_, exec_ok (i := .decbit a) (Micro.bind_ok e), hbits, rfl, rfl⟩
  · have e := decBit_closed (s := setPhase .decode s) hT hp hnode hc ho
    exact exec_error (i := .decbit a) (Micro.bind_error e)

/-! ## DECODE with the writer closed (R235, R236) -/

/-- `Decode` from a readable store: the loop over the included bits, from the root. -/
theorem decodePayload_eq {s : State} {T : HuffTree} (hr : Readable s) (hT : s.tree = some T) :
    decodePayload s = decodeLoop ((bitsAhead s).length - s.pad.toNat) { s with ptr := some [] } := by
  rcases decodePayload_cases s with ⟨hn, _⟩ | ⟨_, hc, _⟩ | ⟨_, _, e⟩
  · exact absurd (hT.symm.trans hn) (by simp)
  · exact absurd (hr.isOpen.symm.trans hc) (by decide)
  · rw [e, bitsLeft_eq hr.inside]

theorem Readable.atRoot {s : State} (h : Readable s) : Readable { s with ptr := some [] } :=
  ⟨h.isOpen, h.steady, h.inside, h.short⟩

/-- `Decode` with the writer closed raises at the last bit of the codeword that the included bits begin with. -/
theorem decodePayload_closed {s : State} {T : HuffTree} {word rest : Bits} {v : Byte} (hr : Readable s)
    (hT : s.tree = some T) (hroot : isInternal T = true) (ho : s.outOpen = false)
    (hword : (bitsAhead s).take ((bitsAhead s).length - s.pad.toNat) = word ++ rest)
    (hleaf : nodeAt T word = some (.leaf v)) :
    ∃ pos buf avail,
      decodePayload s = .error ⟨.outClosed, 0#8⟩ (walkTo s pos buf avail word.dropLast) ∧
      bitsAhead (walkTo s pos buf avail word.dropLast) = (bitsAhead s).drop word.length := by
  obtain ⟨l, r, hinternal⟩ := isInternal_eq hroot
  have hle : word.length ≤ (bitsAhead s).length - s.pad.toNat := by
    have hlen := congrArg List.length hword
    rw [List.length_take, List.length_append] at hlen
    omega
  have hprefix : word <+: bitsAhead s := (hword ▸ List.prefix_append word rest).trans (List.take_prefix _ _)
  obtain ⟨behind, hahead⟩ := hprefix
  obtain ⟨pos, buf, avail, e, hbehind⟩ :=
    decodeLoop_closed hr.atRoot ho hT rfl hinternal hahead.symm hleaf hle
  refine ⟨pos, buf, avail, (decodePayload_eq hr hT).trans e, ?_⟩
  rw [← hahead, List.drop_left]
  exact hbehind

/-- `Decode` over included bits that end inside the tree needs no writer. -/
theorem decodePayload_inside {s : State} {T l r : HuffTree} (hr : Readable s) (hT : s.tree = some T)
    (hroot : isInternal T = true) {word : Bits}
    (hword : (bitsAhead s).take ((bitsAhead s).length - s.pad.toNat) = word)
    (hnode : nodeAt T word = some (.internal l r)) :
    ∃ pos buf avail,
      decodePayload s = .ok () (walkTo s pos buf avail word) ∧
      bitsAhead (walkTo s pos buf avail word) = (bitsAhead s).drop ((bitsAhead s).length - s.pad.toNat) := by
  obtain ⟨l0, r0, rfl⟩ := isInternal_eq hroot
  have hlen : word.length + 0 = (bitsAhead s).length - s.pad.toNat := by
    rw [← hword, List.length_take]
    omega
  have hahead : bitsAhead s = word ++ (bitsAhead s).drop ((bitsAhead s).length - s.pad.toNat) := by
    rw [← hword, List.take_append_drop]
  obtain ⟨pos, buf, avail, e, hrest, _⟩ :=
    decodeLoop_inside word (n := 0) hr.atRoot hT rfl (nodeAt_nil _) hahead hnode
  refine ⟨pos, buf, avail, ?_, hrest⟩
  rw [decodePayload_eq hr hT, ← hlen, e]
  rfl

/-- Settles O60, by `decodePayload_closed` and `decodePayload_inside` in the frame of the command. -/
theorem decodeWithoutWriter : Obligations.DecodeWithoutWriter := by
  refine fun s T hr hT hroot ho => ⟨fun word rest v hword hleaf => ?_, fun l r hnode => ?_⟩
  · obtain ⟨pos, buf, avail, e, hrest⟩ :=
      decodePayload_closed (hr.setPhase .decode) hT hroot ho hword hleaf
    exact ⟨_, exec_error (i := .decode) e, hrest, rfl⟩
  · obtain ⟨pos, buf, avail, e, hrest⟩ := decodePayload_inside (hr.setPhase .decode) hT hroot rfl hnode
    exact ⟨_, exec_ok (i := .decode) e, hrest, rfl⟩

/-! ## What a call that ends without a fault began with (R215, R237) -/

/-- A call that ends well has opened both handles: they were closed, and both stores could be opened. -/
theorem call_ok_opened {s s' : State} {rest : Micro Unit}
    (e : (requireClosed >>= fun _ => change resetBlock >>= fun _ => change (setPhase .opening) >>= fun _ =>
      openR >>= fun _ => openW >>= fun _ => rest) s = .ok () s') :
    s.inOpen = false ∧ s.outOpen = false ∧ s.inStore.present = true ∧ s.outStore.creatable = true ∧
      inLen s ≤ Config.lenMax := by
  rcases requireClosed_cases s with ⟨_, k⟩ | ⟨hi, ho, _⟩
  · cases (Micro.bind_error k).symm.trans e
  rw [call_resets hi ho] at e
  obtain ⟨_, s1, er, e⟩ := Micro.bind_ok_inv e
  obtain ⟨_, s2, ew, _⟩ := Micro.bind_ok_inv e
  rcases openR_cases (setPhase .opening (resetBlock s)) with
    ⟨_, k⟩ | ⟨_, _, k⟩ | ⟨_, _, _, k⟩ | ⟨_, hp, hl, k⟩ <;> cases k.symm.trans er
  rcases openW_cases (restartReader { setPhase .opening (resetBlock s) with inOpen := true }) with
    ⟨_, k⟩ | ⟨_, _, k⟩ | ⟨_, hc, k⟩ <;> cases k.symm.trans ew
  exact ⟨hi, ho, hp, hc, hl⟩

/-- A second pass that ends well has found room for the whole payload (R175, R177). -/
theorem encodeInput_ok_fits {s s' : State} {T : HuffTree} {bytes : List Byte} (e : encodeInput s = .ok () s')
    (hr : Readable s) (heof : s.brEof = false) (henc : s.enc = []) (hahead : bitsAhead s = bitsOf bytes)
    (hcode : ∀ b, slotGet s.code b = codewordOf T b) (hall : ∀ b ∈ bytes, b ∈ leafBytes T) :
    (payloadOf T bytes).length ≤ s.cfg.encCap.toNat := by
  by_contra hfull
  have hbytes : wholeBytes (bitsAhead s) = bytes := by rw [hahead, wholeBytes_bitsOf]
  obtain ⟨s1, k⟩ := encodeLoop_full (readTurns s) hr heof readTurns_enough
    (by
      intro b hb
      rw [hcode, codewordOf_isSome_iff]
      exact hall b (hbytes ▸ hb))
    (by simp [henc])
    (by
      rw [hbytes, codesOf_eq_payloadOf hcode, henc, List.length_nil, Nat.zero_add]
      exact Nat.lt_of_not_le hfull)
  cases k.symm.trans e

/-- The same in the call, from the table of `T` on. -/
theorem call_ok_fits {s s' : State} {T : HuffTree} {pos : Word} {buf : BitVec 8} {avail : Fin 9} {d : Nat}
    {f : FreqTable} {code : CodeTable} (hin : inSteady s) (hl : inLen s ≤ Config.lenMax)
    (hcode : ∀ b, slotGet code b = codewordOf T b) (hall : ∀ b ∈ s.inStore.data, b ∈ leafBytes T)
    {rest : Micro Unit}
    (e : (change (setPhase .pass2) >>= fun _ => rewindR >>= fun _ => encodeInput >>= fun _ => rest)
      (callTabled s T pos buf avail d f code) = .ok () s') :
    (payloadOf T s.inStore.data).length ≤ s.cfg.encCap.toNat := by
  rw [bind_change] at e
  obtain ⟨_, s1, erewind, e⟩ := Micro.bind_ok_inv e
  obtain ⟨_, s2, eencode, _⟩ := Micro.bind_ok_inv e
  cases erewind
  exact encodeInput_ok_fits (s := restartReader (setPhase .pass2 (callTabled s T pos buf avail d f code))) eencode
    ⟨rfl, hin, Nat.zero_le _, hl⟩ rfl rfl rfl hcode hall

/-! ## The round trip (R239) -/

/-- A `COMPRESS` that ends well had a non-empty input and wrote the file of a tree that its counts allow. -/
theorem compressCall_ok_writes {s s' : State} (hin : inSteady s) (hout : outSteady s)
    (e : compressCall s = .ok () s') :
    ∃ T, s.inStore.data ≠ [] ∧ BuildsFrom s.inStore.data T ∧
      bitsOf s'.outStore.data = fileBits T (payloadOf T s.inStore.data) := by
  obtain ⟨hi, ho, hp, hc, hl⟩ := call_ok_opened e
  have hne : s.inStore.data ≠ [] := by
    intro hempty
    obtain ⟨_, _, k⟩ := compressCall_empty hi ho hp hc hempty
    cases k.symm.trans e
  replace e := (call_opens hi ho hp hc hl _).symm.trans e
  obtain ⟨pos, buf, avail, d, f, ecount, hcount, hpos⟩ := call_counts hin hl _
  replace e := ecount.symm.trans e
  obtain ⟨T, d1, code, hbuilds, etable, hcode⟩ := call_tables pos buf avail d hne hcount _
  replace e := etable.symm.trans e
  obtain ⟨_, hnodup, hall⟩ := hbuilds.spec hne
  have hfit := call_ok_fits hin hl hcode hall e
  obtain ⟨pos', buf', avail', d', eencode⟩ := call_encodes buf avail d1 f hin hl hpos hcode hall hfit _
  obtain ⟨data, ewrite, hdata⟩ := call_writes (s := callEncoded s T pos' buf' avail' d' f code) rfl hnodup rfl hout
    (callOpened_lowZero s) (bitsWritten_callOpened s) discardCall
  cases (eencode.trans ewrite).symm.trans e
  exact ⟨T, hne, hbuilds, hdata⟩

/-- A tree without repeated leaf values is within `NODE_CAP` (R9). -/
theorem treeNodes_le_nodeCap {T : HuffTree} (h : (leafBytes T).Nodup) : treeNodes T ≤ 511 := by
  have hl := byte_nodup_length_le h
  rw [leafBytes_length] at hl
  rw [treeNodes_eq]
  omega

/-- A `DECOMPRESS` of the file of `bytes` under `T` that ends without a fault leaves `bytes`. -/
theorem exec_decompress_file {s u : State} {T : HuffTree} {bytes : List Byte} (hin : inSteady s) (hout : outSteady s)
    (hroot : isInternal T = true) (hnodup : (leafBytes T).Nodup) (hall : ∀ b ∈ bytes, b ∈ leafBytes T)
    (hfile : bitsOf s.inStore.data = fileBits T (payloadOf T bytes)) (hexec : exec .decompress s = .next u)
    (herr : u.err = 0#4) : u.outStore.data = bytes := by
  obtain ⟨s', e, _⟩ := exec_ok_inv hexec herr
  obtain ⟨hi, ho, hp, hc, hl⟩ := call_ok_opened e
  have hpad : paddingOf T (payloadOf T bytes) < 8 := (padCount_completes _).1
  rw [fileBits, List.append_assoc] at hfile
  generalize paddingOf T (payloadOf T bytes) = p at hpad hfile
  have hbyte : (BitVec.ofNat 8 p).toNat = p := by rw [BitVec.toNat_ofNat, Nat.mod_eq_of_lt (by omega)]
  obtain ⟨u', hexec', hdata, _⟩ := decompressReplaysTheFile s T (BitVec.ofNat 8 p) _ hi ho hp hc hin hout hl hroot
    (treeNodes_le_nodeCap hnodup) (by omega) hfile
  cases hexec'.symm.trans hexec
  rw [hdata, hbyte, List.length_append, List.length_replicate, Nat.add_sub_cancel, List.take_left,
    replay_payloadOf hroot bytes hall]

/-- Settles O57: `COMPRESS` has written a file of its input (`compressCall_ok_writes`), which `DECOMPRESS` reads back
under the same tree, whichever the merges led to (`exec_decompress_file`). -/
theorem roundTrip : Obligations.RoundTrip := by
  intro s u s' u' hin hout hcompress herr hfile hin' hout' hdecompress herr'
  obtain ⟨t, e, rfl⟩ := exec_ok_inv hcompress herr
  obtain ⟨T, hne, hbuilds, hdata⟩ := compressCall_ok_writes (s := setPhase .idle s) hin hout e
  obtain ⟨hroot, hnodup, hall⟩ := hbuilds.spec hne
  exact exec_decompress_file hin' hout' hroot hnodup hall ((congrArg bitsOf hfile).trans hdata) hdecompress herr'

end Sys2Proof.Machine
end

section
/-! PROOFS. Faults (60_exceptions.md): a pending fault ignores every word but `INIT` (R259), what fault entry writes (R256,
R261), and which causes each command can raise (R258). -/

namespace Sys2Proof.Machine

/-! ## A pending fault (R259) -/

/-- Settles O12, by induction on the script: each word leaves the faulted state as it is. -/
theorem stickyFault : Obligations.StickyFault := by
  intro ws s herr hws
  induction ws with
  | nil => rfl
  | cons w ws ih =>
    have hw : w ≠ initWord := hws w List.mem_cons_self
    rw [runWords, step_pushCommand, issue_sticky hw herr]
    exact ih fun v hv => hws v (List.mem_cons_of_mem w hv)

/-! ## Fault entry (R256, R261) -/

theorem outAsk_data (st : OutStore) : (outAsk st).data = st.data := by
  obtain ⟨ok, plan, e, _⟩ := outAsk_eq st
  rw [e]

/-- Fault entry writes the partial byte of an open writer to a store that answers, unless the fault is `OUT_BROKEN`. -/
theorem faultEntry_flushes (op : Byte) {c : Cause} {s : State} (ho : s.outOpen = true) (hcnt : s.bwCnt ≠ 0#3)
    (hsub : c.sub ≠ .outBroken) (hok : (outAsk s.outStore).ok = true) :
    (faultEntry op c s).outStore.data = s.outStore.data ++ [s.bwBuf] := by
  rw [faultEntry_eq]
  simp only [if_pos ho, if_pos (And.intro hcnt hsub), if_pos hok, memAppend, outAsk_data]

/-- In every other case `OUT` keeps its bytes. -/
theorem faultEntry_keeps_data (op : Byte) {c : Cause} {s : State}
    (h : s.outOpen = false ∨ s.bwCnt = 0#3 ∨ c.sub = .outBroken ∨ (outAsk s.outStore).ok = false) :
    (faultEntry op c s).outStore.data = s.outStore.data := by
  rw [faultEntry_eq]
  rcases h with h | h | h | h <;> simp [h, outAsk_data, apply_ite OutStore.data]

/-- With nothing planned by the environment fault entry touches nothing of `OUT` but its bytes. -/
theorem faultEntry_outStore_unplanned (op : Byte) (c : Cause) {s : State} (hp : s.outStore.plan = []) :
    (faultEntry op c s).outStore = { s.outStore with data := (faultEntry op c s).outStore.data } := by
  obtain ⟨u, ⟨_, _, ok, plan, ext, rfl, hkeep⟩, _, e⟩ := faultEntry_stores op c s
  obtain ⟨rfl, rfl⟩ := hkeep hp
  rw [e, ← hp]

/-- Settles O13, from the one record that says what fault entry changes (`faultEntry_eq`); the tables row by row. -/
theorem faultEntry_spec : Obligations.FaultEntry := by
  refine ⟨fun i body c s reached e => runCommand_error e, ?_, ?_, ?_, fun op c s => ?_⟩
  · intro sub
    cases sub <;> decide
  · intro p
    cases p <;> decide
  · intro i
    cases i <;> simp [opcode, phaseOf, phaseCode, commandPhases]
  · refine ⟨?_, faultEntry_errinfo op c s, ?_, ?_, ?_, ?_, fun ho => ?_, fun ho => ?_, faultEntry_flushes op,
      faultEntry_keeps_data op, faultEntry_outStore_unplanned op c, ?_⟩ <;> rw [faultEntry_eq]
    · exact ⟨if_pos ho, if_pos ho⟩
    · simp [ho]

/-! ## The causes each command raises (R258) -/

/-- The cause is in the command's list, and its `DATUM` is 0 unless the sub-cause has one (R27, R258). -/
def Listed (i : Instr) (c : Cause) : Prop := c.sub ∈ causesOf i ∧ (c.sub ∉ datumCauses → c.datum = 0#8)

variable {i : Instr} {sub : Sub}

/-- A listed sub-cause with `DATUM` 0. -/
theorem listed_zero (h : sub ∈ causesOf i := by simp [causesOf, readCauses, writeCauses]) : Listed i ⟨sub, 0#8⟩ :=
  ⟨h, fun _ => rfl⟩

/-- A listed sub-cause that records a byte. -/
theorem listed_datum (h : sub ∈ causesOf i := by simp [causesOf]) (hd : sub ∈ datumCauses := by decide) (v : Byte) :
    Listed i ⟨sub, v⟩ := ⟨h, fun hn => absurd hd hn⟩

/-- A command's body raises only causes of its list. -/
theorem bodyOf_raises (i : Instr) : Raises (Listed i) (bodyOf i) := by
  cases i with
  | nop => exact Raises.pure ()
  | init | pending | iseof | fclr | fread => exact Raises.change _
  | openw => exact openW_raises listed_zero listed_zero
  | wrbit a => exact writeBit_raises listed_zero listed_zero _
  | wrbyte a => exact writeBits_raises listed_zero listed_zero _
  | closew => exact closeW_raises listed_zero listed_zero
  | openr => exact openR_raises listed_zero listed_zero listed_zero
  | rdbit => exact (readBit_raises listed_zero listed_zero).bind fun _ => Raises.change _
  | rdbyte => exact (readByte_raises listed_zero listed_zero).bind fun _ => Raises.change _
  | closer => exact closeR_raises listed_zero
  | rewind => exact rewindR_raises listed_zero
  | fadd a n => exact freqAdd_raises listed_datum a _
  | tally => exact tally_raises listed_zero listed_zero listed_datum
  | build => exact buildTree_raises listed_zero
  | mktab => exact mkTab_raises listed_zero listed_datum
  | lookup a => exact (lookupCode_raises listed_datum a).bind fun _ => Raises.change _
  | encsym a => exact encSym_raises listed_datum listed_zero a
  | encode => exact encodeInput_raises listed_zero listed_zero listed_datum listed_zero
  | sertree => exact serTree_raises listed_zero listed_zero listed_zero
  | destree => exact desTree_raises listed_zero listed_zero listed_zero listed_zero listed_zero listed_zero
  | wrpad => exact wrPad_raises listed_zero listed_zero
  | wrenc => exact fun s => writeBits_raises listed_zero listed_zero s.enc s
  | compress =>
    exact compressCall_raises listed_zero listed_zero listed_zero listed_zero listed_datum listed_zero listed_zero
      listed_datum listed_datum listed_zero listed_zero listed_zero listed_zero listed_zero
  | rdpad => exact rdPad_raises listed_zero listed_zero listed_zero listed_datum
  | decbit a =>
    exact (decBit_raises listed_zero listed_zero listed_zero listed_zero _).bind fun _ => Raises.change _
  | decode =>
    exact decodePayload_raises listed_zero listed_zero listed_zero listed_zero listed_zero listed_zero
  | decompress =>
    exact decompressCall_raises listed_zero listed_zero listed_zero listed_zero listed_zero listed_zero listed_zero
      listed_zero listed_zero listed_zero listed_zero listed_datum listed_zero listed_zero listed_zero listed_zero

/-- The high byte of `ERRINFO` after fault entry is the recorded byte (R27). -/
theorem faultEntry_datum (op : Byte) (c : Cause) (s : State) :
    (faultEntry op c s).errinfo.extractLsb' 24 8 = c.datum := by
  rw [faultEntry_errinfo, BitVec.extractLsb'_append_eq_of_le (by decide), BitVec.extractLsb'_append_eq_of_le (by decide)]
  exact BitVec.extractLsb'_append_eq_left

/-- Settles O15: only a body that raises leaves a fault, and the cause it raises is in the command's list. -/
theorem commandsRaiseWhatTheyList : Obligations.CommandsRaiseWhatTheyList := by
  intro i s t h0 h hne
  rw [exec_eq] at h
  rcases runCommand_cases i (bodyOf i) s with ⟨s', e, e'⟩ | ⟨c, s', e, e'⟩ <;> rw [e'] at h <;> cases h
  · exact absurd (bodyOf_err (s := setPhase (phaseOf i) s) h0 e) hne
  · obtain ⟨hsub, hdatum⟩ := bodyOf_raises i _ c s' e
    refine ⟨c.sub, hsub, faultEntry_err _ c s', faultEntry_sub _ c s', fun hn => ?_⟩
    rw [faultEntry_datum, hdatum hn]

end Sys2Proof.Machine
end

section
/-! PROOFS. Draws (60_exceptions.md R266): two runs from states that differ only in the draws to come. A draw sets
`BR.eof`, and what was read is dropped once that flag is set; `DECODE`, which does not look at the flag, reads no further
than the bits that are there; only `RDBIT` and `RDBYTE` hand on what they read. -/

namespace Sys2Proof.Machine

variable {α β : Type}

/-! ## Two runs that differ in the draws -/

/-- The same state with other draws to come. -/
def redraw (d : Nat) (s : State) : State := { s with draws := d }

@[simp] theorem redraw_tree (d : Nat) (s : State) : (redraw d s).tree = s.tree := rfl
@[simp] theorem redraw_ptr (d : Nat) (s : State) : (redraw d s).ptr = s.ptr := rfl
@[simp] theorem redraw_pq (d : Nat) (s : State) : (redraw d s).pq = s.pq := rfl
@[simp] theorem redraw_cfg (d : Nat) (s : State) : (redraw d s).cfg = s.cfg := rfl
@[simp] theorem redraw_draws (d : Nat) (s : State) : (redraw d s).draws = d := rfl
@[simp] theorem redraw_code (d : Nat) (s : State) : (redraw d s).code = s.code := rfl

/-- Two runs end alike: both well, with values related by `V` in the state the first one reaches, or both with one
cause; and in states that differ only in the draws to come. -/
inductive DrawsApart (V : State → α → α → Prop) :
    EStateM.Result Cause State α → EStateM.Result Cause State α → Prop
  | ok {a a' : α} {s : State} (d : Nat) (h : V s a a') : DrawsApart V (.ok a s) (.ok a' (redraw d s))
  | error (c : Cause) (s : State) (d : Nat) : DrawsApart V (.error c s) (.error c (redraw d s))

/-- The two values are one. -/
def Same (_ : State) (a a' : α) : Prop := a = a'

/-- From a state that meets `Q`, no draw reaches what `x` does: not its value, its cause or the state it ends in. -/
def BlindFrom (Q : State → Prop) (x : Micro α) : Prop :=
  ∀ s d, Q s → DrawsApart Same (x s) (x (redraw d s))

/-- The same from every state. -/
def Blind (x : Micro α) : Prop := ∀ s d, DrawsApart Same (x s) (x (redraw d s))

/-- A draw reaches the value of `x` at most where `x` leaves `BR.eof` set. -/
def BlindToEof (x : Micro α) : Prop :=
  ∀ s d, DrawsApart (fun t a a' => t.brEof = false → a = a') (x s) (x (redraw d s))

namespace DrawsApart

variable {V : State → α → α → Prop} {W : State → β → β → Prop}

theorem bind {x : Micro α} {f f' : α → Micro β} {s : State} {d : Nat} (h : DrawsApart V (x s) (x (redraw d s)))
    (hf : ∀ a a' t e, x s = .ok a t → V t a a' → DrawsApart W (f a t) (f' a' (redraw e t))) :
    DrawsApart W ((x >>= f) s) ((x >>= f') (redraw d s)) := by
  generalize hx : x s = r at h
  generalize hy : x (redraw d s) = r' at h
  cases h with
  | ok e hv =>
    rw [Micro.bind_ok hx, Micro.bind_ok hy]
    exact hf _ _ _ e hx hv
  | error c t e =>
    rw [Micro.bind_error hx, Micro.bind_error hy]
    exact .error c t e

/-- Both runs take the same branch. -/
theorem ite {p : Prop} [Decidable p] {x y x' y' : EStateM.Result Cause State α} (hx : p → DrawsApart V x x')
    (hy : ¬ p → DrawsApart V y y') : DrawsApart V (if p then x else y) (if p then x' else y') := by
  by_cases hp : p
  · rw [if_pos hp, if_pos hp]
    exact hx hp
  · rw [if_neg hp, if_neg hp]
    exact hy hp

end DrawsApart

theorem Blind.blindFrom {x : Micro α} (h : Blind x) (Q : State → Prop) : BlindFrom Q x := fun s d _ => h s d

theorem BlindFrom.bind {Q Q' : State → Prop} {x : Micro α} {f : α → Micro β} (hx : BlindFrom Q x)
    (hq : ∀ s a t, Q s → x s = .ok a t → Q' t) (hf : ∀ a, BlindFrom Q' (f a)) : BlindFrom Q (x >>= f) := by
  intro s d hs
  refine (hx s d hs).bind fun a a' t e he hv => ?_
  obtain rfl : a = a' := hv
  exact hf a t e (hq s a t hs he)

namespace Blind

theorem bind {x : Micro α} {f : α → Micro β} (hx : Blind x) (hf : ∀ a, Blind (f a)) : Blind (x >>= f) := by
  refine fun s d => (hx s d).bind fun a a' t e _ hv => ?_
  obtain rfl : a = a' := hv
  exact hf a t e

theorem pure (a : α) : Blind (pure a : Micro α) := fun _ d => .ok d rfl

theorem look {f : State → α} (h : ∀ s d, f s = f (redraw d s)) : Blind (look f) := fun s d => .ok d (h s d)

theorem raise (sub : Sub) (v : Byte) : Blind (raiseErr sub v : Micro α) := fun s d => .error _ s d

/-- An update that neither reads nor writes the draws. -/
theorem change {f : State → State} (h : ∀ s d, f (redraw d s) = redraw d (f s)) : Blind (change f) := by
  intro s d
  rw [change_ok, change_ok, h]
  exact .ok d rfl

theorem iteB {b : Bool} {x y : Micro α} (hx : Blind x) (hy : Blind y) : Blind (if b then x else y) := by
  cases b
  · exact hy
  · exact hx

theorem iteP {p : Prop} [Decidable p] {x y : Micro α} (hx : Blind x) (hy : Blind y) : Blind (if p then x else y) := by
  by_cases hp : p
  · rw [if_pos hp]; exact hx
  · rw [if_neg hp]; exact hy

end Blind

/-- What was read is dropped once `BR.eof` is set, so a draw reaches nothing of what follows (R137, R296). -/
theorem BlindToEof.dropped {x : Micro α} {k : Micro β} {f : α → Micro β} (hx : BlindToEof x) (hk : Blind k)
    (hf : ∀ a, Blind (f a)) : Blind (x >>= fun a => look State.brEof >>= fun eof => if eof then k else f a) := by
  intro s d
  refine (hx s d).bind fun a a' t e _ hv => ?_
  change DrawsApart _ ((if t.brEof then k else f a) t) ((if t.brEof then k else f a') (redraw e t))
  cases ht : t.brEof
  · obtain rfl := hv ht
    exact hf a t e
  · exact hk t e

/-! ## The writer (R131, R139, R146) -/

theorem writeBit_blind (b : Bool) : Blind (writeBit b) := by
  intro s d
  rcases writeBit_cases b s with ⟨ho, e⟩ | ⟨ho, hc, e⟩ | ⟨ho, hc, hk, e⟩ | ⟨ho, hc, hk, e⟩ <;> rw [e]
  · rw [show writeBit b (redraw d s) = .error ⟨.outClosed, 0#8⟩ (redraw d s) from if_pos ho]
    exact .error _ s d
  · rw [writeBit_buffers (s := redraw d s) b ho hc]
    exact .ok d rfl
  · rw [writeBit_appends (s := redraw d s) b ho hc hk]
    exact .ok d rfl
  · rw [writeBit_broken (s := redraw d s) b ho hc hk]
    exact .error _ _ d

theorem writeBits_blind (bs : Bits) : Blind (writeBits bs) := by
  induction bs with
  | nil => exact Blind.pure ()
  | cons b bs ih => exact (writeBit_blind b).bind fun _ => ih

theorem flushW_blind : Blind flushW := by
  intro s d
  rcases flushW_cases s with ⟨hc, e⟩ | ⟨hc, hk, e⟩ | ⟨hc, hk, e⟩ <;> rw [e]
  · rw [flushW_none_pending (s := redraw d s) hc]
    exact .ok d rfl
  · rw [flushW_appends (s := redraw d s) hc hk]
    exact .ok d rfl
  · rw [flushW_broken (s := redraw d s) hc hk]
    exact .error _ _ d

theorem openW_blind : Blind openW := fun s d =>
  .ite (fun _ => .error _ s d) fun _ => .ite (fun _ => .error _ s d) fun _ => .ok d rfl

theorem closeW_blind : Blind closeW := by
  refine fun s d => .ite (fun _ => .error _ s d) fun _ => ?_
  have h := flushW_blind s d
  generalize flushW s = r at h ⊢
  generalize flushW (redraw d s) = r' at h ⊢
  cases h with
  | ok e _ => exact .ok e rfl
  | error c t e => exact .error c t e

/-! ## The reader (R137, R138) -/

theorem inFetch_blind : Blind inFetch := fun _ d => .ite (fun _ => .ok d rfl) fun _ => .error _ _ d

/-- The two runs of `ReadBit` return one bit, save at end of input, where each returns its own draw. -/
theorem readBit_apart {V : State → Bool → Bool → Prop} {s : State} (d : Nat) (hsame : ∀ t b, V t b b)
    (hdraw : s.brAvail.val = 0 → inLen s ≤ s.inPos.toNat →
      V { s with brEof := true, draws := s.draws + 1 } (Config.drawBit s.draws) (Config.drawBit d)) :
    DrawsApart V (readBit s) (readBit (redraw d s)) := by
  refine .ite (fun _ => .error _ s d) fun _ => .ite (fun ha => ?_) fun _ => .ok d (hsame _ _)
  refine .ite (fun _ => ?_) fun hp => .ok (d + 1) (hdraw ha (Nat.le_of_not_lt hp))
  have h := inFetch_blind s d
  generalize inFetch s = r at h ⊢
  generalize inFetch (redraw d s) = r' at h ⊢
  cases h with
  | ok e hv =>
    obtain rfl : _ = _ := hv
    exact .ok e (hsame _ _)
  | error c t e => exact .error c t e

theorem readBit_blindToEof : BlindToEof readBit := fun s d =>
  readBit_apart d (fun _ _ _ => rfl) fun _ _ h => by cases h

/-- `BR.eof` is not cleared. -/
def EofStays (s t : State) : Prop := s.brEof = true → t.brEof = true

theorem readBit_eofStays : Always EofStays readBit := by
  intro s h
  rcases readBit_cases s with ⟨_, e⟩ | ⟨_, _, _, e⟩ | ⟨_, _, _, _, e⟩ | ⟨_, _, _, _, e⟩ | ⟨_, _, e⟩ <;> rw [e]
  · exact h
  · rfl
  · exact h
  · exact h
  · exact h

theorem readBits_eofStays (n : Nat) : Always EofStays (readBits n) := by
  have ht : ∀ a b c, EofStays a b → EofStays b c → EofStays a c := fun _ _ _ h1 h2 h => h2 (h1 h)
  induction n with
  | zero => exact fun _ h => h
  | succ n ih => exact Always.bind ht readBit_eofStays fun _ => Always.bind ht ih fun _ _ h => h

theorem readBits_blindToEof (n : Nat) : BlindToEof (readBits n) := by
  induction n with
  | zero => exact fun s d => .ok d fun _ => rfl
  | succ n ih =>
    intro s d
    refine (readBit_blindToEof s d).bind fun b b' t e _ hb => ?_
    refine (ih t e).bind fun bs bs' u e' he hbs => ?_
    refine DrawsApart.ok e' fun hu => ?_
    have ht : t.brEof = false := by
      have hk := readBits_eofStays n t
      rw [he] at hk
      exact Bool.eq_false_iff.2 fun h => Bool.false_ne_true (hu.symm.trans (hk h))
    rw [hb ht, hbs hu]

theorem readByte_blindToEof : BlindToEof readByte := fun s d =>
  (readBits_blindToEof 8 s d).bind fun _ _ _ e _ hv => .ok e fun h => congrArg byteOfBits (hv h)

theorem openR_blind : Blind openR := fun s d =>
  .ite (fun _ => .error _ s d) fun _ => .ite (fun _ => .error _ s d) fun _ =>
    .ite (fun _ => .error _ s d) fun _ => .ok d rfl

theorem closeR_blind : Blind closeR := fun s d => .ite (fun _ => .error _ s d) fun _ => .ok d rfl

theorem rewindR_blind : Blind rewindR := fun s d => .ite (fun _ => .error _ s d) fun _ => .ok d rfl

/-! ## The passes over the input (R154, R177) -/

theorem freqAdd_blind (b : Byte) (n : Word) : Blind (freqAdd b n) := fun s d =>
  .ite (fun _ => .error _ s d) fun _ => .ok d rfl

theorem tally_blind : Blind tally := by
  have hl : ∀ n, Blind (tallyLoop n) := by
    intro n
    induction n with
    | zero => exact Blind.pure ()
    | succ n ih => exact readByte_blindToEof.dropped (Blind.pure ()) fun v => (freqAdd_blind v 1#32).bind fun _ => ih
  exact fun s d => hl (readTurns s) s d

theorem lookupCode_blind (v : Byte) : Blind (lookupCode v) := by
  intro s d
  cases h : slotGet s.code v with
  | none =>
    simp only [lookupCode, redraw_code, h]
    exact .error _ s d
  | some c =>
    simp only [lookupCode, redraw_code, h]
    exact .ok d rfl

theorem encSym_blind (v : Byte) : Blind (encSym v) :=
  (lookupCode_blind v).bind fun _ => (Blind.look fun _ _ => rfl).bind fun _ =>
    Blind.iteB (Blind.change fun _ _ => rfl) (Blind.raise _ _)

theorem encodeInput_blind : Blind encodeInput := by
  have hl : ∀ n, Blind (encodeLoop n) := by
    intro n
    induction n with
    | zero => exact Blind.pure ()
    | succ n ih => exact readByte_blindToEof.dropped (Blind.pure ()) fun v => (encSym_blind v).bind fun _ => ih
  exact fun s d => hl (readTurns s) s d

theorem mkTab_blind : Blind mkTab := by
  intro s d
  cases ht : s.tree with
  | none =>
    simp only [mkTab, redraw_tree, ht]
    exact .error _ s d
  | some t =>
    simp only [mkTab, redraw_tree, ht]
    cases firstRepeat [] (leafBytes t) with
    | none => exact .ok d rfl
    | some v => exact .error _ (clearTable s) d

/-! ## Trees in and out (R191, R193) -/

theorem putTree_blind (t : HuffTree) : Blind (putTree t) := fun s d => by
  rw [putTree_eq, putTree_eq]
  exact writeBits_blind (ser t) s d

theorem serTree_blind : Blind serTree := by
  intro s d
  cases ht : s.tree with
  | none =>
    simp only [serTree, redraw_tree, ht]
    exact .error _ s d
  | some t =>
    simp only [serTree, redraw_tree, ht]
    exact ((putTree_blind t).bind fun _ => Blind.change fun _ _ => rfl) s d

theorem countNode_blind : Blind countNode := fun s d => .ite (fun _ => .error _ s d) fun _ => .ok d rfl

theorem getTree_blind (n : Nat) : Blind (getTree n) := by
  induction n with
  | zero => exact Blind.raise _ _
  | succ n ih =>
    intro s d
    rw [getTree_succ, getTree_succ]
    exact readBit_blindToEof.dropped (Blind.raise _ _) (fun t => countNode_blind.bind fun _ =>
      Blind.iteB (readByte_blindToEof.dropped (Blind.raise _ _) fun _ => Blind.pure _)
        (ih.bind fun l => ih.bind fun r => Blind.pure _)) s d

theorem desTree_blind : Blind desTree :=
  (Blind.change fun _ _ => rfl).bind fun _ => (getTree_blind _).bind fun _ =>
    Blind.iteB (Blind.change fun _ _ => rfl) (Blind.raise _ _)

/-! ## The padding byte (R211, R231) -/

theorem wrPad_blind : Blind wrPad :=
  (Blind.look fun _ _ => rfl).bind fun _ => (Blind.change fun _ _ => rfl).bind fun _ => writeBits_blind _

theorem rdPad_blind : Blind rdPad :=
  readByte_blindToEof.dropped (Blind.raise _ _) fun _ =>
    Blind.iteP (Blind.raise _ _) (Blind.change fun _ _ => rfl)

theorem wrEnc_blind : Blind wrEnc := fun s d => writeBits_blind s.enc s d

/-! ## The replay (R233, R235) -/

theorem decBit_blind (b : Bool) : Blind (decBit b) := by
  intro s d
  cases ht : s.tree with
  | none =>
    simp only [decBit, redraw_tree, ht]
    exact .error _ s d
  | some t =>
    cases hc : childAt t s.ptr b with
    | none =>
      simp only [decBit, redraw_tree, redraw_ptr, ht, hc]
      exact .error _ s d
    | some n =>
      cases n with
      | internal l r =>
        simp only [decBit, redraw_tree, redraw_ptr, ht, hc]
        exact .ok d rfl
      | leaf v =>
        simp only [decBit, redraw_tree, redraw_ptr, ht, hc]
        have h : DrawsApart Same (writeByte v s) (writeByte v (redraw d s)) := writeBits_blind (byteBits v) s d
        generalize writeByte v s = r at h ⊢
        generalize writeByte v (redraw d s) = r' at h ⊢
        cases h with
        | ok e _ => exact .ok e rfl
        | error c t e => exact .error c t e

/-- While there are bits left `ReadBit` draws nothing (R137, R235). -/
theorem readBit_blind_before_end (n : Nat) : BlindFrom (fun s => n + 1 ≤ bitsLeft s) readBit := fun s d hs =>
  readBit_apart d (fun _ _ => rfl) fun ha hp => by
    simp only [bitsLeft] at hs
    omega

/-- One `ReadBit` uses up at most one of the bits left. -/
theorem bitsLeft_readBit {s t : State} {b : Bool} (e : readBit s = .ok b t) : bitsLeft s ≤ bitsLeft t + 1 := by
  rcases readBit_cases s with ⟨_, k⟩ | ⟨_, _, _, k⟩ | ⟨_, _, _, _, k⟩ | ⟨_, ha, hp, _, k⟩ | ⟨_, ha, k⟩ <;>
    rw [k] at e <;> cases e
  · exact Nat.le_succ _
  · have hlen : (inAsk s.inStore s.inPos.toNat).data.length = inLen s := by
      obtain ⟨_, _, _, hask, hl, _⟩ := inAsk_eq s.inStore s.inPos.toNat
      rw [hask, hl]
      rfl
    have hpos : (s.inPos + 1#32).toNat ≤ s.inPos.toNat + 1 := by
      rw [BitVec.toNat_add]
      exact Nat.mod_le _ _
    simp only [bitsLeft, inLen, hlen] at hp ⊢
    omega
  · simp only [bitsLeft, inLen]
    omega

theorem decBit_keeps_bitsLeft (b : Bool) : Keeps bitsLeft (decBit b) := by
  refine decBit_keeps ?_ (fun _ _ => rfl) b
  rintro s _ ⟨_, _, _, _, _, rfl, _⟩
  rfl

/-- `DECODE` reads no more bits than are left, so it draws nothing. -/
theorem decodeLoop_blind (n : Nat) : BlindFrom (fun s => n ≤ bitsLeft s) (decodeLoop n) := by
  induction n with
  | zero => exact (Blind.pure ()).blindFrom _
  | succ n ih =>
    refine (readBit_blind_before_end n).bind (Q' := fun s => n ≤ bitsLeft s) (fun s b t hs e => ?_) fun b => ?_
    · have := bitsLeft_readBit e
      omega
    · refine ((decBit_blind b).blindFrom _).bind (fun s a t hs e => ?_) fun _ => ih
      have hk := decBit_keeps_bitsLeft b s
      rw [e] at hk
      exact hs.trans_eq hk.symm

theorem decodePayload_blind : Blind decodePayload := fun s d =>
  .ite (fun _ => .error _ s d) fun _ => .ite (fun _ => .error _ s d) fun _ =>
    decodeLoop_blind _ { s with ptr := some [] } d (Nat.sub_le _ _)

/-! ## Building a tree under `fifo` (R156, R157) -/

/-- The policy `fifo` (R157). -/
def Fifo (s : State) : Prop := s.cfg.tiePolicy = .fifo

/-- Under `fifo` the count of draws is handed through. -/
theorem pickMin_fifo_draws (d d' : Nat) (q : List PQEntry) :
    pickMin .fifo d' q = (pickMin .fifo d q).map fun p => (p.1, d') := by
  rcases h : leastEntries q with _ | ⟨e, _ | ⟨e', es⟩⟩ <;> simp [pickMin, h]

/-- Under `fifo` `RemoveMin` draws nothing. -/
theorem removeMin_redraw {s : State} (h : Fifo s) (d : Nat) :
    removeMin (redraw d s) = (removeMin s).map fun p => (p.1, redraw d p.2) := by
  rw [removeMin, removeMin, redraw_cfg, redraw_draws, redraw_pq, h, pickMin_fifo_draws s.draws d]
  cases pickMin .fifo s.draws s.pq <;> rfl

theorem removeMin_keeps_fifo {s s' : State} {x : PQEntry} (h : Fifo s) (e : removeMin s = some (x, s')) : Fifo s' := by
  obtain ⟨_, _, _, rfl⟩ := removeMin_spec e
  exact h

theorem mergeOnce_redraw {s : State} (h : Fifo s) (d q : Nat) :
    mergeOnce q (redraw d s) = (mergeOnce q s).map (redraw d) := by
  simp only [mergeOnce, redraw_pq, removeMin_redraw h]
  by_cases hl : 1 < s.pq.length
  · rw [if_pos hl, if_pos hl]
    cases e : removeMin s with
    | none => rfl
    | some p =>
      have h1 : Fifo p.2 := removeMin_keeps_fifo h e
      simp only [Option.map_some, removeMin_redraw h1]
      cases removeMin p.2 <;> rfl
  · rw [if_neg hl, if_neg hl]
    rfl

theorem mergeLoop_redraw (n q : Nat) {s : State} (h : Fifo s) (d : Nat) :
    mergeLoop n q (redraw d s) = redraw d (mergeLoop n q s) := by
  induction n generalizing q s with
  | zero => rfl
  | succ n ih =>
    rw [mergeLoop, mergeLoop, mergeOnce_redraw h]
    cases e : mergeOnce q s with
    | none => rfl
    | some s' =>
      obtain ⟨_, _, _, _, _, _, _, rfl⟩ := mergeOnce_spec e
      exact ih (q + 1) h

theorem buildTree_blind : BlindFrom Fifo buildTree := by
  intro s d h
  have hm : mergeLoop (startQueue s).length (startQueue s).length (setQueue (startQueue s) (dropTree (redraw d s))) =
      redraw d (mergeLoop (startQueue s).length (startQueue s).length (setQueue (startQueue s) (dropTree s))) :=
    mergeLoop_redraw _ _ (s := setQueue (startQueue s) (dropTree s)) h d
  have hq : startQueue (redraw d s) = startQueue s := rfl
  simp only [buildTree, hq, hm, redraw_pq]
  generalize mergeLoop _ _ _ = s1
  cases s1.pq with
  | nil => exact .error _ s1 d
  | cons e es => exact .ok d rfl

/-! ## COMPRESS and DECOMPRESS (R215, R237) -/

theorem requireClosed_blind : Blind requireClosed := fun s d => .ite (fun _ => .error _ s d) fun _ => .ok d rfl

/-- An operation that keeps the parameters can stand before one that is blind under `fifo`. -/
theorem Blind.bind_fifo {x : Micro α} {f : α → Micro β} (hx : Blind x) (hk : Keeps State.cfg x)
    (hf : ∀ a, BlindFrom Fifo (f a)) : BlindFrom Fifo (x >>= f) := by
  refine (hx.blindFrom Fifo).bind (fun s a t hs e => ?_) hf
  have hcfg := hk s
  rw [e] at hcfg
  exact (congrArg Config.Params.tiePolicy hcfg).trans hs

/-- The update of the phase between two parts of a call. -/
theorem setPhase_blind (p : Phase) : Blind (change (setPhase p)) := Blind.change fun _ _ => rfl

theorem tally_keeps_cfg : Keeps State.cfg tally := by
  refine tally_keeps ?_ fun _ _ => rfl
  rintro s _ ⟨_, _, _, _, _, _, _, _, rfl, _⟩
  rfl

theorem compressCall_blind : BlindFrom Fifo compressCall := by
  refine requireClosed_blind.bind_fifo requireClosed_keeps fun _ => ?_
  refine Blind.bind_fifo (Blind.change fun _ _ => rfl) (Keeps.change fun _ => rfl) fun _ => ?_
  refine (setPhase_blind _).bind_fifo (Keeps.change fun _ => rfl) fun _ => ?_
  refine openR_blind.bind_fifo (openR_keeps fun _ _ => rfl) fun _ => ?_
  refine openW_blind.bind_fifo (openW_keeps fun _ _ _ _ _ => rfl) fun _ => ?_
  refine (setPhase_blind _).bind_fifo (Keeps.change fun _ => rfl) fun _ => ?_
  refine tally_blind.bind_fifo tally_keeps_cfg fun _ => ?_
  refine (setPhase_blind _).bind_fifo (Keeps.change fun _ => rfl) fun _ => ?_
  refine buildTree_blind.bind (Q' := fun _ => True) (fun _ _ _ _ _ => trivial) fun _ => Blind.blindFrom ?_ _
  refine (setPhase_blind _).bind fun _ => mkTab_blind.bind fun _ => (setPhase_blind _).bind fun _ => ?_
  refine rewindR_blind.bind fun _ => encodeInput_blind.bind fun _ => (setPhase_blind _).bind fun _ => ?_
  refine serTree_blind.bind fun _ => (setPhase_blind _).bind fun _ => wrPad_blind.bind fun _ => ?_
  refine (setPhase_blind _).bind fun _ => wrEnc_blind.bind fun _ => (setPhase_blind _).bind fun _ => ?_
  exact flushW_blind.bind fun _ => (Blind.change fun _ _ => rfl).bind fun _ => Blind.change fun _ _ => rfl

theorem decompressCall_blind : Blind decompressCall := by
  refine requireClosed_blind.bind fun _ => (Blind.change fun _ _ => rfl).bind fun _ => ?_
  refine (setPhase_blind _).bind fun _ => openR_blind.bind fun _ => openW_blind.bind fun _ => ?_
  refine (setPhase_blind _).bind fun _ => desTree_blind.bind fun _ => (setPhase_blind _).bind fun _ => ?_
  refine rdPad_blind.bind fun _ => (setPhase_blind _).bind fun _ => decodePayload_blind.bind fun _ => ?_
  refine (setPhase_blind _).bind fun _ => flushW_blind.bind fun _ => (Blind.change fun _ _ => rfl).bind fun _ => Blind.change fun _ _ => rfl

/-! ## Every command -/

/-- Where the premise of O25 holds, no draw reaches what the body of a command does, the two that return a read bit or
byte set apart. -/
theorem bodyOf_blind {i : Instr} (hbit : i ≠ .rdbit) (hbyte : i ≠ .rdbyte) :
    BlindFrom (fun s => Fifo s ∨ (i ≠ .build ∧ i ≠ .compress)) (bodyOf i) := by
  have res : ∀ f : State → Word, (∀ s d, f (redraw d s) = f s) → Blind (change fun s => setResult (f s) s) :=
    fun f hf => Blind.change fun s d => by rw [hf]; rfl
  cases i with
  | nop => exact (Blind.pure ()).blindFrom _
  | init => exact Blind.blindFrom (Blind.change fun _ _ => rfl) _
  | openw => exact openW_blind.blindFrom _
  | wrbit a => exact (writeBit_blind _).blindFrom _
  | wrbyte a => exact (writeBits_blind _).blindFrom _
  | pending => exact (res _ fun _ _ => rfl).blindFrom _
  | closew => exact closeW_blind.blindFrom _
  | openr => exact openR_blind.blindFrom _
  | rdbit => exact absurd rfl hbit
  | rdbyte => exact absurd rfl hbyte
  | iseof => exact (res _ fun _ _ => rfl).blindFrom _
  | closer => exact closeR_blind.blindFrom _
  | rewind => exact rewindR_blind.blindFrom _
  | fclr => exact Blind.blindFrom (Blind.change fun _ _ => rfl) _
  | fadd a n => exact (freqAdd_blind a _).blindFrom _
  | fread a => exact (res _ fun _ _ => rfl).blindFrom _
  | tally => exact tally_blind.blindFrom _
  | build => exact fun s d h => buildTree_blind s d (h.resolve_right fun hn => hn.1 rfl)
  | mktab => exact mkTab_blind.blindFrom _
  | lookup a => exact ((lookupCode_blind a).bind fun _ => Blind.change fun _ _ => rfl).blindFrom _
  | encsym a => exact (encSym_blind a).blindFrom _
  | encode => exact encodeInput_blind.blindFrom _
  | sertree => exact serTree_blind.blindFrom _
  | destree => exact desTree_blind.blindFrom _
  | wrpad => exact wrPad_blind.blindFrom _
  | wrenc => exact wrEnc_blind.blindFrom _
  | compress => exact fun s d h => compressCall_blind s d (h.resolve_right fun hn => hn.2 rfl)
  | rdpad => exact rdPad_blind.blindFrom _
  | decbit a => exact ((decBit_blind _).bind fun _ => res _ fun _ _ => rfl).blindFrom _
  | decode => exact decodePayload_blind.blindFrom _
  | decompress => exact decompressCall_blind.blindFrom _

theorem faultEntry_redraw (op : Byte) (c : Cause) (d : Nat) (s : State) :
    faultEntry op c (redraw d s) = redraw d (faultEntry op c s) := by
  rw [faultEntry_eq, faultEntry_eq]
  rfl

/-- Where the body's two runs end alike, so do the command's. -/
theorem exec_redraw {i : Instr} {s t : State} {d : Nat}
    (h : DrawsApart Same (bodyOf i (setPhase (phaseOf i) s)) (bodyOf i (redraw d (setPhase (phaseOf i) s))))
    (ht : exec i s = .next t) : ∃ e, exec i (redraw d s) = .next (redraw e t) := by
  generalize hx : bodyOf i (setPhase (phaseOf i) s) = r at h
  generalize hy : bodyOf i (redraw d (setPhase (phaseOf i) s)) = r' at h
  cases h with
  | ok e _ =>
    cases (exec_ok hx).symm.trans ht
    exact ⟨e, exec_ok (s := redraw d s) hy⟩
  | error c u e =>
    cases (exec_error hx).symm.trans ht
    exact ⟨e, by rw [exec_error (s := redraw d s) hy, faultEntry_redraw]⟩

/-- A command that returns what it read in `RESULT` ends alike but for `RESULT`. -/
theorem exec_read_redraw {i : Instr} {x : Micro α} {f : α → Word}
    (hbody : bodyOf i = x >>= fun v => change (setResult (f v))) (hread : BlindToEof x) {s t : State} (d : Nat)
    (ht : exec i s = .next t) : ∃ e r, exec i (redraw d s) = .next { t with draws := e, result := r } := by
  have h := hread (setPhase (phaseOf i) s) d
  generalize hx : x (setPhase (phaseOf i) s) = r at h
  generalize hy : x (redraw d (setPhase (phaseOf i) s)) = r' at h
  cases h with
  | @ok v v' u e _ =>
    cases (exec_ok (by rw [hbody, Micro.bind_ok hx]; rfl)).symm.trans ht
    exact ⟨e, f v', exec_ok (s := redraw d s) (hbody ▸ Micro.bind_ok hy)⟩
  | error c u e =>
    cases (exec_error (hbody ▸ Micro.bind_error hx)).symm.trans ht
    have hend := exec_error (i := i) (s := redraw d s) (hbody ▸ Micro.bind_error hy)
    exact ⟨e, (faultEntry (opcode i) c u).result, by rw [hend, faultEntry_redraw]; rfl⟩

/-- Settles O25: `RDBIT` and `RDBYTE` end alike but for `RESULT` (`exec_read_redraw`), every other command ends alike in
everything but the draws (`bodyOf_blind`). -/
theorem drawsReachNothing : Obligations.DrawsReachNothing := by
  intro i s t d hp ht
  by_cases hbit : i = .rdbit
  · subst hbit
    obtain ⟨e, r, h⟩ := exec_read_redraw (i := .rdbit) rfl readBit_blindToEof d ht
    exact ⟨e, r, h, fun hn => absurd rfl hn⟩
  by_cases hbyte : i = .rdbyte
  · subst hbyte
    obtain ⟨e, r, h⟩ := exec_read_redraw (i := .rdbyte) rfl readByte_blindToEof d ht
    exact ⟨e, r, h, fun _ hn => absurd rfl hn⟩
  obtain ⟨e, h⟩ := exec_redraw (bodyOf_blind hbit hbyte (setPhase (phaseOf i) s) d hp) ht
  exact ⟨e, t.result, h, fun _ _ => rfl⟩

end Sys2Proof.Machine
end

section
/-! PROOFS. Reset and hazards (70_reset_and_hazards.md): what `COMPRESS` and `DECOMPRESS` leave when they end well (R302),
and what a command does when it is issued without what it needs (R292). -/

namespace Sys2Proof.Machine

variable {α β γ : Type}

/-! ## What a call discards last (R215, R237) -/

/-- Whenever `x` ends well, its end state satisfies `P`. -/
def EndsIn (P : State → Prop) (x : Micro α) : Prop := ∀ s a s', x s = .ok a s' → P s'

/-- Only the last part of a sequence matters. -/
theorem EndsIn.after {P : State → Prop} {x : Micro α} {g : α → Micro β} (hg : ∀ a, EndsIn P (g a)) :
    EndsIn P (x >>= g) := by
  intro s b s'' e
  obtain ⟨a, s', _, e⟩ := Micro.bind_ok_inv e
  exact hg a s' b s'' e

/-- The last two lines of a call. -/
theorem EndsIn.discard (discard : State → State) :
    EndsIn (fun s => ∃ u, s = discard (closeBoth u)) (change closeBoth >>= fun _ => change discard) := by
  intro s _ _ e
  cases e
  exact ⟨s, rfl⟩

theorem compressCall_discards : EndsIn (fun s => ∃ u, s = discardCall (closeBoth u)) compressCall := by
  unfold compressCall
  iterate 22 refine EndsIn.after fun _ => ?_
  exact EndsIn.discard discardCall

theorem decompressCall_discards : EndsIn (fun s => ∃ u, s = discardTree (closeBoth u)) decompressCall := by
  unfold decompressCall
  iterate 13 refine EndsIn.after fun _ => ?_
  exact EndsIn.discard discardTree

/-! ## What a call leaves as reset wrote it (R42, R302) -/

/-- A call that ends well does the same from the block after reset, since it resets the block itself. -/
theorem call_ok_from_reset {s s' : State} {rest : Micro Unit}
    (e : (requireClosed >>= fun _ => change resetBlock >>= fun _ => rest) s = .ok () s') :
    (requireClosed >>= fun _ => change resetBlock >>= fun _ => rest) (resetBlock s) = .ok () s' := by
  rcases requireClosed_cases s with ⟨_, k⟩ | ⟨_, _, k⟩
  · cases (Micro.bind_error k).symm.trans e
  · exact (Micro.bind_ok k).symm.trans e

/-- Where the view `f` is as after reset, it stays so. -/
def StaysReset (f : State → γ) (s t : State) : Prop := f s = f State.reset → f t = f State.reset

theorem StaysReset.trans (f : State → γ) (a b c : State) (h1 : StaysReset f a b) (h2 : StaysReset f b c) :
    StaysReset f a c := fun h => h2 (h1 h)

theorem Keeps.staysReset {f : State → γ} {x : Micro α} (h : Keeps f x) : Always (StaysReset f) x :=
  fun s hs => (h s).trans hs

/-- `RESULT`, `CLEN` and `CBITS`, which no part of a call writes. -/
def codewordRegs (s : State) : Word × BitVec 8 × BitVec 256 := (s.result, s.clen, s.cbits)

/-- These with the counts and the bit sequence, which no part of `DECOMPRESS` writes. -/
def besideDecompress (s : State) : (Word × BitVec 8 × BitVec 256) × FreqTable × Bits := (codewordRegs s, s.freq, s.enc)

theorem besideDecompress_readerBlind : ReaderBlind besideDecompress := by
  rintro s _ ⟨_, _, _, _, _, _, _, _, rfl, _⟩
  rfl

theorem besideDecompress_writerBlind : WriterBlind besideDecompress := by
  rintro s _ ⟨_, _, _, _, _, rfl, _⟩
  rfl

theorem codewordRegs_readerBlind : ReaderBlind codewordRegs := fun s t h =>
  congrArg Prod.fst (besideDecompress_readerBlind s t h)

theorem codewordRegs_writerBlind : WriterBlind codewordRegs := fun s t h =>
  congrArg Prod.fst (besideDecompress_writerBlind s t h)

theorem compressCall_codewordRegs : Always (StaysReset codewordRegs) compressCall := by
  have hr := codewordRegs_readerBlind
  have hw := codewordRegs_writerBlind
  exact compressCall_always (StaysReset.trans _)
    requireClosed_keeps.staysReset (fun _ _ => rfl) (fun _ _ h => h)
    (openR_keeps fun _ _ => rfl).staysReset (openW_keeps fun _ _ _ _ _ => rfl).staysReset
    (tally_keeps hr fun _ _ => rfl).staysReset (buildTree_keeps fun _ _ _ _ _ _ _ _ => rfl).staysReset
    (mkTab_keeps fun _ _ _ => rfl).staysReset (rewindR_keeps fun _ => rfl).staysReset
    (encodeInput_keeps hr fun _ _ => rfl).staysReset (serTree_keeps hw fun _ _ => rfl).staysReset
    (wrPad_keeps hw fun _ _ => rfl).staysReset (wrEnc_keeps hw).staysReset (flushW_keeps hw).staysReset
    (fun _ h => h) (fun _ h => h)

theorem decompressCall_besideDecompress : Always (StaysReset besideDecompress) decompressCall := by
  have hr := besideDecompress_readerBlind
  have hw := besideDecompress_writerBlind
  exact decompressCall_always (StaysReset.trans _)
    requireClosed_keeps.staysReset (fun _ _ => rfl) (fun _ _ h => h)
    (openR_keeps fun _ _ => rfl).staysReset (openW_keeps fun _ _ _ _ _ => rfl).staysReset
    (desTree_keeps hr fun _ _ _ _ _ _ => rfl).staysReset (rdPad_keeps hr fun _ _ => rfl).staysReset
    (decodePayload_keeps hr hw fun _ _ => rfl).staysReset (flushW_keeps hw).staysReset
    (fun _ h => h) (fun _ h => h)

/-- A body that is sound, and under which `f` stays as after reset, from the block after reset to where it ends well. -/
theorem ok_from_reset {f : State → γ} {x : Micro Unit} (hs : Sound x) (hf : Always (StaysReset f) x)
    (h0 : ∀ s, f (resetBlock s) = f State.reset) {s s' : State} (e : x (resetBlock s) = .ok () s') :
    Live s' ∧ f s' = f State.reset := by
  have hend := hf (resetBlock s) (h0 s)
  rw [e] at hend
  exact ⟨(hs _ (live_resetBlock s)).1 () s' e, hend⟩

/-- Settles O58: the last lines of a call close both handles and discard; what they do not discard is as the call's own
reset left it, and a live state with the writer closed has no bit pending and no queue. -/
theorem macrosLeaveNothing : Obligations.MacrosLeaveNothing := by
  intro i s t hi h he
  obtain ⟨s', e, rfl⟩ := exec_ok_inv h he
  rcases hi with rfl | rfl
  · obtain ⟨hlive, hregs⟩ := ok_from_reset compressCall_sound compressCall_codewordRegs (fun _ => rfl)
      (call_ok_from_reset e)
    obtain ⟨u, rfl⟩ := compressCall_discards _ _ _ e
    simp only [codewordRegs, Prod.mk.injEq] at hregs
    obtain ⟨hresult, hclen, hcbits⟩ := hregs
    exact ⟨rfl, rfl, rfl, slotGet_emptyCode, slotGet_emptyFreq, rfl, hlive.noQueue, rfl, rfl,
      (hlive.closedWriterEmpty rfl).1, hresult, hclen, hcbits⟩
  · obtain ⟨hlive, hbeside⟩ := ok_from_reset decompressCall_sound decompressCall_besideDecompress (fun _ => rfl)
      (call_ok_from_reset e)
    obtain ⟨u, rfl⟩ := decompressCall_discards _ _ _ e
    simp only [besideDecompress, codewordRegs, Prod.mk.injEq] at hbeside
    obtain ⟨⟨hresult, hclen, hcbits⟩, hfreq, henc⟩ := hbeside
    exact ⟨rfl, rfl, rfl, slotGet_emptyCode, fun b => (congrArg (slotGet · b) hfreq).trans (slotGet_emptyFreq b), henc,
      hlive.noQueue, rfl, rfl, (hlive.closedWriterEmpty rfl).1, hresult, hclen, hcbits⟩

/-! ## Without an open reader (R137, R138, R292) -/

theorem readBit_closed {s : State} (h : s.inOpen = false) : readBit s = .error ⟨.inClosed, 0#8⟩ s := if_pos h

theorem readByte_closed {s : State} (h : s.inOpen = false) : readByte s = .error ⟨.inClosed, 0#8⟩ s :=
  Micro.bind_error (Micro.bind_error (readBit_closed h))

theorem tally_closed {s : State} (h : s.inOpen = false) : tally s = .error ⟨.inClosed, 0#8⟩ s :=
  Micro.bind_error (readByte_closed h)

theorem encodeInput_closed {s : State} (h : s.inOpen = false) : encodeInput s = .error ⟨.inClosed, 0#8⟩ s :=
  Micro.bind_error (readByte_closed h)

/-- `DesTree` has dropped the old tree before it reads (R193). -/
theorem desTree_closed {s : State} (h : s.inOpen = false) : desTree s = .error ⟨.inClosed, 0#8⟩ (dropTree s) :=
  desTree_error_of_getTree ((getTree_succ _ _).trans (Micro.bind_error (readBit_closed h)))

theorem rdPad_closed {s : State} (h : s.inOpen = false) : rdPad s = .error ⟨.inClosed, 0#8⟩ s :=
  Micro.bind_error (readByte_closed h)

theorem decodePayload_inClosed {s : State} (ht : s.tree ≠ none) (h : s.inOpen = false) :
    decodePayload s = .error ⟨.inClosed, 0#8⟩ s := by
  rw [decodePayload, if_neg ht, if_pos h]

/-! ## Without an open writer (R131, R292) -/

theorem writeBit_closed {s : State} (b : Bool) (h : s.outOpen = false) : writeBit b s = .error ⟨.outClosed, 0#8⟩ s :=
  if_pos h

theorem writeBits_closed {s : State} {bs : Bits} (hne : bs ≠ []) (h : s.outOpen = false) :
    writeBits bs s = .error ⟨.outClosed, 0#8⟩ s := by
  cases bs with
  | nil => exact absurd rfl hne
  | cons b bs => exact Micro.bind_error (writeBit_closed b h)

theorem ser_ne_nil (t : HuffTree) : ser t ≠ [] := by
  cases t <;> simp [ser]

theorem serTree_closed {s : State} (ht : s.tree ≠ none) (h : s.outOpen = false) :
    serTree s = .error ⟨.outClosed, 0#8⟩ s := by
  have hclosed := fun t => writeBits_closed (s := s) (ser_ne_nil t) h
  rcases serTree_cases s with ⟨hnone, _⟩ | ⟨t, s1, _, hw, _⟩ | ⟨t, c, s1, _, hw, e⟩
  · exact absurd hnone ht
  · cases (hclosed t).symm.trans hw
  · cases (hclosed t).symm.trans hw
    exact e

/-- `WrPad` has set `PAD` before it writes (R211). -/
theorem wrPad_closed {s : State} (h : s.outOpen = false) :
    wrPad s = .error ⟨.outClosed, 0#8⟩
      { s with pad := BitVec.ofNat 3 ((8 - (s.treebits.toNat + s.enc.length) % 8) % 8) } :=
  (wrPad_eq (padCount_eq _)).trans (writeBits_closed (List.cons_ne_nil _ _) h)

/-- Nothing to write needs no writer (R213, R214). -/
theorem wrEnc_empty {s : State} (h : s.enc = []) : wrEnc s = .ok () s := by
  rw [wrEnc, h]
  rfl

/-! ## Without a tree, or with a handle open (R233, R237, R292) -/

theorem mkTab_noTree {s : State} (h : s.tree = none) : mkTab s = .error ⟨.noTree, 0#8⟩ s := by
  rw [mkTab, h]

theorem serTree_noTree {s : State} (h : s.tree = none) : serTree s = .error ⟨.noTree, 0#8⟩ s := by
  rw [serTree, h]

theorem decBit_noTree {s : State} (b : Bool) (h : s.tree = none) : decBit b s = .error ⟨.noTree, 0#8⟩ s := by
  rw [decBit, h]

theorem decodePayload_noTree {s : State} (h : s.tree = none) : decodePayload s = .error ⟨.noTree, 0#8⟩ s := if_pos h

theorem requireClosed_open {s : State} (h : s.inOpen = true ∨ s.outOpen = true) :
    requireClosed s = .error ⟨.alreadyOpen, 0#8⟩ s :=
  if_pos (by simpa using h)

/-- Settles O59: each body stops at its first access that lacks what it needs, in the state that access found. -/
theorem missingPreconditions : Obligations.MissingPreconditions := by
  refine fun s => ⟨fun hin => ?_, fun hout => ?_, fun hnone => ?_, fun hopen => ?_⟩
  · exact ⟨exec_error (i := .rdbit) (Micro.bind_error (readBit_closed hin)),
      exec_error (i := .rdbyte) (Micro.bind_error (readByte_closed hin)),
      exec_error (i := .closer) (if_pos hin), exec_error (i := .rewind) (if_pos hin),
      exec_error (i := .tally) (tally_closed hin), exec_error (i := .encode) (encodeInput_closed hin),
      exec_error (i := .destree) (desTree_closed hin), exec_error (i := .rdpad) (rdPad_closed hin),
      fun htree => exec_error (i := .decode) (decodePayload_inClosed htree hin)⟩
  · exact ⟨fun a => exec_error (i := .wrbit a) (writeBit_closed _ hout),
      fun a => exec_error (i := .wrbyte a) (writeBits_closed (List.cons_ne_nil _ _) hout),
      exec_error (i := .closew) (if_pos hout),
      fun htree => exec_error (i := .sertree) (serTree_closed htree hout),
      exec_error (i := .wrpad) (wrPad_closed hout),
      fun hempty => exec_ok (i := .wrenc) (s' := setPhase .payload s) (wrEnc_empty hempty),
      fun hne => exec_error (i := .wrenc) (writeBits_closed hne hout)⟩
  · exact ⟨exec_error (i := .mktab) (mkTab_noTree hnone), exec_error (i := .sertree) (serTree_noTree hnone),
      fun a => exec_error (i := .decbit a) (Micro.bind_error (decBit_noTree _ hnone)),
      exec_error (i := .decode) (decodePayload_noTree hnone)⟩
  · exact ⟨exec_error (i := .compress) (Micro.bind_error (requireClosed_open hopen)),
      exec_error (i := .decompress) (Micro.bind_error (requireClosed_open hopen))⟩

end Sys2Proof.Machine
end
